-- ==== Sys2Proof/Word.lean ====
section
/-! DEFINITION. The word types of HCC: register words, bytes and node indices (R7, R10).
Every value of HCC is unsigned (R10), so a bit vector's own arithmetic is the arithmetic of the spec. -/

namespace Sys2Proof

/-- A 32-bit register word, command word or count (R7, R21). -/
abbrev Word := BitVec 32

/-- A byte: a symbol 0x00 to 0xFF, a payload byte, an error code (R7, R14). -/
abbrev Byte := BitVec 8

/-- A node index, NODE_IDX_BITS = 9 bits wide (R7, R37). -/
abbrev Index := BitVec 9

/-- A 64-bit quantity, read as two registers (R7, R51). -/
abbrev Long := BitVec 64

end Sys2Proof
end

