-- ==== Sys2Proof/Syntax.lean ====
section
/-! DEFINITION. The command set of HCC: one constructor per row of the opcode map (R63), its operands
typed by the width of the field that carries them (R61, R62). -/

namespace Sys2Proof

/-- A decoded command (R63). The operands are the fields of the command word. Operands taken from the
latched arguments (R62: the count, the length, the code bits) stand in the state, not here. -/
inductive Instr where
  /-- NOP, R76. -/
  | nop
  /-- CLEAR, R77. -/
  | clear
  /-- HIST_CLEAR, R79. -/
  | histClear
  /-- HIST_BYTE b, R80. -/
  | histByte (b : Byte)
  /-- HIST_ACC b, R81. -/
  | histAcc (b : Byte)
  /-- RD_FREQ b, R82. -/
  | rdFreq (b : Byte)
  /-- BUILD_TREE, R85. -/
  | buildTree
  /-- TREE_CLEAR, R88. -/
  | treeClear
  /-- INSERT_CODE sym, len, R89. -/
  | insertCode (sym : Byte) (len : Byte)
  /-- RD_NODE idx, R90. -/
  | rdNode (idx : Index)
  /-- GEN_CODES, R91. -/
  | genCodes
  /-- RD_CODE b, R93. -/
  | rdCode (b : Byte)
  /-- ENC_START, R94. -/
  | encStart
  /-- ENC_BYTE b, R95. -/
  | encByte (b : Byte)
  /-- ENC_FLUSH, R96. -/
  | encFlush
  /-- DEC_START, R98. -/
  | decStart
  /-- DEC_BYTE b, R99. -/
  | decByte (b : Byte)
  /-- DEC_END, R100. -/
  | decEnd
  deriving DecidableEq, Repr

/-- The mnemonics of the opcode map (R63), as an assembler line names them (R66). -/
inductive Mnemonic where
  | nop | clear | histClear | histByte | histAcc | rdFreq
  | buildTree | treeClear | insertCode | rdNode | genCodes | rdCode
  | encStart | encByte | encFlush | decStart | decByte | decEnd
  deriving DecidableEq, Repr

/-- The four formats of a command word (R61). -/
inductive Format where
  /-- N: no operand. -/
  | none
  /-- B: one byte. -/
  | byte
  /-- S: a symbol and a length. -/
  | symLen
  /-- I: a node index. -/
  | index
  deriving DecidableEq, Repr

/-- The mnemonic of a command. -/
def Instr.mnemonic : Instr → Mnemonic
  | .nop => .nop
  | .clear => .clear
  | .histClear => .histClear
  | .histByte _ => .histByte
  | .histAcc _ => .histAcc
  | .rdFreq _ => .rdFreq
  | .buildTree => .buildTree
  | .treeClear => .treeClear
  | .insertCode _ _ => .insertCode
  | .rdNode _ => .rdNode
  | .genCodes => .genCodes
  | .rdCode _ => .rdCode
  | .encStart => .encStart
  | .encByte _ => .encByte
  | .encFlush => .encFlush
  | .decStart => .decStart
  | .decByte _ => .decByte
  | .decEnd => .decEnd

/-- An assembler line (R66): a mnemonic and its operands as written, plain numbers that need not fit
their fields. A character literal stands for its byte value before it gets here. -/
structure Source where
  mnemonic : Mnemonic
  operands : List Nat
  deriving DecidableEq, Repr

end Sys2Proof
end

