-- ==== Sys2Proof/Decode.lean ====
section
/-! DEFINITION. The encoding of commands (R60 to R65): the opcode map, the decoder, total on all 2^32
words, and the encoder. -/

namespace Sys2Proof

/-! ## Fields (R61, R62): every field is unsigned and zero-extended, nothing is scaled -/

/-- OP = w[31:24] (R61). -/
def fieldOp (w : Word) : Byte := w.extractLsb' 24 8

/-- BYTE = w[7:0], also SYM (R61). -/
def fieldByte (w : Word) : Byte := w.extractLsb' 0 8

/-- LEN = w[15:8] (R61). -/
def fieldLen (w : Word) : Byte := w.extractLsb' 8 8

/-- IDX = w[8:0] (R61). -/
def fieldIdx (w : Word) : Index := w.extractLsb' 0 9

/-! ## The opcode map and the decoder -/

/-- One row of the opcode map (R63). -/
structure Row where
  mnemonic : Mnemonic
  pattern : Word
  mask : Word
  build : Word → Instr

/-- R63: a word is the command of a row exactly when (w AND mask) = match. -/
def Row.admits (r : Row) (w : Word) : Bool := w &&& r.mask == r.pattern

/-- The opcode map (R63), in the table's order. -/
def opcodeMap : List Row :=
  [ ⟨.nop, 0x00000000, 0xFFFFFFFF, fun _ => .nop⟩,
    ⟨.clear, 0x01000000, 0xFFFFFFFF, fun _ => .clear⟩,
    ⟨.histClear, 0x02000000, 0xFFFFFFFF, fun _ => .histClear⟩,
    ⟨.histByte, 0x03000000, 0xFFFFFF00, fun w => .histByte (fieldByte w)⟩,
    ⟨.histAcc, 0x04000000, 0xFFFFFF00, fun w => .histAcc (fieldByte w)⟩,
    ⟨.rdFreq, 0x05000000, 0xFFFFFF00, fun w => .rdFreq (fieldByte w)⟩ ] ++
  [ ⟨.buildTree, 0x10000000, 0xFFFFFFFF, fun _ => .buildTree⟩,
    ⟨.treeClear, 0x11000000, 0xFFFFFFFF, fun _ => .treeClear⟩,
    ⟨.insertCode, 0x12000000, 0xFFFF0000, fun w => .insertCode (fieldByte w) (fieldLen w)⟩,
    ⟨.rdNode, 0x13000000, 0xFFFFFE00, fun w => .rdNode (fieldIdx w)⟩,
    ⟨.genCodes, 0x20000000, 0xFFFFFFFF, fun _ => .genCodes⟩,
    ⟨.rdCode, 0x21000000, 0xFFFFFF00, fun w => .rdCode (fieldByte w)⟩ ] ++
  [ ⟨.encStart, 0x30000000, 0xFFFFFFFF, fun _ => .encStart⟩,
    ⟨.encByte, 0x31000000, 0xFFFFFF00, fun w => .encByte (fieldByte w)⟩,
    ⟨.encFlush, 0x32000000, 0xFFFFFFFF, fun _ => .encFlush⟩,
    ⟨.decStart, 0x40000000, 0xFFFFFFFF, fun _ => .decStart⟩,
    ⟨.decByte, 0x41000000, 0xFFFFFF00, fun w => .decByte (fieldByte w)⟩,
    ⟨.decEnd, 0x42000000, 0xFFFFFFFF, fun _ => .decEnd⟩ ]

/-- The two ways a word is illegal (R65). -/
inductive Illegal where
  /-- The opcode is in no row of the opcode map. -/
  | unassignedOpcode
  /-- The opcode is in a row, but one of the format's reserved bits is 1. -/
  | reservedBits
  deriving DecidableEq, Repr

/-- What decoding a word gives (R64): a command, or ILLEGAL(w) with the reason. -/
inductive Decoded where
  | instr (i : Instr)
  | illegal (why : Illegal)
  deriving DecidableEq, Repr

/-- R64: the first row that admits the word gives the command; a word no row admits is illegal. -/
def decode (w : Word) : Decoded :=
  match opcodeMap.find? (fun r => r.admits w) with
  | some r => .instr (r.build w)
  | none =>
    .illegal (if opcodeMap.any (fun r => fieldOp w == fieldOp r.pattern)
      then .reservedBits else .unassignedOpcode)

/-- The decoder on an instruction's bits as spec/opcode_table.json numbers them. A command is one
32-bit word (R60), bit 0 its least significant bit. -/
def decodeTableWord (nbits w : Nat) : Option Instr :=
  match decode (BitVec.ofNat 32 (w % 2 ^ nbits)) with
  | .instr i => some i
  | .illegal _ => none

/-! ## The encoder, from the pattern strings of R61 and the OP column of R63 -/

/-- Format N: `oooooooo 00000000 00000000 00000000` (R61). -/
def wordN (op : Byte) : Word := op ++ 0#24

/-- Format B: `oooooooo 00000000 00000000 bbbbbbbb` (R61). -/
def wordB (op b : Byte) : Word := op ++ 0#16 ++ b

/-- Format S: `oooooooo 00000000 llllllll ssssssss` (R61). -/
def wordS (op len sym : Byte) : Word := op ++ 0#8 ++ len ++ sym

/-- Format I: `oooooooo 00000000 0000000i iiiiiiii` (R61). -/
def wordI (op : Byte) (idx : Index) : Word := op ++ 0#15 ++ idx

/-- The word of a command (R61, R63, R66). Every reserved bit is 0. -/
def encode : Instr → Word
  | .nop => wordN 0x00
  | .clear => wordN 0x01
  | .histClear => wordN 0x02
  | .histByte b => wordB 0x03 b
  | .histAcc b => wordB 0x04 b
  | .rdFreq b => wordB 0x05 b
  | .buildTree => wordN 0x10
  | .treeClear => wordN 0x11
  | .insertCode sym len => wordS 0x12 len sym
  | .rdNode idx => wordI 0x13 idx
  | .genCodes => wordN 0x20
  | .rdCode b => wordB 0x21 b
  | .encStart => wordN 0x30
  | .encByte b => wordB 0x31 b
  | .encFlush => wordN 0x32
  | .decStart => wordN 0x40
  | .decByte b => wordB 0x41 b
  | .decEnd => wordN 0x42

end Sys2Proof
end

