-- ==== Sys2Proof/Machine/Types.lean ====
section
/-! DEFINITION. The plain data that State is made of: node and code entries (R37, R38), bus accesses and
responses (R16, R46), the environment's events (R15), the error codes (R102). -/

namespace Sys2Proof.Machine

/-- One entry of NODE (R37). -/
structure NodeEntry where
  /-- LEAF: a leaf, else an internal node. -/
  leaf : Bool
  /-- SYNTH: the synthetic leaf of R85. -/
  synth : Bool
  /-- SYM: a leaf's symbol; 0x00 for an internal node and for the synthetic leaf. -/
  sym : Byte
  /-- FREQ: a leaf's count, or the sum of an internal node's children's. -/
  freq : Word
  /-- LEFT: the child reached by bit 0, or NIL. -/
  left : Index
  /-- RIGHT: the child reached by bit 1, or NIL. -/
  right : Index
  deriving DecidableEq, Repr, Inhabited

/-- The node memory: 511 entries, indices 0 to 510 (R37). -/
abbrev NodeMem := Vector NodeEntry 511

/-- One entry of CODE (R38): VALID and BITS. LEN is the length of BITS, `CodeEntry.len`, and is stored
once, as that length. DESIGN CHOICE, log 12. -/
structure CodeEntry where
  valid : Bool
  bits : List Bool
  deriving DecidableEq, Repr, Inhabited

/-- LEN, 8 bits (R38). -/
def CodeEntry.len (e : CodeEntry) : Byte := BitVec.ofNat 8 e.bits.length

/-- An invalid entry: VALID 0, LEN 0, BITS empty (R38). -/
def CodeEntry.invalid : CodeEntry := ⟨false, []⟩

/-- The code table (R38). -/
abbrev CodeMem := Vector CodeEntry 256

/-- TREE_SRC (R17): where the tree in node memory comes from. -/
inductive TreeSource where
  /-- 0, BUILT by BUILD_TREE (R85). -/
  | built
  /-- 1, LOADED by INSERT_CODE (R89). -/
  | loaded
  deriving DecidableEq, Repr, Inhabited

/-- One bus access of the host (R16, R46): a byte offset within the window, a size in bytes, and for a
write the data. -/
inductive Access where
  | read (off : Byte) (bytes : Nat)
  | write (off : Byte) (bytes : Nat) (v : Word)
  deriving DecidableEq, Repr

/-- The bus port's response to an access (R16, R46): OK or error, and the data of a read. -/
structure Response where
  ok : Bool
  rdata : Option Word
  deriving DecidableEq, Repr

/-- What the environment of the engine does next (R15, R57). -/
inductive Event where
  /-- The host performs one bus access. -/
  | access (a : Access)
  /-- `rst_n` is asserted (R120). -/
  | rstAssert
  /-- `rst_n` is released (R120). -/
  | rstRelease
  /-- No access falls here: the engine may take its completion step (R57, R70). -/
  | engine
  deriving DecidableEq, Repr

/-- The error codes of R102 that a command can raise. NONE (0x00) is no fault, so it is not one of them. -/
inductive FaultCode where
  /-- 0x01: the word is not in the opcode map. -/
  | illegalCmd
  /-- 0x02: a state precondition of the command fails. -/
  | sequence
  /-- 0x03: HIST_TOTAL would exceed 2^32 - 1. -/
  | countOverflow
  /-- 0x04: the symbol to encode has no valid code. -/
  | alphabetMismatch
  /-- 0x05: a payload bit leads to a NIL edge or to the synthetic leaf. -/
  | corruptCode
  /-- 0x06: the last declared bit leaves the walker inside a code. -/
  | underflow
  /-- 0x07: DEC_END while declared bits remain. -/
  | truncated
  /-- 0x08: DEC_BYTE after the declared length is consumed. -/
  | extraPayload
  /-- 0x09: a loaded code is empty, repeats a symbol or breaks the free-of-initial-parts property. -/
  | badCode
  /-- 0x0A: a loaded code needs more than 511 nodes in total. -/
  | nodeCapacity
  deriving DecidableEq, Repr

/-- The 8-bit value ERR_CODE takes (R102). -/
def FaultCode.code : FaultCode → Byte
  | .illegalCmd => 0x01
  | .sequence => 0x02
  | .countOverflow => 0x03
  | .alphabetMismatch => 0x04
  | .corruptCode => 0x05
  | .underflow => 0x06
  | .truncated => 0x07
  | .extraPayload => 0x08
  | .badCode => 0x09
  | .nodeCapacity => 0x0A

end Sys2Proof.Machine
end

