-- ==== Sys2Proof/Config.lean ====
section
/-! DEFINITION. What is fixed for the machine: the implementation parameters of R7, the identification
values of R22, the platform's base address, which is open (R8), and the free values, constants with no
body, so that no proof can lean on what they are. -/

namespace Sys2Proof.Config

open Sys2Proof.Machine

/-- NIL, the absent-node index (R7). -/
def nil : Index := 0x1FF

/-- NODE_CAP, the number of node entries (R7). -/
def nodeCap : Nat := 511

/-- MAX_CODE_LEN in bits (R7, R9). -/
def maxCodeLen : Nat := 255

/-- OUTQ_DEPTH in bytes (R7). -/
def outqDepth : Nat := 64

/-- The constant ID reads (R22). -/
def idValue : Word := 0x48554646

/-- The constant VERSION reads: major 1, minor 0 (R22). -/
def versionValue : Word := 0x00010000

/-- HCC_BASE, the platform address of the register window: OPEN (R8, item U10). No body. Log 9. -/
opaque hccBase : Nat

/-- The contents of NODE after a reset, which the spec leaves unspecified (R17, R37, R120, item U8: any
value): a free value for the k-th draw and the index. No body. Log 3. -/
opaque freeNode : Nat → Nat → NodeEntry

/-- What reading node index 511 gives: NODE has no such entry (R37), and no reachable state reads it. A
free value. No body. Log 5. -/
opaque absentNode : NodeEntry

end Sys2Proof.Config
end

