-- ==== Sys2Proof/Machine/State.lean ====
section
/-! DEFINITION. The state of HCC: one field per row of R17's table, the levels of the bus response and
reset ports (R16), and the two fields of the model's own, `events` and `draws`. -/

namespace Sys2Proof.Machine

/-- The whole state (R17). Configuration and the host's program are not state. -/
structure State where
  /-- ARG[0..7], the argument file (R18). -/
  arg : Vector Word 8
  /-- RES[0..8], the result file (R19). -/
  res : Vector Word 9
  /-- FLAGS: bit 0 CMD_DONE, bit 1 CMD_DROPPED, bit 2 RD_EMPTY (R25). -/
  flags : BitVec 3
  /-- IE: bit 0 CMD_DONE_IE, bit 1 CMD_DROPPED_IE, bit 2 RD_EMPTY_IE, bit 3 FAULT_IE (R26). -/
  ie : BitVec 4
  /-- BUSY: a command has been issued and has not completed (R39). -/
  busy : Bool
  /-- L_CMD, the latched command word (R39). -/
  lCmd : Word
  /-- L_ARG[0..7], the arguments copied at issue (R39). -/
  lArg : Vector Word 8
  /-- OUTQ, the output queue, head first (R40). -/
  outq : List Byte
  /-- FAULT, the sticky fault bit (R35, R106). -/
  fault : Bool
  /-- ERR_CODE (R24). -/
  errCode : Byte
  /-- ERR_OP (R24). -/
  errOp : Byte
  /-- FREQ[0..255], the histogram (R36). -/
  freq : Vector Word 256
  /-- HIST_TOTAL (R30). -/
  histTotal : Word
  /-- NODE[0..510] (R37). -/
  node : NodeMem
  /-- NODE_COUNT, 0 to 511 (R31). -/
  nodeCount : Index
  /-- LEAF_COUNT, 0 to 256 (R31). -/
  leafCount : Index
  /-- ROOT, or NIL (R31). -/
  root : Index
  /-- TREE_SRC (R17). -/
  treeSrc : TreeSource
  /-- CODE[0..255] (R38). -/
  code : CodeMem
  /-- CODE_MAXLEN (R32). -/
  codeMaxLen : Byte
  /-- COST (R32). -/
  cost : Long
  /-- ENC_ACC, the pending bits right-aligned (R41). -/
  encAcc : BitVec 7
  /-- ENC_NPEND, how many bits are pending (R41). -/
  encNpend : BitVec 3
  /-- ENC_BITCNT (R41). -/
  encBitcnt : Long
  /-- DEC_REMAIN, declared bits not yet consumed (R42). -/
  decRemain : Long
  /-- DEC_NODE, the walker (R42). -/
  decNode : Index
  /-- DEC_ACTIVE (R42). -/
  decActive : Bool
  /-- DEC_DONE (R42). -/
  decDone : Bool
  /-- DEC_SYMCNT, symbols emitted since DEC_START (R42). -/
  decSymcnt : Long
  /-- The level of the reset input: `rst_n` is asserted (R16, R120). Log 8. -/
  rstAsserted : Bool
  /-- The bus port's last response (R16, R46); none before the first. Log 7. -/
  resp : Option Response
  /-- The model's own: what the environment does next, oldest first. Log 1. -/
  events : List Event
  /-- The model's own: how often NODE's unspecified contents have been drawn. Log 3. -/
  draws : Nat
  deriving DecidableEq, Repr

/-- Why the machine would stop. No constructor: a faulting command of HCC is a next state with FAULT set
(R72), a bus error response changes nothing (R46), a held command waits (R73), and no rule of the spec
stops the machine. -/
inductive Fault where
  deriving DecidableEq, Repr

/-- Why a command would have no meaning. -/
inductive Refusal where
  /-- Raised by an arm of `exec` for a command that has no meaning in the model. No arm raises it. Safe. -/
  | notModelled (mnemonic : String)
  deriving DecidableEq, Repr

/-- NODE after the k-th draw of its unspecified contents (R17, R120). Log 3. -/
def drawnNodes (k : Nat) : NodeMem := ⟨⟨(List.range 511).map (Config.freeNode k)⟩, by simp⟩

/-- Every element at its reset value (R17, R120), NODE's unspecified contents being draw `k`. -/
def State.resetWith (k : Nat) : State where
  arg := Vector.replicate 8 0
  res := Vector.replicate 9 0
  flags := 0
  ie := 0
  busy := false
  lCmd := 0
  lArg := Vector.replicate 8 0
  outq := []
  fault := false
  errCode := 0
  errOp := 0
  freq := Vector.replicate 256 0
  histTotal := 0
  node := drawnNodes k
  nodeCount := 0
  leafCount := 0
  root := Config.nil
  treeSrc := .built
  code := Vector.replicate 256 CodeEntry.invalid
  codeMaxLen := 0
  cost := 0
  encAcc := 0
  encNpend := 0
  encBitcnt := 0
  decRemain := 0
  decNode := Config.nil
  decActive := false
  decDone := false
  decSymcnt := 0
  rstAsserted := false
  resp := none
  events := []
  draws := k + 1

/-- The machine right after reset (R120): `rst_n` released, no access made yet. -/
def State.reset : State := State.resetWith 0

end Sys2Proof.Machine
end

