-- ==== Sys2Proof/Machine/Flags.lean ====
section
/-! DEFINITION. FLAGS, the interrupt level and the STATUS and ERROR words (R23 to R25, R111). -/

namespace Sys2Proof.Machine

/-! ## FLAGS (R25) -/

/-- FLAGS with CMD_DONE (bit 0) set. -/
def withCmdDone (f : BitVec 3) : BitVec 3 := f ||| 0b001#3

/-- FLAGS with CMD_DROPPED (bit 1) set. -/
def withCmdDropped (f : BitVec 3) : BitVec 3 := f ||| 0b010#3

/-- FLAGS with RD_EMPTY (bit 2) set. -/
def withRdEmpty (f : BitVec 3) : BitVec 3 := f ||| 0b100#3

/-- A host write of v clears each flag i with v[i] = 1 and leaves the others (R25, RW1C). -/
def clearWritten (f : BitVec 3) (v : Word) : BitVec 3 := f &&& ~~~(v.extractLsb' 0 3)

/-! ## The interrupt output (R111) -/

/-- The level of irq: an enabled FLAGS bit, or FAULT with FAULT_IE. -/
def irq (s : State) : Bool :=
  (s.flags.getLsbD 0 && s.ie.getLsbD 0) || (s.flags.getLsbD 1 && s.ie.getLsbD 1) ||
    (s.flags.getLsbD 2 && s.ie.getLsbD 2) || (s.fault && s.ie.getLsbD 3)

/-! ## Derived values -/

/-- HIST_DISTINCT, the number of symbols s with FREQ[s] >= 1 (R30). Computed, no state. -/
def histDistinct (s : State) : Nat := s.freq.toList.countP (fun f => f != 0)

/-- CODES_VALID: some CODE[s].VALID = 1 (R23). -/
def codesValid (s : State) : Bool := s.code.toList.any (fun e => e.valid)

/-- TREE_SRC as a bit: 0 BUILT, 1 LOADED (R17). -/
def TreeSource.bit : TreeSource → Bool
  | .built => false
  | .loaded => true

/-- STATUS (R23): bits 31:11 are 0, then bit 10 down to bit 0. -/
def statusWord (s : State) : Word :=
  0#21 ++ BitVec.ofBool (irq s)                     -- 10 IRQ
    ++ BitVec.ofBool (s.outq.length == Config.outqDepth) -- 9 OUT_FULL
    ++ BitVec.ofBool s.outq.isEmpty                 -- 8 OUT_EMPTY
    ++ BitVec.ofBool s.decDone                      -- 7 DEC_DONE
    ++ BitVec.ofBool s.decActive                    -- 6 DEC_ACTIVE
    ++ BitVec.ofBool (histDistinct s == 0)          -- 5 HIST_EMPTY
    ++ BitVec.ofBool s.treeSrc.bit                  -- 4 TREE_LOADED
    ++ BitVec.ofBool (codesValid s)                 -- 3 CODES_VALID
    ++ BitVec.ofBool (s.nodeCount != 0)             -- 2 TREE_VALID
    ++ BitVec.ofBool s.fault                        -- 1 FAULT
    ++ BitVec.ofBool s.busy                         -- 0 BUSY

/-- ERROR (R24): ERR_OP in bits 15:8, ERR_CODE in bits 7:0, the rest 0. -/
def errorWord (s : State) : Word := 0#16 ++ s.errOp ++ s.errCode

/-- ENC_PENDING (R33): ENC_ACC in bits 14:8, ENC_NPEND in bits 2:0, the rest 0. -/
def encPendingWord (s : State) : Word := 0#17 ++ s.encAcc ++ 0#5 ++ s.encNpend

end Sys2Proof.Machine
end

