-- ==== Sys2Proof/Machine/Bits.lean ====
section
/-! DEFINITION. Bit sequences, first bit first (R10), and their packing into bytes and words (R11, R41,
R52, R53). -/

namespace Sys2Proof.Machine

/-- value(R) = the sum of R[j] * 2^(|R|-1-j) (R41): the first bit is the most significant. -/
def value (q : List Bool) : Nat := q.foldl (fun acc b => 2 * acc + b.toNat) 0

/-- bitsOf(B) = B[7], B[6], ..., B[0] (R11). -/
def bitsOf (b : Byte) : List Bool :=
  [b.getLsbD 7, b.getLsbD 6, b.getLsbD 5, b.getLsbD 4,
    b.getLsbD 3, b.getLsbD 2, b.getLsbD 1, b.getLsbD 0]

/-- byteOf(q) = the sum of q[j] * 2^(7-j), for a sequence of length 8 (R11). -/
def byteOf (q : List Bool) : Byte := BitVec.ofNat 8 (value q)

/-- The whole bytes of T, k-th byte T[8k .. 8k+7] (R95, R52). -/
def wholeBytes (t : List Bool) : List Byte :=
  (List.range (t.length / 8)).map (fun k => byteOf ((t.drop (8 * k)).take 8))

/-- The 0 to 7 bits of T after its whole bytes (R95). -/
def leftover (t : List Bool) : List Bool := t.drop (8 * (t.length / 8))

/-- Word W[k] of the eight that carry a code (R53): code bit j is W[j div 32][31 - (j mod 32)], and every
position at or beyond the length is 0. -/
def codeWord (q : List Bool) (k : Nat) : Word :=
  BitVec.ofNat 32 (value ((List.range 32).map (fun i => q.getD (32 * k + i) false)))

/-- Code bit j of the words W[0..7] (R53). -/
def codeBit (w : Vector Word 8) (j : Nat) : Bool :=
  if h : j / 32 < 8 then w[j / 32].getLsbD (31 - j % 32) else false

end Sys2Proof.Machine
end

