-- ==== Sys2Proof/Machine/Operands.lean ====
section
/-! DEFINITION. The operands a command takes from the latched arguments (R62, R18). They are those copied
at issue, never the live ARG registers. -/

namespace Sys2Proof.Machine

/-- HIST_ACC's 32-bit count, L_ARG0 (R62). -/
def countOperand (s : State) : Word := s.lArg[0]

/-- DEC_START's 64-bit length, L_ARG1 * 2^32 + L_ARG0 (R62). -/
def lengthOperand (s : State) : Long := s.lArg[1] ++ s.lArg[0]

/-- INSERT_CODE's code bits q[0..LEN-1], from L_ARG0 to L_ARG7 (R62, R53); positions at or beyond LEN are
ignored. -/
def codeOperand (len : Byte) (s : State) : List Bool :=
  (List.range len.toNat).map (codeBit s.lArg)

end Sys2Proof.Machine
end

