-- ==== Sys2Proof/Machine/Ops.lean ====
section
/-! DEFINITION. The operations commands share: node and code memory, clearing, the encoder's pending bits,
a command's outcome and its commit (R71 to R73), and taking a command fault (R72) with the way back from
it (R108). -/

namespace Sys2Proof.Machine

/-! ## Node memory (R37, R83) -/

/-- Leaf(s, f) of R83. -/
def leafNode (sym : Byte) (f : Word) : NodeEntry := ⟨true, false, sym, f, Config.nil, Config.nil⟩

/-- Synth() of R83. -/
def synthNode : NodeEntry := ⟨true, true, 0x00, 0, Config.nil, Config.nil⟩

/-- Internal(f, l, r) of R83. -/
def internalNode (f : Word) (l r : Index) : NodeEntry := ⟨false, false, 0x00, f, l, r⟩

/-- NODE[i]. Index 511 has no entry (R37) and gives a free value (log 5). -/
def nodeAt (n : NodeMem) (i : Index) : NodeEntry :=
  if h : i.toNat < 511 then n[i.toNat] else Config.absentNode

/-- child(e, 0) = e.LEFT, child(e, 1) = e.RIGHT (42_tree.md, R99). -/
def NodeEntry.child (e : NodeEntry) (b : Bool) : Index := if b then e.right else e.left

/-- The entry e with child(e, b) set to c. -/
def NodeEntry.withChild (e : NodeEntry) (b : Bool) (c : Index) : NodeEntry :=
  if b then { e with right := c } else { e with left := c }

/-- N with entry i written; an index past the array writes nothing. -/
def setNode (n : NodeMem) (i : Nat) (e : NodeEntry) : NodeMem := n.setIfInBounds i e

/-- "set child(N[cur], b) to c" (R89). -/
def setChild (n : NodeMem) (cur : Index) (b : Bool) (c : Index) : NodeMem :=
  setNode n cur.toNat ((nodeAt n cur).withChild b c)

/-- NODE[0 .. |l|-1] <- l, the other entries kept (R85). -/
def writeNodes (n : NodeMem) (l : List NodeEntry) : NodeMem :=
  ⟨⟨(l ++ n.toList.drop l.length).take 511⟩, by simp; omega⟩

/-! ## Clearing (R83, R77) -/

/-- ClearDecoder(r) of R83. -/
def clearDecoder (r : Index) (s : State) : State :=
  { s with decActive := false, decDone := false, decRemain := 0, decSymcnt := 0, decNode := r }

/-- ClearCodes() of R83. -/
def clearCodes (s : State) : State :=
  { s with code := Vector.replicate 256 CodeEntry.invalid, codeMaxLen := 0, cost := 0 }

/-- No tree (R85 with an empty histogram, R88): NODE_COUNT, LEAF_COUNT, ROOT, TREE_SRC, then ClearCodes()
and ClearDecoder(NIL). -/
def clearTree (s : State) : State :=
  clearDecoder Config.nil (clearCodes
    { s with nodeCount := 0, leafCount := 0, root := Config.nil, treeSrc := .built })

/-- R77: all engine state at its reset value. ARG, IE and FLAGS are kept. -/
def clearEngine (s : State) : State :=
  { s with
    fault := false, errCode := 0, errOp := 0
    freq := Vector.replicate 256 0, code := Vector.replicate 256 CodeEntry.invalid
    histTotal := 0
    nodeCount := 0, leafCount := 0, root := Config.nil, treeSrc := .built
    codeMaxLen := 0, cost := 0
    encAcc := 0, encNpend := 0, encBitcnt := 0
    decRemain := 0, decNode := Config.nil, decActive := false, decDone := false, decSymcnt := 0
    res := Vector.replicate 9 0
    outq := [] }

/-- R121, R120: every element at its reset value, with NODE's unspecified contents drawn anew. The pending
events are the environment's and stay. -/
def resetState (s : State) : State := { State.resetWith s.draws with events := s.events }

/-! ## The encoder's pending bits (R41) -/

/-- P: ENC_NPEND bits, P[j] = ENC_ACC[ENC_NPEND - 1 - j]. -/
def pendingBits (s : State) : List Bool :=
  (List.range s.encNpend.toNat).map (fun j => s.encAcc.getLsbD (s.encNpend.toNat - 1 - j))

/-- ENC_NPEND <- |R|, ENC_ACC <- value(R) (R95). -/
def setPending (r : List Bool) (s : State) : State :=
  { s with encNpend := BitVec.ofNat 3 r.length, encAcc := BitVec.ofNat 7 (value r) }

/-! ## A command's outcome and its commit (R13, R71 to R73) -/

/-- What the pseudocode of a command's rule gives (R13). -/
inductive Result where
  /-- Ok(S', out). -/
  | ok (s : State) (out : List Byte)
  /-- Fault(code). -/
  | fault (c : FaultCode)
  /-- The pseudocode does not end. Only GEN_CODES over a cyclic node graph, which no reachable state holds
  (R43 I2). DEDUCED, log 10. -/
  | unending

/-- R72: taking a command fault. FAULT, ERR_CODE, ERR_OP = L_CMD[31:24], BUSY and CMD_DONE are written and
nothing else. -/
def takeFault (c : FaultCode) (s : State) : State :=
  { s with
    fault := true, errCode := c.code, errOp := s.lCmd.extractLsb' 24 8
    busy := false, flags := withCmdDone s.flags }

/-- R108: the way back from a fault by command is CLEAR's effect; nothing from before the fault is
restored. The other two ways are a reset and a soft reset, `resetState`. -/
def leaveFault (s : State) : State := clearEngine s

/-- R71: the commit of Ok(S', out). S'.OUTQ is the current queue, or the empty one for CLEAR. -/
def commitOk (s' : State) (out : List Byte) : State :=
  { s' with outq := s'.outq ++ out, busy := false, flags := withCmdDone s'.flags }

/-- The free room of OUTQ in bytes (R73). -/
def outqRoom (s : State) : Nat := Config.outqDepth - s.outq.length

/-- R70 to R73: the completion step for a command's outcome. A fault never holds. An Ok outcome commits
when OUTQ has room for its bytes; until then the command holds and nothing of it is committed: the state
stays as it is, with BUSY = 1 (log 6). -/
def complete (r : Result) (s : State) : Host.Outcome State Fault Refusal :=
  match r with
  | .ok s' out => if out.length ≤ outqRoom s then .next (commitOk s' out) else .next s
  | .fault c => .next (takeFault c s)
  | .unending => .next s

/-! ## Results (R19) -/

/-- RES[0..8] <- r0, r1, r2, 0, ... (R82, R90): a completion that writes RES writes all nine. -/
def setResults (r0 r1 r2 : Word) (s : State) : State :=
  { s with res := #v[r0, r1, r2, 0, 0, 0, 0, 0, 0] }

end Sys2Proof.Machine
end

