-- ==== Sys2Proof/Machine/Bus.lean ====
section
/-! DEFINITION. The register window and the bus target port (R21 to R34, R44 to R50, R69). -/

namespace Sys2Proof.Machine

/-! ## The register map (R21) -/

/-- The registers of the window. -/
inductive Reg where
  | id | version | status | error | flags | ie | ctrl | cmd
  | arg (i : Fin 8)
  | res (i : Fin 9)
  | outData | outLevel | histTotal | histDistinct
  | nodeCount | leafCount | root
  | codeMaxLen | costLo | costHi
  | encBitcntLo | encBitcntHi | encPending
  | decRemainLo | decRemainHi | decNode | decSymcntLo | decSymcntHi
  /-- An offset from 0xAC to 0xFC. -/
  | reserved
  deriving DecidableEq, Repr

/-- The register in a word slot, offset bits 7:2 (R21, R44). -/
def Reg.atSlot : Nat → Reg
  | 0 => .id
  | 1 => .version
  | 2 => .status
  | 3 => .error
  | 4 => .flags
  | 5 => .ie
  | 6 => .ctrl
  | 7 => .cmd
  | 8 => .arg 0
  | 9 => .arg 1
  | 10 => .arg 2
  | 11 => .arg 3
  | 12 => .arg 4
  | 13 => .arg 5
  | 14 => .arg 6
  | 15 => .arg 7
  | 16 => .res 0
  | 17 => .res 1
  | 18 => .res 2
  | 19 => .res 3
  | 20 => .res 4
  | 21 => .res 5
  | 22 => .res 6
  | 23 => .res 7
  | 24 => .res 8
  | 25 => .outData
  | 26 => .outLevel
  | 27 => .histTotal
  | 28 => .histDistinct
  | 29 => .nodeCount
  | 30 => .leafCount
  | 31 => .root
  | 32 => .codeMaxLen
  | 33 => .costLo
  | 34 => .costHi
  | 35 => .encBitcntLo
  | 36 => .encBitcntHi
  | 37 => .encPending
  | 38 => .decRemainLo
  | 39 => .decRemainHi
  | 40 => .decNode
  | 41 => .decSymcntLo
  | 42 => .decSymcntHi
  | _ => .reserved

/-- The register at a byte offset of the window. -/
def Reg.atOffset (off : Byte) : Reg := Reg.atSlot (off.toNat / 4)

/-- The byte offset of a register (R21); for `reserved` the first reserved offset. -/
def Reg.offset : Reg → Byte
  | .id => 0x00
  | .version => 0x04
  | .status => 0x08
  | .error => 0x0C
  | .flags => 0x10
  | .ie => 0x14
  | .ctrl => 0x18
  | .cmd => 0x1C
  | .arg i => BitVec.ofNat 8 (0x20 + 4 * i.val)
  | .res i => BitVec.ofNat 8 (0x40 + 4 * i.val)
  | .outData => 0x64
  | .outLevel => 0x68
  | .histTotal => 0x6C
  | .histDistinct => 0x70
  | .nodeCount => 0x74
  | .leafCount => 0x78
  | .root => 0x7C
  | .codeMaxLen => 0x80
  | .costLo => 0x84
  | .costHi => 0x88
  | .encBitcntLo => 0x8C
  | .encBitcntHi => 0x90
  | .encPending => 0x94
  | .decRemainLo => 0x98
  | .decRemainHi => 0x9C
  | .decNode => 0xA0
  | .decSymcntLo => 0xA4
  | .decSymcntHi => 0xA8
  | .reserved => 0xAC

/-! ## Reads (R48, R49) -/

/-- OUT_DATA's word (R29, R49): VALID in bit 8 and DATA, or 0 of an empty queue. -/
def outDataWord (s : State) : Word :=
  match s.outq with
  | b :: _ => 0#23 ++ 1#1 ++ b
  | [] => 0

/-- The value a read of a register returns, computed from the state at the moment of the access (R48). -/
def regValue (r : Reg) (s : State) : Word :=
  match r with
  | .id => Config.idValue
  | .version => Config.versionValue
  | .status => statusWord s
  | .error => errorWord s
  | .flags => 0#29 ++ s.flags
  | .ie => 0#28 ++ s.ie
  | .ctrl => 0
  | .cmd => 0
  | .arg i => s.arg[i.val]
  | .res i => s.res[i.val]
  | .outData => outDataWord s
  | .outLevel => 0#25 ++ BitVec.ofNat 7 s.outq.length
  | .histTotal => s.histTotal
  | .histDistinct => 0#23 ++ BitVec.ofNat 9 (histDistinct s)
  | .nodeCount => 0#23 ++ s.nodeCount
  | .leafCount => 0#23 ++ s.leafCount
  | .root => 0#23 ++ s.root
  | .codeMaxLen => 0#24 ++ s.codeMaxLen
  | .costLo => s.cost.extractLsb' 0 32
  | .costHi => s.cost.extractLsb' 32 32
  | .encBitcntLo => s.encBitcnt.extractLsb' 0 32
  | .encBitcntHi => s.encBitcnt.extractLsb' 32 32
  | .encPending => encPendingWord s
  | .decRemainLo => s.decRemain.extractLsb' 0 32
  | .decRemainHi => s.decRemain.extractLsb' 32 32
  | .decNode => 0#23 ++ s.decNode
  | .decSymcntLo => s.decSymcnt.extractLsb' 0 32
  | .decSymcntHi => s.decSymcnt.extractLsb' 32 32
  | .reserved => 0

/-- R49: the pop of OUTQ; RD_EMPTY when there is nothing to pop. -/
def popOutq (s : State) : State :=
  match s.outq with
  | _ :: q => { s with outq := q }
  | [] => { s with flags := withRdEmpty s.flags }

/-- The side effect of a read: only OUT_DATA has one (R48, R55). -/
def afterRead (r : Reg) (s : State) : State := if r = .outData then popOutq s else s

/-! ## Writes (R50) -/

/-- The two words that are not dropped while FAULT = 1 (R69): NOP's and CLEAR's. -/
def runsInFault (v : Word) : Bool := v == 0x00000000 || v == 0x01000000

/-- R69: the command word and all eight arguments are copied to the latch, and BUSY is set. -/
def latchCommand (v : Word) (s : State) : State :=
  { s with lCmd := v, lArg := s.arg, busy := true }

/-- R69: a write to CMD issues the word, or drops it and sets CMD_DROPPED. -/
def issue (v : Word) (s : State) : State :=
  if s.busy then { s with flags := withCmdDropped s.flags }
  else if s.fault && !runsInFault v then { s with flags := withCmdDropped s.flags }
  else latchCommand v s

/-- R50: the effect of an admitted write, by register. Every register not named ignores it (R47). -/
def writeReg (r : Reg) (v : Word) (s : State) : State :=
  match r with
  | .cmd => issue v s
  | .ctrl => if v.getLsbD 0 then resetState s else s
  | .flags => { s with flags := clearWritten s.flags v }
  | .ie => { s with ie := v.extractLsb' 0 4 }
  | .arg i => { s with arg := s.arg.set i.val v }
  | .id | .version | .status | .error | .res _ | .outData | .outLevel | .histTotal
  | .histDistinct | .nodeCount | .leafCount | .root | .codeMaxLen | .costLo | .costHi
  | .encBitcntLo | .encBitcntHi | .encPending | .decRemainLo | .decRemainHi | .decNode
  | .decSymcntLo | .decSymcntHi | .reserved => s

/-! ## The port (R46, R120) -/

/-- R46: the only admitted access is 32 bits wide at an offset that is a multiple of 4. -/
def admitted (off : Byte) (bytes : Nat) : Bool := bytes == 4 && off.toNat % 4 == 0

/-- One bus access. An access that is not admitted, and any access while `rst_n` is asserted (R120), gets
an error response and changes nothing, a read with data 0 (R46). -/
def busAccess (a : Access) (s : State) : State :=
  match a with
  | .read off bytes =>
    if admitted off bytes && !s.rstAsserted then
      { afterRead (Reg.atOffset off) s with
        resp := some ⟨true, some (regValue (Reg.atOffset off) s)⟩ }
    else { s with resp := some ⟨false, some 0⟩ }
  | .write off bytes v =>
    if admitted off bytes && !s.rstAsserted then
      { writeReg (Reg.atOffset off) v s with resp := some ⟨true, none⟩ }
    else { s with resp := some ⟨false, none⟩ }

/-- The port's offset for a platform address: the platform places the window's 256 bytes at HCC_BASE (R8,
R44); an address outside them does not reach HCC. -/
def windowOffset (addr : Nat) : Option Byte :=
  if Config.hccBase ≤ addr ∧ addr < Config.hccBase + 256 then
    some (BitVec.ofNat 8 (addr - Config.hccBase))
  else none

end Sys2Proof.Machine
end

