-- ==== Sys2Proof/Machine/Codegen.lean ====
section
/-! DEFINITION. Code-table generator commands (43_codegen.md). -/

namespace Sys2Proof.Machine

/-- The walk of R91 from node i with path p: the non-synthetic leaves below i, each with its path, left
before right. `fuel` bounds the depth; a walk deeper than the node memory is large runs in a cycle and does
not end: `none` (log 10). -/
def leafPaths (n : NodeMem) : (fuel : Nat) → Index → List Bool → Option (List (NodeEntry × List Bool))
  | 0, _, _ => none
  | fuel + 1, i, p =>
    let e := nodeAt n i
    if e.leaf then some (if e.synth then [] else [(e, p)])
    else
      let l := if e.left = Config.nil then some [] else leafPaths n fuel e.left (p ++ [false])
      let r := if e.right = Config.nil then some [] else leafPaths n fuel e.right (p ++ [true])
      match l, r with
      | some l, some r => some (l ++ r)
      | _, _ => none

/-- C of R91: every entry invalid but C[e.SYM] = (VALID 1, LEN |p|, BITS p) for each leaf. -/
def codeTable (lv : List (NodeEntry × List Bool)) : CodeMem :=
  lv.foldl (fun c x => c.set x.1.sym.toNat ⟨true, x.2⟩) (Vector.replicate 256 CodeEntry.invalid)

/-- maxlen of R91. -/
def maxLength (lv : List (NodeEntry × List Bool)) : Nat :=
  lv.foldl (fun m x => max m x.2.length) 0

/-- cost of R91: the exact sum of FREQ * |p|. -/
def weightedCost (lv : List (NodeEntry × List Bool)) : Nat :=
  lv.foldl (fun c x => c + x.1.freq.toNat * x.2.length) 0

/-- GEN_CODES's outcome (R91). -/
def genCodes (s : State) : Result :=
  if s.nodeCount = 0 then .fault .sequence
  else
    match leafPaths s.node (Config.nodeCap + 1) s.root [] with
    | none => .unending
    | some lv =>
      .ok { s with
        code := codeTable lv
        codeMaxLen := BitVec.ofNat 8 (maxLength lv)
        cost := BitVec.ofNat 64 (weightedCost lv) } []

/-- GEN_CODES (R91). -/
def execGenCodes (s : State) : Host.Outcome State Fault Refusal := complete (genCodes s) s

/-- r0 of R93: VALID in bit 31, LEN in bits 7:0. -/
def CodeEntry.headWord (e : CodeEntry) : Word := BitVec.ofBool e.valid ++ 0#23 ++ e.len

/-- RES[0..8] of RD_CODE (R93): r0 and the eight code words of R53. -/
def codeResults (e : CodeEntry) : Vector Word 9 :=
  #v[e.headWord, codeWord e.bits 0, codeWord e.bits 1, codeWord e.bits 2, codeWord e.bits 3,
    codeWord e.bits 4, codeWord e.bits 5, codeWord e.bits 6, codeWord e.bits 7]

/-- RD_CODE b (R93). -/
def execRdCode (b : Byte) (s : State) : Host.Outcome State Fault Refusal :=
  complete (.ok { s with res := codeResults s.code[b.toNat] } []) s

end Sys2Proof.Machine
end

