-- ==== Sys2Proof/Machine/Control.lean ====
section
/-! DEFINITION. Control commands: NOP and CLEAR (40_control.md). -/

namespace Sys2Proof.Machine

/-- NOP (R76): `return Ok(S, [])`. -/
def execNop (s : State) : Host.Outcome State Fault Refusal := complete (.ok s []) s

/-- CLEAR (R77): all engine state returns to its reset value, the fault state is left, OUTQ is emptied. -/
def execClear (s : State) : Host.Outcome State Fault Refusal := complete (.ok (leaveFault s) []) s

end Sys2Proof.Machine
end

