-- ==== Sys2Proof/Machine/Decoder.lean ====
section
/-! DEFINITION. Bitstream decoder commands (45_decoder.md). -/

namespace Sys2Proof.Machine

/-- DEC_START's outcome (R98). -/
def startDecoder (s : State) : Result :=
  let len := lengthOperand s
  if len ≠ 0 ∧ s.nodeCount = 0 then .fault .sequence
  else .ok { s with
    decRemain := len, decNode := s.root, decSymcnt := 0
    decActive := true, decDone := (len == 0) } []

/-- DEC_START (R98). -/
def execDecStart (s : State) : Host.Outcome State Fault Refusal := complete (startDecoder s) s

/-- The bit loop of R99: one edge a bit; a real leaf emits its symbol and restarts at the root. `none` is
CORRUPT_CODE: a NIL edge, or the synthetic leaf. -/
def walkBits (n : NodeMem) (root : Index) : List Bool → Index → List Byte → Option (Index × List Byte)
  | [], cur, out => some (cur, out)
  | b :: bs, cur, out =>
    let c := (nodeAt n cur).child b
    if c = Config.nil then none
    else
      let e := nodeAt n c
      if e.leaf then
        if e.synth then none else walkBits n root bs root (out ++ [e.sym])
      else walkBits n root bs c out

/-- DEC_BYTE's outcome (R99), its checks in the rule's order. Bits at or beyond k are never read. -/
def decodeByte (b : Byte) (s : State) : Result :=
  if s.decActive then
    if s.decRemain = 0 then .fault .extraPayload
    else
      let k := min 8 s.decRemain.toNat
      match walkBits s.node s.root ((bitsOf b).take k) s.decNode [] with
      | none => .fault .corruptCode
      | some (cur, out) =>
        let rem : Long := s.decRemain - BitVec.ofNat 64 k
        if rem = 0 ∧ cur ≠ s.root then .fault .underflow
        else .ok { s with
          decNode := cur, decRemain := rem
          decSymcnt := s.decSymcnt + BitVec.ofNat 64 out.length
          decDone := (rem == 0) } out
  else .fault .sequence

/-- DEC_BYTE b (R99). -/
def execDecByte (b : Byte) (s : State) : Host.Outcome State Fault Refusal :=
  complete (decodeByte b s) s

/-- DEC_END's outcome (R100). -/
def endDecoder (s : State) : Result :=
  if s.decActive then
    if s.decRemain = 0 then .ok { s with decActive := false } [] else .fault .truncated
  else .fault .sequence

/-- DEC_END (R100). -/
def execDecEnd (s : State) : Host.Outcome State Fault Refusal := complete (endDecoder s) s

end Sys2Proof.Machine
end

