-- ==== Sys2Proof/Machine/Encoder.lean ====
section
/-! DEFINITION. Bitstream encoder commands (44_encoder.md). -/

namespace Sys2Proof.Machine

/-- ENC_START (R94): a new payload; pending bits are discarded. -/
def execEncStart (s : State) : Host.Outcome State Fault Refusal :=
  complete (.ok { s with encAcc := 0, encNpend := 0, encBitcnt := 0 } []) s

/-- ENC_BYTE's outcome (R95): T = P ++ BITS, its whole bytes are pushed, the rest stays pending. -/
def encodeByte (b : Byte) (s : State) : Result :=
  let e := s.code[b.toNat]
  if e.valid then
    let t := pendingBits s ++ e.bits
    .ok (setPending (leftover t)
      { s with encBitcnt := s.encBitcnt + BitVec.ofNat 64 e.bits.length }) (wholeBytes t)
  else .fault .alphabetMismatch

/-- ENC_BYTE b (R95). -/
def execEncByte (b : Byte) (s : State) : Host.Outcome State Fault Refusal :=
  complete (encodeByte b s) s

/-- ENC_FLUSH's outcome (R96): the pending bits padded with zeros to one byte, nothing when none are
pending. ENC_BITCNT stays: pad bits are no payload bits. -/
def flushEncoder (s : State) : Result :=
  if s.encNpend = 0 then .ok s []
  else
    let p := pendingBits s
    .ok { s with encAcc := 0, encNpend := 0 } [byteOf (p ++ List.replicate (8 - p.length) false)]

/-- ENC_FLUSH (R96). -/
def execEncFlush (s : State) : Host.Outcome State Fault Refusal := complete (flushEncoder s) s

end Sys2Proof.Machine
end

