-- ==== Sys2Proof/Machine/Histogram.lean ====
section
/-! DEFINITION. Frequency histogram commands (41_histogram.md). -/

namespace Sys2Proof.Machine

/-- FREQ[b]. -/
def freqAt (s : State) (b : Byte) : Word := s.freq[b.toNat]

/-- FREQ[b] <- FREQ[b] + n; HIST_TOTAL <- HIST_TOTAL + n, or COUNT_OVERFLOW when the exact sum exceeds
2^32 - 1 (R80, R81). -/
def addCount (b : Byte) (n : Word) (s : State) : Result :=
  if s.histTotal.toNat + n.toNat > 2 ^ 32 - 1 then .fault .countOverflow
  else .ok { s with
    freq := s.freq.set b.toNat (freqAt s b + n), histTotal := s.histTotal + n } []

/-- HIST_CLEAR (R79). -/
def execHistClear (s : State) : Host.Outcome State Fault Refusal :=
  complete (.ok { s with freq := Vector.replicate 256 0, histTotal := 0 } []) s

/-- HIST_BYTE b (R80): one occurrence of b. -/
def execHistByte (b : Byte) (s : State) : Host.Outcome State Fault Refusal :=
  complete (addCount b 1 s) s

/-- HIST_ACC b (R81): the count L_ARG0 of b. -/
def execHistAcc (b : Byte) (s : State) : Host.Outcome State Fault Refusal :=
  complete (addCount b (countOperand s) s) s

/-- RD_FREQ b (R82): RES[0] <- FREQ[b], the other results 0. -/
def execRdFreq (b : Byte) (s : State) : Host.Outcome State Fault Refusal :=
  complete (.ok (setResults (freqAt s b) 0 0 s) []) s

end Sys2Proof.Machine
end

