-- ==== Sys2Proof/Machine/Tree.lean ====
section
/-! DEFINITION. Tree builder commands (42_tree.md). -/

namespace Sys2Proof.Machine

/-! ## The priority queue of BUILD_TREE (R84) -/

/-- key(i) = (N[i].FREQ, i). -/
structure Key where
  freq : Nat
  idx : Nat
  deriving DecidableEq, Repr

/-- Keys are compared lexicographically: a lower FREQ wins, at equal FREQ the lower index (R84). -/
def Key.less (a b : Key) : Bool := a.freq < b.freq || (a.freq == b.freq && a.idx < b.idx)

/-- The smaller of two keys. -/
def Key.smaller (a b : Key) : Key := if b.less a then b else a

/-- extractMin(Q): the smallest key and the queue without it; `none` of an empty queue (R84). -/
def extractMin : List Key → Option (Key × List Key)
  | [] => none
  | k :: q =>
    let m := q.foldl Key.smaller k
    some (m, (k :: q).erase m)

/-! ## BUILD_TREE (R85) -/

/-- The leaves of the present symbols, in ascending symbol order. -/
def histogramLeaves (s : State) : List NodeEntry :=
  s.freq.toList.zipIdx.filterMap (fun p =>
    if p.1 = 0 then none else some (leafNode (BitVec.ofNat 8 p.2) p.1))

/-- The leaves, with the synthetic leaf for a single-symbol alphabet. -/
def startNodes (lv : List NodeEntry) : List NodeEntry :=
  if lv.length = 1 then lv ++ [synthNode] else lv

/-- Q = {0, ..., n-1}, each index with its key. -/
def startQueue (n : List NodeEntry) : List Key :=
  n.zipIdx.map (fun p => ⟨p.1.freq.toNat, p.2⟩)

/-- The merge loop of R85: the first extracted is the left child, the second the right one. `rounds`
bounds the loop; each round takes one key off the queue. -/
def mergeLoop : (rounds : Nat) → List NodeEntry → List Key → List NodeEntry
  | 0, n, _ => n
  | rounds + 1, n, q =>
    match extractMin q with
    | none => n
    | some (x, q1) =>
      match extractMin q1 with
      | none => n
      | some (y, q2) =>
        let f : Word := BitVec.ofNat 32 x.freq + BitVec.ofNat 32 y.freq
        mergeLoop rounds
          (n ++ [internalNode f (BitVec.ofNat 9 x.idx) (BitVec.ofNat 9 y.idx)])
          (q2 ++ [⟨f.toNat, n.length⟩])

/-- The nodes of the Huffman tree over the given leaves, in index order. -/
def huffmanNodes (lv : List NodeEntry) : List NodeEntry :=
  let n := startNodes lv
  mergeLoop (n.length - 1) n (startQueue n)

/-- BUILD_TREE's outcome (R85). -/
def buildTree (s : State) : Result :=
  let lv := histogramLeaves s
  if lv.isEmpty then .ok (clearTree s) []
  else
    let n := huffmanNodes lv
    let r : Index := BitVec.ofNat 9 (n.length - 1)
    .ok (clearDecoder r (clearCodes
      { s with
        node := writeNodes s.node n
        nodeCount := BitVec.ofNat 9 n.length
        leafCount := BitVec.ofNat 9 (startNodes lv).length
        root := r
        treeSrc := .built })) []

/-- BUILD_TREE (R85). -/
def execBuildTree (s : State) : Host.Outcome State Fault Refusal := complete (buildTree s) s

/-! ## TREE_CLEAR (R88) -/

/-- TREE_CLEAR (R88): the tree and the code table are discarded, the histogram and the encoder kept. -/
def execTreeClear (s : State) : Host.Outcome State Fault Refusal := complete (.ok (clearTree s) []) s

/-! ## INSERT_CODE (R89) -/

/-- Where the descent of R89 along the code ends. -/
inductive Descent where
  /-- The new code conflicts with a code already loaded. -/
  | conflict
  /-- At node `cur`, with the bits of the code that have no edge yet. -/
  | stop (cur : Index) (rest : List Bool)
  deriving DecidableEq, Repr

/-- R89's first loop and the check after it: follow existing edges while more than the last bit is left.
A leaf on the way is an existing code that begins the new one; an edge on the last bit means the new code
equals or begins an existing one. -/
def descend (n : NodeMem) : Index → List Bool → Descent
  | cur, [] => .stop cur []
  | cur, [b] => if (nodeAt n cur).child b = Config.nil then .stop cur [b] else .conflict
  | cur, b :: b' :: q =>
    let c := (nodeAt n cur).child b
    if c = Config.nil then .stop cur (b :: b' :: q)
    else if (nodeAt n c).leaf then .conflict
    else descend n c (b' :: q)

/-- R89's second loop and the leaf: allocate at cnt, cnt+1, ... the missing internal nodes along the bits,
then the leaf on the last bit. Gives the memory and the new count. -/
def graft (sym : Byte) : NodeMem → (cnt : Nat) → (cur : Index) → List Bool → NodeMem × Nat
  | n, cnt, _, [] => (n, cnt)
  | n, cnt, cur, [b] =>
    (setChild (setNode n cnt (leafNode sym 0)) cur b (BitVec.ofNat 9 cnt), cnt + 1)
  | n, cnt, cur, b :: b' :: q =>
    graft sym
      (setChild (setNode n cnt (internalNode 0 Config.nil Config.nil)) cur b (BitVec.ofNat 9 cnt))
      (cnt + 1) (BitVec.ofNat 9 cnt) (b' :: q)

/-- The state after a code of symbol `sym` is in the tree (R89): the last assignment of its pseudocode. -/
def withLoadedCode (sym : Byte) (q : List Bool) (n : NodeMem) (cnt : Nat) (s : State) : State :=
  clearDecoder 0
    { s with
      node := n
      nodeCount := BitVec.ofNat 9 cnt
      leafCount := s.leafCount + 1
      root := 0
      treeSrc := .loaded
      code := s.code.set sym.toNat ⟨true, q⟩
      codeMaxLen := BitVec.ofNat 8 (max s.codeMaxLen.toNat q.length)
      cost := 0 }

/-- INSERT_CODE's outcome (R89), its checks in the rule's order. -/
def insertCode (sym len : Byte) (s : State) : Result :=
  let q := codeOperand len s
  let cnt := s.nodeCount.toNat
  if cnt ≠ 0 ∧ s.treeSrc = .built then .fault .sequence
  else if len = 0 then .fault .badCode
  else if s.code[sym.toNat].valid then .fault .badCode
  else if cnt = 0 then
    if cnt + (len.toNat + 1) > Config.nodeCap then .fault .nodeCapacity
    else
      let n := setNode s.node 0 (internalNode 0 Config.nil Config.nil)
      let r := graft sym n 1 0 q
      .ok (withLoadedCode sym q r.1 r.2 s) []
  else
    match descend s.node s.root q with
    | .conflict => .fault .badCode
    | .stop cur rest =>
      if cnt + rest.length > Config.nodeCap then .fault .nodeCapacity
      else
        let r := graft sym s.node cnt cur rest
        .ok (withLoadedCode sym q r.1 r.2 s) []

/-- INSERT_CODE sym, len (R89). -/
def execInsertCode (sym len : Byte) (s : State) : Host.Outcome State Fault Refusal :=
  complete (insertCode sym len s) s

/-! ## RD_NODE (R90) -/

/-- r0 of R90: bit 31 VALID, bit 30 LEAF, bit 29 SYNTH, bits 7:0 SYM. -/
def NodeEntry.headWord (e : NodeEntry) : Word :=
  1#1 ++ BitVec.ofBool e.leaf ++ BitVec.ofBool e.synth ++ 0#21 ++ e.sym

/-- r2 of R90: RIGHT in bits 24:16, LEFT in bits 8:0. -/
def NodeEntry.linkWord (e : NodeEntry) : Word := 0#7 ++ e.right ++ 0#7 ++ e.left

/-- RD_NODE's outcome (R90): an index at or beyond NODE_COUNT reads zeros. -/
def readNode (idx : Index) (s : State) : Result :=
  if idx.toNat < s.nodeCount.toNat then
    let e := nodeAt s.node idx
    .ok (setResults e.headWord e.freq e.linkWord s) []
  else .ok (setResults 0 0 0 s) []

/-- RD_NODE idx (R90). -/
def execRdNode (idx : Index) (s : State) : Host.Outcome State Fault Refusal :=
  complete (readNode idx s) s

end Sys2Proof.Machine
end

