-- ==== Sys2Proof/Machine/Dispatch.lean ====
section
/-! DEFINITION. exec: the completion step of a decoded command (R70), one arm per row of the opcode map. -/

namespace Sys2Proof.Machine

def exec (i : Instr) (s : State) : Host.Outcome State Fault Refusal :=
  match i with
  | .nop => Sys2Proof.Machine.execNop s
  | .clear => Sys2Proof.Machine.execClear s
  | .histClear => Sys2Proof.Machine.execHistClear s
  | .histByte b => Sys2Proof.Machine.execHistByte b s
  | .histAcc b => Sys2Proof.Machine.execHistAcc b s
  | .rdFreq b => Sys2Proof.Machine.execRdFreq b s
  | .buildTree => Sys2Proof.Machine.execBuildTree s
  | .treeClear => Sys2Proof.Machine.execTreeClear s
  | .insertCode sym len => Sys2Proof.Machine.execInsertCode sym len s
  | .rdNode idx => Sys2Proof.Machine.execRdNode idx s
  | .genCodes => Sys2Proof.Machine.execGenCodes s
  | .rdCode b => Sys2Proof.Machine.execRdCode b s
  | .encStart => Sys2Proof.Machine.execEncStart s
  | .encByte b => Sys2Proof.Machine.execEncByte b s
  | .encFlush => Sys2Proof.Machine.execEncFlush s
  | .decStart => Sys2Proof.Machine.execDecStart s
  | .decByte b => Sys2Proof.Machine.execDecByte b s
  | .decEnd => Sys2Proof.Machine.execDecEnd s

end Sys2Proof.Machine
end

