-- ==== Sys2Proof/Machine/Engine.lean ====
section
/-! DEFINITION. One step of the whole machine: an event of the environment, or the engine's completion
(R15, R57, R70). -/

namespace Sys2Proof.Machine

/-- The engine's step (R70): decode the latched word and complete it; an illegal word completes with
ILLEGAL_CMD (R65). An engine with no command in flight is idle and nothing changes (R119). -/
def engineStep (s : State) : Host.Outcome State Fault Refusal :=
  if s.busy then
    match decode s.lCmd with
    | .instr i => exec i s
    | .illegal _ => complete (.fault .illegalCmd) s
  else .next s

/-- One event of the environment. -/
def eventStep (e : Event) (s : State) : Host.Outcome State Fault Refusal :=
  match e with
  | .access a => .next (busAccess a s)
  | .rstAssert => .next { resetState s with rstAsserted := true }
  | .rstRelease => .next { s with rstAsserted := false }
  | .engine => engineStep s

/-- The oldest pending event happens; when none is pending the engine takes its step (R57, R135, log 1). -/
def machineStep (s : State) : Host.Outcome State Fault Refusal :=
  match s.events with
  | e :: rest => eventStep e { s with events := rest }
  | [] => engineStep s

/-- The state whose next step completes the command word `w`: the word is latched with the arguments as an
issue latches them (R69), and the engine has the next turn (log 2). -/
def withLatchedWord (s : State) (nbits w : Nat) : State :=
  let v : Word := BitVec.ofNat 32 (w % 2 ^ nbits)
  { latchCommand v s with events := .engine :: s.events }

end Sys2Proof.Machine
end

