-- ==== Sys2Proof/Machine/Step.lean ====
section
/-! DEFINITION. The one step function, and how a word comes to be the next command. -/

namespace Sys2Proof.Machine

/-- One step of HCC. -/
def step (s : State) : Host.Outcome State Fault Refusal := machineStep s

/-- HCC fetches nothing (R20): the next command is the word in the latch. See `withLatchedWord`. -/
def State.withFetchWord (s : State) (nbits w : Nat) : State := withLatchedWord s nbits w

end Sys2Proof.Machine
end

