-- ==== Sys2Proof/Safety.lean ====
section
/-! DEFINITION. What holds of every state HCC can reach (R43, with R24, R31, R32, R37, R38, R41, R109), in the
terms the statements use. -/

namespace Sys2Proof.Machine

/-! ## Paths in node memory -/

/-- The node reached from node i by following the edge bits p (R14): `none` where an edge is NIL. -/
def follow (n : NodeMem) : Index → List Bool → Option Index
  | i, [] => some i
  | i, b :: p =>
    let c := (nodeAt n i).child b
    if c = Config.nil then none else follow n c p

/-- Node i is allocated (R31). -/
def Allocated (s : State) (i : Index) : Prop := i.toNat < s.nodeCount.toNat

/-- Node i is a leaf that carries a symbol: a leaf, and not the synthetic one (R37). -/
def RealLeaf (s : State) (i : Index) : Prop :=
  (nodeAt s.node i).leaf = true ∧ (nodeAt s.node i).synth = false

/-- The bits p lead from ROOT to a leaf of symbol b (R14, a code). -/
def CodePath (s : State) (p : List Bool) (b : Byte) : Prop :=
  ∃ i, follow s.node s.root p = some i ∧ RealLeaf s i ∧ (nodeAt s.node i).sym = b

/-- The code of symbol b: CODE[b]. -/
def codeOf (s : State) (b : Byte) : CodeEntry := s.code[b.toNat]

/-! ## The parts of the invariant -/

/-- I1 (R43): HIST_TOTAL = the sum of FREQ, exactly. -/
def HistInv (s : State) : Prop := s.histTotal.toNat = (s.freq.toList.map BitVec.toNat).sum

/-- I7 (R43): OUTQ holds at most 64 bytes. -/
def QueueInv (s : State) : Prop := s.outq.length ≤ Config.outqDepth

/-- R41: ENC_ACC[6:ENC_NPEND] = 0. -/
def EncInv (s : State) : Prop := s.encAcc.toNat < 2 ^ s.encNpend.toNat

/-- R24: ERROR is 0 when FAULT = 0, and the code of the fault that set FAULT when FAULT = 1. -/
structure ErrorInv (s : State) : Prop where
  clear : s.fault = false → s.errCode = 0 ∧ s.errOp = 0
  recorded : s.fault = true → ∃ c : FaultCode, s.errCode = c.code

/-- R109 and R120: with FAULT = 1 only NOP or CLEAR can be in flight; while `rst_n` is asserted nothing is. -/
structure LatchInv (s : State) : Prop where
  fault_latch : s.fault = true → s.busy = true → runsInFault s.lCmd = true
  reset_idle : s.rstAsserted = true → s.busy = false

/-- I2 to I4 (R43), R31 and R37: the shape of the tree in node memory. -/
structure TreeInv (s : State) : Prop where
  /-- I2: NODE_COUNT = 0 if and only if ROOT = NIL. -/
  empty_iff : s.nodeCount = 0 ↔ s.root = Config.nil
  /-- With no tree, TREE_SRC is BUILT (R77, R85, R88). -/
  empty_src : s.nodeCount = 0 → s.treeSrc = .built
  /-- I2: the root is an allocated internal node. -/
  root_allocated : s.nodeCount ≠ 0 → Allocated s s.root
  root_internal : s.nodeCount ≠ 0 → (nodeAt s.node s.root).leaf = false
  /-- R37: a leaf has LEFT = RIGHT = NIL. -/
  leaf_links : ∀ i, Allocated s i → (nodeAt s.node i).leaf = true →
    (nodeAt s.node i).left = Config.nil ∧ (nodeAt s.node i).right = Config.nil
  /-- I2: a child link is NIL or allocated; a child's index is less than its parent's in a built tree and
  greater in a loaded one. -/
  links : ∀ i b, Allocated s i → (nodeAt s.node i).child b ≠ Config.nil →
    Allocated s ((nodeAt s.node i).child b) ∧
    (s.treeSrc = .built → ((nodeAt s.node i).child b).toNat < i.toNat) ∧
    (s.treeSrc = .loaded → i.toNat < ((nodeAt s.node i).child b).toNat)
  /-- R85, R89: an internal node has a child (a built one has two, below). -/
  internal_child : ∀ i, Allocated s i → (nodeAt s.node i).leaf = false →
    ∃ b, (nodeAt s.node i).child b ≠ Config.nil
  /-- R37: SYM is 0 in an internal node; SYNTH marks a leaf of FREQ 0 and SYM 0 in a built tree only;
  every node of a loaded tree has FREQ 0. R85: the synthetic leaf is node 1. -/
  internal_fields : ∀ i, Allocated s i → (nodeAt s.node i).leaf = false →
    (nodeAt s.node i).synth = false ∧ (nodeAt s.node i).sym = 0
  synth_fields : ∀ i, Allocated s i → (nodeAt s.node i).synth = true →
    (nodeAt s.node i).sym = 0 ∧ (nodeAt s.node i).freq = 0 ∧ s.treeSrc = .built ∧ i = 1
  loaded_freq : s.treeSrc = .loaded → ∀ i, Allocated s i → (nodeAt s.node i).freq = 0
  /-- I4, and R85 for a built tree: every real leaf has a symbol of its own. -/
  leaf_syms : ∀ i j, Allocated s i → Allocated s j → RealLeaf s i → RealLeaf s j →
    (nodeAt s.node i).sym = (nodeAt s.node j).sym → i = j
  /-- R31: LEAF_COUNT is the number of allocated leaves. -/
  leafCount_eq : s.leafCount.toNat =
    (List.range s.nodeCount.toNat).countP (fun i => (nodeAt s.node (BitVec.ofNat 9 i)).leaf)
  /-- I3. -/
  built_count : s.treeSrc = .built → s.nodeCount ≠ 0 →
    2 ≤ s.leafCount.toNat ∧ s.nodeCount.toNat + 1 = 2 * s.leafCount.toNat ∧
    s.root.toNat + 1 = s.nodeCount.toNat
  built_internal : s.treeSrc = .built → ∀ i, Allocated s i → (nodeAt s.node i).leaf = false →
    (nodeAt s.node i).left ≠ Config.nil ∧ (nodeAt s.node i).right ≠ Config.nil ∧
    (nodeAt s.node i).freq.toNat =
      (nodeAt s.node (nodeAt s.node i).left).freq.toNat +
        (nodeAt s.node (nodeAt s.node i).right).freq.toNat
  /-- I4: ROOT = 0 for a loaded tree. -/
  loaded_root : s.treeSrc = .loaded → s.root = 0

/-- R86 (f) and R9: every allocated node is reached from ROOT by exactly one path, of at most
MAX_CODE_LEN bits. -/
structure PathInv (s : State) : Prop where
  reached : ∀ i, Allocated s i → ∃ p, follow s.node s.root p = some i
  unique : s.nodeCount ≠ 0 → ∀ p q i,
    follow s.node s.root p = some i → follow s.node s.root q = some i → p = q
  depth : s.nodeCount ≠ 0 → ∀ p i, follow s.node s.root p = some i → p.length ≤ Config.maxCodeLen

/-- I5 (R43), R32 and R38: the code table. -/
structure CodeInv (s : State) : Prop where
  /-- R38: an invalid entry has LEN = 0 and no BITS. -/
  invalid_empty : ∀ b, (codeOf s b).valid = false → (codeOf s b).bits = []
  /-- I5: a valid entry is the path from ROOT to the leaf of its symbol. -/
  valid_path : ∀ b, (codeOf s b).valid = true → s.nodeCount ≠ 0 ∧ CodePath s (codeOf s b).bits b
  /-- I5: in a loaded tree, and in a built one once GEN_CODES has run, every real leaf has a valid entry. -/
  all_valid : s.treeSrc = .loaded ∨ codesValid s = true → ∀ i, Allocated s i → RealLeaf s i →
    (codeOf s (nodeAt s.node i).sym).valid = true
  /-- R32: CODE_MAXLEN is the largest LEN of a valid entry, or 0. -/
  maxLen_bound : ∀ b, (codeOf s b).valid = true → (codeOf s b).bits.length ≤ s.codeMaxLen.toNat
  maxLen_attained : s.codeMaxLen ≠ 0 →
    ∃ b, (codeOf s b).valid = true ∧ (codeOf s b).bits.length = s.codeMaxLen.toNat

/-- I6 and I8 (R43), and R100: DEC_REMAIN = 0 in a decode means the walker is at ROOT. -/
structure DecInv (s : State) : Prop where
  done : s.decDone = true → s.decRemain = 0
  no_tree : s.nodeCount = 0 → s.decNode = Config.nil ∧ (s.decActive = true → s.decRemain = 0)
  at_boundary : s.decActive = true → s.decRemain = 0 → s.decNode = s.root
  walker : s.decActive = true → s.nodeCount ≠ 0 →
    (nodeAt s.node s.decNode).leaf = false ∧ ∃ p, follow s.node s.root p = some s.decNode

/-- The invariant of HCC: every reachable state satisfies R43 and the rules named above. -/
structure Inv (s : State) : Prop where
  hist : HistInv s
  queue : QueueInv s
  enc : EncInv s
  error : ErrorInv s
  latch : LatchInv s
  tree : TreeInv s
  path : PathInv s
  code : CodeInv s
  dec : DecInv s

/-- A state is safe when the next step goes on (no fault and no refusal of the model) to a state that
satisfies the invariant again. -/
def Safe (s : State) : Prop := ∃ t, step s = .next t ∧ Inv t

/-! ## Runs of commands -/

/-- The completions of a list of commands, one after the other. -/
def execAll : List Instr → State → Host.Outcome State Fault Refusal
  | [], s => .next s
  | i :: is, s =>
    match exec i s with
    | .next t => execAll is t
    | .fault r => .fault r
    | .refused r => .refused r

/-- A host that drains OUTQ before each command and collects what each pushes (R68, `DRAIN`): the state after
the last command and all bytes pushed, in order. -/
def runDrained : List Instr → State → Option (State × List Byte)
  | [], s => some (s, [])
  | i :: is, s =>
    match exec i { s with outq := [] } with
    | .next t => (runDrained is t).map (fun r => (r.1, t.outq ++ r.2))
    | _ => none

/-! ## What a completion changes and keeps -/

/-- Every completion, success or fault, writes BUSY and CMD_DONE (R71, R72). No completion writes the other
flags, ARG, IE, the latch, the port, the reset level or the model's own fields (R18, R25, R26). -/
structure Completed (s t : State) : Prop where
  busy : t.busy = false
  cmdDone : t.flags.getLsbD 0 = true
  cmdDropped : t.flags.getLsbD 1 = s.flags.getLsbD 1
  rdEmpty : t.flags.getLsbD 2 = s.flags.getLsbD 2
  arg : t.arg = s.arg
  ie : t.ie = s.ie
  lCmd : t.lCmd = s.lCmd
  lArg : t.lArg = s.lArg
  rstAsserted : t.rstAsserted = s.rstAsserted
  resp : t.resp = s.resp
  events : t.events = s.events
  draws : t.draws = s.draws

/-- The fault registers are as before. -/
structure KeepsFault (s t : State) : Prop where
  fault : t.fault = s.fault
  errCode : t.errCode = s.errCode
  errOp : t.errOp = s.errOp

/-- FREQ and HIST_TOTAL are as before. -/
structure KeepsHistogram (s t : State) : Prop where
  freq : t.freq = s.freq
  histTotal : t.histTotal = s.histTotal

/-- Every node entry and the tree's registers are as before. -/
structure KeepsTree (s t : State) : Prop where
  node : t.node = s.node
  nodeCount : t.nodeCount = s.nodeCount
  leafCount : t.leafCount = s.leafCount
  root : t.root = s.root
  treeSrc : t.treeSrc = s.treeSrc

/-- The code table, CODE_MAXLEN and COST are as before. -/
structure KeepsCodes (s t : State) : Prop where
  code : t.code = s.code
  codeMaxLen : t.codeMaxLen = s.codeMaxLen
  cost : t.cost = s.cost

/-- The encoder's state is as before. -/
structure KeepsEncoder (s t : State) : Prop where
  encAcc : t.encAcc = s.encAcc
  encNpend : t.encNpend = s.encNpend
  encBitcnt : t.encBitcnt = s.encBitcnt

/-- The decoder's state is as before. -/
structure KeepsDecoder (s t : State) : Prop where
  decRemain : t.decRemain = s.decRemain
  decNode : t.decNode = s.decNode
  decActive : t.decActive = s.decActive
  decDone : t.decDone = s.decDone
  decSymcnt : t.decSymcnt = s.decSymcnt

/-- All engine state but the fault registers is as before: nothing pushed, nothing computed. -/
structure KeepsEngine (s t : State) : Prop where
  histogram : KeepsHistogram s t
  tree : KeepsTree s t
  codes : KeepsCodes s t
  encoder : KeepsEncoder s t
  decoder : KeepsDecoder s t
  res : t.res = s.res
  outq : t.outq = s.outq

/-- All engine state, the fault registers among it, is as before. -/
structure SameEngine (s t : State) : Prop where
  fault : KeepsFault s t
  engine : KeepsEngine s t

/-- The state after a command fault of code c (R72): FAULT, ERR_CODE, ERR_OP = L_CMD[31:24], BUSY and CMD_DONE
are written, and nothing else. -/
structure Faulted (c : FaultCode) (s t : State) : Prop where
  fault : t.fault = true
  errCode : t.errCode = c.code
  errOp : t.errOp = s.lCmd.extractLsb' 24 8
  completed : Completed s t
  engine : KeepsEngine s t

/-- ClearCodes() of R83. -/
structure CodesCleared (t : State) : Prop where
  code : ∀ b, codeOf t b = ⟨false, []⟩
  codeMaxLen : t.codeMaxLen = 0
  cost : t.cost = 0

/-- ClearDecoder(r) of R83. -/
structure DecoderCleared (r : Index) (t : State) : Prop where
  decActive : t.decActive = false
  decDone : t.decDone = false
  decRemain : t.decRemain = 0
  decSymcnt : t.decSymcnt = 0
  decNode : t.decNode = r

/-- No tree (R85 with an empty histogram, R88). -/
structure TreeCleared (t : State) : Prop where
  nodeCount : t.nodeCount = 0
  leafCount : t.leafCount = 0
  root : t.root = Config.nil
  treeSrc : t.treeSrc = .built
  codes : CodesCleared t
  decoder : DecoderCleared Config.nil t

/-! ## Keys, codes and walks -/

/-- key(a) is less than key(b) (R84): a lower FREQ, or the same FREQ and a lower index. -/
def KeyBelow (n : NodeMem) (a b : Index) : Prop :=
  (nodeAt n a).freq.toNat < (nodeAt n b).freq.toNat ∨
    ((nodeAt n a).freq = (nodeAt n b).freq ∧ a.toNat < b.toNat)

/-- Two bit sequences of which one begins the other (R14, R92): they cannot both be codes. -/
def Conflict (p q : List Bool) : Prop := p <+: q ∨ q <+: p

/-- How many leading bits of q have edges below node i (R89's d, where it stops before the last bit). -/
def edgesAlong (n : NodeMem) : Index → List Bool → Nat
  | _, [] => 0
  | i, b :: q =>
    if (nodeAt n i).child b = Config.nil then 0 else edgesAlong n ((nodeAt n i).child b) q + 1

/-- The nodes an insertion of the code q needs (R89): a root on an empty tree, and one node for each bit that
has no edge yet. -/
def nodesNeeded (s : State) (q : List Bool) : Nat :=
  if s.nodeCount = 0 then q.length + 1 else q.length - edgesAlong s.node s.root q

/-- The walk of the decoder over payload bits (R99): an edge to an internal node goes on from it, an edge to a
real leaf emits its symbol and goes on from the root; no walk takes a NIL edge or reaches the synthetic leaf. -/
inductive Walk (n : NodeMem) (root : Index) : Index → List Bool → Index → List Byte → Prop where
  | stop (cur : Index) : Walk n root cur [] cur []
  | inner (cur : Index) (b : Bool) (bs : List Bool) (last : Index) (out : List Byte) :
    (nodeAt n cur).child b ≠ Config.nil → (nodeAt n ((nodeAt n cur).child b)).leaf = false →
    Walk n root ((nodeAt n cur).child b) bs last out → Walk n root cur (b :: bs) last out
  | symbol (cur : Index) (b : Bool) (bs : List Bool) (last : Index) (out : List Byte) :
    (nodeAt n cur).child b ≠ Config.nil → (nodeAt n ((nodeAt n cur).child b)).leaf = true →
    (nodeAt n ((nodeAt n cur).child b)).synth = false → Walk n root root bs last out →
    Walk n root cur (b :: bs) last ((nodeAt n ((nodeAt n cur).child b)).sym :: out)

/-- The bits of byte b that are payload: the first min(8, DEC_REMAIN) of bitsOf(b) (R99). -/
def payloadBits (b : Byte) (s : State) : List Bool := (bitsOf b).take (min 8 s.decRemain.toNat)

/-- DEC_REMAIN after a byte (R99). -/
def remainAfter (s : State) : Long := s.decRemain - BitVec.ofNat 64 (min 8 s.decRemain.toNat)

/-! ## Which faults a command can raise (R104) -/

/-- The table of R104. -/
def faultsOf : Instr → List FaultCode
  | .histByte _ | .histAcc _ => [.countOverflow]
  | .insertCode _ _ => [.sequence, .badCode, .nodeCapacity]
  | .genCodes => [.sequence]
  | .encByte _ => [.alphabetMismatch]
  | .decStart => [.sequence]
  | .decByte _ => [.sequence, .extraPayload, .corruptCode, .underflow]
  | .decEnd => [.sequence, .truncated]
  | .nop | .clear | .histClear | .rdFreq _ | .buildTree | .treeClear => []
  | .rdNode _ | .rdCode _ | .encStart | .encFlush => []

end Sys2Proof.Machine
end

