-- ==== Sys2Proof/WellFormed.lean ====
section
/-! DEFINITION. Which assembler lines stand for a command (R66).

A term of `Instr` carries operands of exactly the width of their fields (R61), so it cannot be ill
formed. What can be is an assembler line: R66 refuses an operand that does not fit its field, and
`Source.wellFormed` is that check. -/

namespace Sys2Proof

/-- The format column of the opcode map (R63). -/
def Mnemonic.format : Mnemonic → Format
  | .nop | .clear | .histClear | .buildTree | .treeClear | .genCodes => .none
  | .encStart | .encFlush | .decStart | .decEnd => .none
  | .histByte | .histAcc | .rdFreq | .rdCode | .encByte | .decByte => .byte
  | .insertCode => .symLen
  | .rdNode => .index

/-- R66: the operands a format takes and the range of each: a byte at most 0xFF, LEN at most 255,
IDX at most 511. -/
def Format.accepts : Format → List Nat → Bool
  | .none, ops => ops.isEmpty
  | .byte, ops => match ops with
    | [b] => b ≤ 0xFF
    | _ => false
  | .symLen, ops => match ops with
    | [sym, len] => sym ≤ 0xFF && len ≤ 255
    | _ => false
  | .index, ops => match ops with
    | [idx] => idx ≤ 511
    | _ => false

/-- R66: the assembler's check of one line. -/
def Source.wellFormed (l : Source) : Bool :=
  l.mnemonic.format.accepts l.operands

/-- The operands of a command as plain numbers, in the order an assembler line writes them (R66). -/
def Instr.operands : Instr → List Nat
  | .nop | .clear | .histClear | .buildTree | .treeClear | .genCodes => []
  | .encStart | .encFlush | .decStart | .decEnd => []
  | .histByte b | .histAcc b | .rdFreq b | .rdCode b | .encByte b | .decByte b => [b.toNat]
  | .insertCode sym len => [sym.toNat, len.toNat]
  | .rdNode idx => [idx.toNat]

/-- R66: the command an assembler line stands for; `none` where the assembler refuses the line. -/
def Source.assemble (l : Source) : Option Instr :=
  if l.wellFormed then
    let x : Nat := l.operands.getD 0 0
    let y : Nat := l.operands.getD 1 0
    some (match l.mnemonic with
      | .nop => .nop
      | .clear => .clear
      | .histClear => .histClear
      | .histByte => .histByte (BitVec.ofNat 8 x)
      | .histAcc => .histAcc (BitVec.ofNat 8 x)
      | .rdFreq => .rdFreq (BitVec.ofNat 8 x)
      | .buildTree => .buildTree
      | .treeClear => .treeClear
      | .insertCode => .insertCode (BitVec.ofNat 8 x) (BitVec.ofNat 8 y)
      | .rdNode => .rdNode (BitVec.ofNat 9 x)
      | .genCodes => .genCodes
      | .rdCode => .rdCode (BitVec.ofNat 8 x)
      | .encStart => .encStart
      | .encByte => .encByte (BitVec.ofNat 8 x)
      | .encFlush => .encFlush
      | .decStart => .decStart
      | .decByte => .decByte (BitVec.ofNat 8 x)
      | .decEnd => .decEnd)
  else none

end Sys2Proof
end

