-- ==== Sys2Proof/Certificates/Slice0/Obligations.lean ====
section
/-! DEFINITION. The statements for the provers. Each formalises rules of spec/, named in its docstring. The
frame predicates (Completed, Faulted, Keeps…) and the invariant are those of Safety. -/

open Sys2Proof Sys2Proof.Machine

/-! ## Encoding (30_encoding.md) -/

/-- R61 to R64, R66: a word decodes to a command exactly when it is that command's encoding, for every word
and every command with every operand. -/
def Obligations.DecodeAndEncodeAgree : Prop :=
  ∀ (w : Word) (i : Instr), decode w = .instr i ↔ encode i = w

/-- R65: the words no command encodes are illegal; the unassigned opcodes are the listed ranges; any other
illegal word is one whose opcode is in a row and that has a 1 where the row's format has a reserved bit. -/
def Obligations.IllegalWordsAreTheRest : Prop :=
  ∀ w : Word,
    ((∃ why, decode w = .illegal why) ↔ ∀ i, encode i ≠ w) ∧
    (decode w = .illegal .unassignedOpcode ↔
      (0x06 ≤ fieldOp w ∧ fieldOp w ≤ 0x0F) ∨ (0x14 ≤ fieldOp w ∧ fieldOp w ≤ 0x1F) ∨
      (0x22 ≤ fieldOp w ∧ fieldOp w ≤ 0x2F) ∨ (0x33 ≤ fieldOp w ∧ fieldOp w ≤ 0x3F) ∨
      (0x43 ≤ fieldOp w ∧ fieldOp w ≤ 0xFF)) ∧
    (decode w = .illegal .reservedBits ↔
      ∃ r ∈ opcodeMap, fieldOp r.pattern = fieldOp w ∧ w &&& r.mask &&& 0x00FFFFFF ≠ 0)

/-- A few words written out from the spec (R65, R66), and what they decode to. -/
def Obligations.WrittenOutWordsDecode : Prop :=
  decode 0b00000011000000000000000001100001 = .instr (.histByte 0x61) ∧
  decode 0b00010010000000000000110000010000 = .instr (.insertCode 0x10 12) ∧
  decode 0b00010011000000000000000100001000 = .instr (.rdNode 264) ∧
  decode 0b00100000000000000000000000000000 = .instr .genCodes ∧
  decode 0b00110001000000000000000001100010 = .instr (.encByte 0x62) ∧
  decode 0b01000001000000000000000011011100 = .instr (.decByte 0xDC) ∧
  decode 0b00000011000000000000000100000000 = .illegal .reservedBits ∧
  decode 0b00000110000000000000000000000000 = .illegal .unassignedOpcode

/-- R66: the assembler takes exactly the lines whose operands are in number and range those of the mnemonic's
format, and the command it makes has the line's mnemonic and operands, none truncated. -/
def Obligations.AssemblerTakesExactlyFittingLines : Prop :=
  ∀ (l : Source) (i : Instr), l.assemble = some i ↔ l.mnemonic = i.mnemonic ∧ l.operands = i.operands

/-! ## Steps and command issue (R15, R57, R65, R69 to R73) -/

/-- R70: with a command in flight and the engine's turn, a step is the execution of the decoded latched
word. -/
def Obligations.StepRunsTheLatchedCommand : Prop :=
  ∀ (s : State) (rest : List Event) (i : Instr),
    (s.events = .engine :: rest ∨ s.events = [] ∧ rest = []) → s.busy = true → decode s.lCmd = .instr i →
    step s = exec i { s with events := rest }

/-- R65, R70, R72: with an illegal word in flight the engine's step takes the fault ILLEGAL_CMD (0x01) and
changes nothing else. -/
def Obligations.IllegalWordFaults : Prop :=
  ∀ (s : State) (rest : List Event),
    (s.events = .engine :: rest ∨ s.events = [] ∧ rest = []) → s.busy = true →
    (∀ i, encode i ≠ s.lCmd) →
    ∃ t, step s = .next t ∧ t.errCode = 0x01 ∧ Faulted .illegalCmd { s with events := rest } t

/-- R57, R119, R120: the oldest pending event happens first: an access is performed, reset is asserted or
released; while reset is asserted an access gets an error response, a read with data 0; and an engine with nothing
in flight changes nothing, whether its turn is the next event or no event is pending. -/
def Obligations.StepPerformsTheNextEvent : Prop :=
  ∀ (s : State) (rest : List Event),
    (∀ a, s.events = .access a :: rest → step s = .next (busAccess a { s with events := rest })) ∧
    (s.events = .rstAssert :: rest → ∃ t, step s = .next t ∧ t.rstAsserted = true ∧ t.events = rest ∧
      t.busy = false ∧ ∀ (off : Byte) (bytes : Nat),
        busAccess (.read off bytes) t = { t with resp := some ⟨false, some 0⟩ } ∧
        ∀ v, busAccess (.write off bytes v) t = { t with resp := some ⟨false, none⟩ }) ∧
    (s.events = .rstRelease :: rest → step s = .next { s with events := rest, rstAsserted := false }) ∧
    (s.busy = false → s.events = .engine :: rest → step s = .next { s with events := rest }) ∧
    (s.busy = false → s.events = [] → step s = .next s)

/-- The word placed by `withFetchWord` is what the very next step executes, with the ARG registers as its
arguments (R69, R70; the placing itself is the model's, log 2). -/
def Obligations.PlacedWordRunsNext : Prop :=
  ∀ (s : State) (nbits w : Nat) (i : Instr), decodeTableWord nbits w = some i →
    ∃ u, step (s.withFetchWord nbits w) = exec i u ∧ u.lArg = s.arg ∧ u.busy = true ∧
      decode u.lCmd = .instr i ∧ u.events = s.events ∧ SameEngine s u

/-- R69: a write to CMD issues or is dropped: dropped while BUSY = 1, and while FAULT = 1 for any word but NOP's
and CLEAR's; else the word and all eight arguments are latched and BUSY is set. -/
def Obligations.CommandWriteIssuesOrDrops : Prop :=
  ∀ (s : State) (v : Word), s.rstAsserted = false →
    let dropped := s.busy = true ∨ (s.fault = true ∧ v ≠ 0x00000000 ∧ v ≠ 0x01000000)
    let t := busAccess (.write 0x1C 4 v) s
    SameEngine s t ∧ t.arg = s.arg ∧ t.ie = s.ie ∧ t.resp = some ⟨true, none⟩ ∧
    (dropped → t.flags = s.flags ||| 0b010#3 ∧ t.busy = s.busy ∧ t.lCmd = s.lCmd ∧ t.lArg = s.lArg) ∧
    (¬ dropped → t.flags = s.flags ∧ t.busy = true ∧ t.lCmd = v ∧ ∀ i : Fin 8, t.lArg[i] = s.arg[i])

/-- R73: a command holds only when it has output and OUTQ lacks the room for it; holding changes nothing; and
only ENC_BYTE, ENC_FLUSH and DEC_BYTE can hold. -/
def Obligations.OnlyOutputCommandsHold : Prop :=
  ∀ (s t : State) (i : Instr), Machine.Inv s → s.busy = true → exec i s = .next t → t.busy = true →
    t = s ∧ 32 < s.outq.length ∧ ((∃ b, i = .encByte b) ∨ i = .encFlush ∨ ∃ b, i = .decByte b)

/-- R128, R70: with at most 32 bytes in OUTQ every command completes: BUSY becomes 0 and CMD_DONE 1. -/
def Obligations.EveryCommandCompletesWithRoom : Prop :=
  ∀ (s : State) (i : Instr), Machine.Inv s → s.outq.length ≤ 32 → ∃ t, exec i s = .next t ∧ Completed s t

/-! ## Faults (60_exceptions.md) -/

/-- R72, R104, R106: from FAULT = 0, an execution that sets FAULT is a fault that the table of R104 gives the
command; it is precise: nothing but FAULT, ERR_CODE, ERR_OP, BUSY and CMD_DONE changes. -/
def Obligations.FaultsArePreciseAndListed : Prop :=
  ∀ (s t : State) (i : Instr), s.fault = false → exec i s = .next t → t.fault = true →
    ∃ c ∈ faultsOf i, Faulted c s t

/-- R107: no step clears FAULT but the completion of CLEAR (its word in flight, and the engine's turn), a soft
reset and a hardware reset. -/
def Obligations.FaultStaysUntilCleared : Prop :=
  ∀ s t : State, s.fault = true → step s = .next t → t.fault = false →
    (s.busy = true ∧ s.lCmd = 0x01000000 ∧ (s.events = [] ∨ ∃ rest, s.events = .engine :: rest)) ∨
    (∃ v rest, s.events = .access (.write 0x18 4 v) :: rest ∧ v.getLsbD 0 = true ∧
      s.rstAsserted = false) ∨
    ∃ rest, s.events = .rstAssert :: rest

/-- R107, R109: while FAULT = 1 and stays 1, no step changes engine state but a pop of OUTQ, and ERROR keeps
the first fault: faults do not nest. -/
def Obligations.FaultFreezesTheEngine : Prop :=
  ∀ s t : State, LatchInv s → s.fault = true → step s = .next t → t.fault = true →
    t.errCode = s.errCode ∧ t.errOp = s.errOp ∧ KeepsHistogram s t ∧ KeepsTree s t ∧ KeepsCodes s t ∧
    KeepsEncoder s t ∧ KeepsDecoder s t ∧ t.res = s.res ∧
    (t.outq = s.outq ∨ ∃ b, s.outq = b :: t.outq)

/-! ## Control commands (40_control.md) -/

/-- R76: NOP. -/
def Obligations.NopOnlyCompletes : Prop :=
  encode .nop = 0x00000000 ∧
  (∀ s, ∃ t, exec .nop s = .next t ∧ Completed s t ∧ KeepsFault s t ∧ KeepsEngine s t) ∧
  (∀ s, s.busy = false → (issue 0x00000000 s).busy = true ∧ (issue 0x00000000 s).fault = s.fault) ∧
  (∀ w, fieldOp w = 0x00 → w ≠ 0x00000000 → ∃ why, decode w = .illegal why) ∧
  (∃ t, exec .nop State.reset = .next t ∧ regValue .status t = 0x00000120 ∧ regValue .flags t = 1)

/-- R77: CLEAR. That NODE is kept is no sentence of R77: its pseudocode assigns none of it, and the model reads
that as kept (DEDUCED, log 4). -/
def Obligations.ClearRestoresEngineResetValues : Prop :=
  encode .clear = 0x01000000 ∧
  (∀ s, ∃ t, exec .clear s = .next t ∧ Completed s t ∧ t.fault = false ∧ t.errCode = 0 ∧ t.errOp = 0 ∧
    (∀ b, freqAt t b = 0) ∧ t.histTotal = 0 ∧ TreeCleared t ∧ t.node = s.node ∧
    t.encAcc = 0 ∧ t.encNpend = 0 ∧ t.encBitcnt = 0 ∧ (∀ i : Fin 9, t.res[i] = 0) ∧ t.outq = []) ∧
  (∀ s, s.busy = false → (issue 0x01000000 s).busy = true ∧ (issue 0x01000000 s).lCmd = 0x01000000) ∧
  (∀ s, s.busy = true → issue 0x01000000 s = { s with flags := s.flags ||| 0b010#3 })

/-! ## Histogram commands (41_histogram.md) -/

/-- R79: HIST_CLEAR. -/
def Obligations.HistClearEmptiesTheHistogram : Prop :=
  encode .histClear = 0x02000000 ∧
  ∀ s, ∃ t, exec .histClear s = .next t ∧ Completed s t ∧ (∀ b, freqAt t b = 0) ∧ t.histTotal = 0 ∧
    histDistinct t = 0 ∧ (statusWord t).getLsbD 5 = true ∧ KeepsFault s t ∧ KeepsTree s t ∧ KeepsCodes s t ∧
    KeepsEncoder s t ∧ KeepsDecoder s t ∧ t.res = s.res ∧ t.outq = s.outq

/-- R80: HIST_BYTE. The entry's own sum is exact in every state with I1 (R43). -/
def Obligations.HistByteCountsOne : Prop :=
  (∀ b : Byte, (encode (.histByte b)).toNat = 0x03000000 + b.toNat) ∧
  (∀ (b : Byte) (s : State), s.histTotal.toNat = 2 ^ 32 - 1 →
    ∃ t, exec (.histByte b) s = .next t ∧ Faulted .countOverflow s t ∧ t.errCode = 0x03) ∧
  (∀ (b : Byte) (s : State), s.histTotal.toNat ≠ 2 ^ 32 - 1 →
    ∃ t, exec (.histByte b) s = .next t ∧ Completed s t ∧ freqAt t b = freqAt s b + 1 ∧
      (∀ c, c ≠ b → freqAt t c = freqAt s c) ∧ t.histTotal.toNat = s.histTotal.toNat + 1 ∧
      (HistInv s → (freqAt t b).toNat = (freqAt s b).toNat + 1 ∧ (statusWord t).getLsbD 5 = false) ∧
      KeepsFault s t ∧ KeepsTree s t ∧ KeepsCodes s t ∧ KeepsEncoder s t ∧ KeepsDecoder s t ∧
      t.res = s.res ∧ t.outq = s.outq)

/-- R81: HIST_ACC, with the count latched in L_ARG0. -/
def Obligations.HistAccAddsTheLatchedCount : Prop :=
  (∀ b : Byte, (encode (.histAcc b)).toNat = 0x04000000 + b.toNat) ∧
  (∀ (b : Byte) (s : State), s.histTotal.toNat + s.lArg[0].toNat > 2 ^ 32 - 1 →
    ∃ t, exec (.histAcc b) s = .next t ∧ Faulted .countOverflow s t ∧ t.errCode = 0x03) ∧
  (∀ (b : Byte) (s : State), s.histTotal.toNat + s.lArg[0].toNat ≤ 2 ^ 32 - 1 →
    ∃ t, exec (.histAcc b) s = .next t ∧ Completed s t ∧ freqAt t b = freqAt s b + s.lArg[0] ∧
      (∀ c, c ≠ b → freqAt t c = freqAt s c) ∧
      t.histTotal.toNat = s.histTotal.toNat + s.lArg[0].toNat ∧
      (HistInv s → (freqAt t b).toNat = (freqAt s b).toNat + s.lArg[0].toNat) ∧
      KeepsFault s t ∧ KeepsTree s t ∧ KeepsCodes s t ∧ KeepsEncoder s t ∧ KeepsDecoder s t ∧
      t.res = s.res ∧ t.outq = s.outq)

/-- R82: RD_FREQ. -/
def Obligations.RdFreqReadsOneEntry : Prop :=
  (∀ b : Byte, (encode (.rdFreq b)).toNat = 0x05000000 + b.toNat) ∧
  ∀ (b : Byte) (s : State), ∃ t, exec (.rdFreq b) s = .next t ∧ Completed s t ∧
    t.res[0] = freqAt s b ∧ (∀ i : Fin 9, i.val ≠ 0 → t.res[i] = 0) ∧ KeepsFault s t ∧
    KeepsHistogram s t ∧ KeepsTree s t ∧ KeepsCodes s t ∧ KeepsEncoder s t ∧ KeepsDecoder s t ∧
    t.outq = s.outq

/-- R78: HIST_CLEAR and one HIST_BYTE for each byte of X count X, in whatever order its bytes come. -/
def Obligations.HistogramCountsItsInput : Prop :=
  ∀ (s : State) (x : List Byte), x.length ≤ 2 ^ 32 - 1 →
    ∃ t, execAll (.histClear :: x.map .histByte) s = .next t ∧ KeepsFault s t ∧
      (∀ b, (freqAt t b).toNat = x.count b) ∧ t.histTotal.toNat = x.length

/-! ## Tree commands (42_tree.md) -/

/-- R85, empty input: no tree, and no fault. -/
def Obligations.BuildTreeOfNothingIsNoTree : Prop :=
  ∀ s, (∀ b, freqAt s b = 0) → ∃ t, exec .buildTree s = .next t ∧ Completed s t ∧ TreeCleared t ∧
    KeepsFault s t ∧ KeepsHistogram s t ∧ KeepsEncoder s t ∧ t.res = s.res ∧ t.outq = s.outq

/-- R85, R86 (a): BUILD_TREE over n symbols makes max(n, 2) leaves and 2L - 1 nodes, the last one the root,
clears codes and decoder, and leaves everything else. -/
def Obligations.BuildTreeCountsNodes : Prop :=
  ∀ s, (∃ b, freqAt s b ≠ 0) → ∃ t, exec .buildTree s = .next t ∧ Completed s t ∧
    t.leafCount.toNat = max (histDistinct s) 2 ∧ t.nodeCount.toNat = 2 * max (histDistinct s) 2 - 1 ∧
    t.root.toNat = t.nodeCount.toNat - 1 ∧ t.treeSrc = .built ∧ CodesCleared t ∧
    DecoderCleared t.root t ∧ KeepsFault s t ∧ KeepsHistogram s t ∧ KeepsEncoder s t ∧ t.res = s.res ∧
    t.outq = s.outq

/-- R86 (a) to (d) and (f), R84, R85, R9, but not which nodes are merged (`LeftChildIsExtractedFirst`): the built
tree is strict binary, its leaves stand at the indices below LEAF_COUNT and so below every internal node, its real
leaves are the symbols of the histogram with their counts, in symbol order, a single symbol's synthetic leaf is
node 1, frequencies add up to HIST_TOTAL at the root, and every node has one path, of at most 255 bits. -/
def Obligations.BuiltTreeIsStrictBinary : Prop :=
  ∀ s, HistInv s → (∃ b, freqAt s b ≠ 0) → ∃ t, exec .buildTree s = .next t ∧
    (∀ b, freqAt s b ≠ 0 ↔ ∃ i, Allocated t i ∧ RealLeaf t i ∧ (nodeAt t.node i).sym = b) ∧
    (∀ i, Allocated t i → RealLeaf t i → (nodeAt t.node i).freq = freqAt s (nodeAt t.node i).sym) ∧
    (∀ i j, Allocated t i → Allocated t j → RealLeaf t i → RealLeaf t j →
      (i.toNat < j.toNat ↔ (nodeAt t.node i).sym.toNat < (nodeAt t.node j).sym.toNat)) ∧
    (∀ i, Allocated t i → ((nodeAt t.node i).leaf = true ↔ i.toNat < t.leafCount.toNat)) ∧
    (∀ i, Allocated t i → ((nodeAt t.node i).synth = true ↔ histDistinct s = 1 ∧ i = 1)) ∧
    (∀ i, Allocated t i → (nodeAt t.node i).leaf = false → ∀ b,
      Allocated t ((nodeAt t.node i).child b) ∧ ((nodeAt t.node i).child b).toNat < i.toNat) ∧
    (∀ i, Allocated t i → (nodeAt t.node i).leaf = false →
      (nodeAt t.node i).freq.toNat = (nodeAt t.node (nodeAt t.node i).left).freq.toNat +
        (nodeAt t.node (nodeAt t.node i).right).freq.toNat) ∧
    (nodeAt t.node t.root).freq = s.histTotal ∧ (nodeAt t.node t.root).leaf = false ∧
    (∀ i, Allocated t i → ∃ p, follow t.node t.root p = some i ∧ p.length ≤ 255 ∧
      ∀ q, follow t.node t.root q = some i → q = p)

/-- R84: extractMin takes the one index with the lexicographically least key (FREQ, index), and only that. -/
def Obligations.ExtractMinTakesTheLeastKey : Prop :=
  ∀ q : List Key, (q.map Key.idx).Nodup → q ≠ [] →
    ∃ x q', extractMin q = some (x, q') ∧ q.Perm (x :: q') ∧
      ∀ z ∈ q', x.freq < z.freq ∨ (x.freq = z.freq ∧ x.idx < z.idx)

/-- R84, R85, R87: every merge of a built tree takes the two least keys (FREQ, index), the least one as the left
child: the left child's key is below the right child's, and any node that was there before (every leaf is, by
`BuiltTreeIsStrictBinary`) and was no child yet has a key above both. Later internal nodes have no smaller FREQ. -/
def Obligations.LeftChildIsExtractedFirst : Prop :=
  ∀ s, HistInv s → ∃ t, exec .buildTree s = .next t ∧
    (∀ i, Allocated t i → (nodeAt t.node i).leaf = false →
      KeyBelow t.node (nodeAt t.node i).left (nodeAt t.node i).right) ∧
    (∀ i z, Allocated t i → (nodeAt t.node i).leaf = false → z.toNat < i.toNat →
      (∀ j b, (nodeAt t.node j).leaf = false → j.toNat ≤ i.toNat → (nodeAt t.node j).child b ≠ z) →
      KeyBelow t.node (nodeAt t.node i).left z ∧ KeyBelow t.node (nodeAt t.node i).right z) ∧
    (∀ i j, Allocated t i → Allocated t j → (nodeAt t.node i).leaf = false →
      (nodeAt t.node j).leaf = false → i.toNat ≤ j.toNat →
      (nodeAt t.node i).freq.toNat ≤ (nodeAt t.node j).freq.toNat)

/-- R88: TREE_CLEAR. -/
def Obligations.TreeClearDiscardsTree : Prop :=
  encode .treeClear = 0x11000000 ∧
  ∀ s, ∃ t, exec .treeClear s = .next t ∧ Completed s t ∧ TreeCleared t ∧
    (statusWord t).getLsbD 2 = false ∧ (statusWord t).getLsbD 3 = false ∧
    (statusWord t).getLsbD 4 = false ∧ KeepsFault s t ∧ KeepsHistogram s t ∧ KeepsEncoder s t ∧
    t.res = s.res ∧ t.outq = s.outq ∧
    ∀ b, ∃ u, exec (.encByte b) t = .next u ∧ Faulted .alphabetMismatch t u

/-- R89: INSERT_CODE's checks in their order: SEQUENCE over a built tree; BAD_CODE for an empty code, a symbol
that has one, or a conflict with a loaded code under the prefix property; NODE_CAPACITY for more than 511
nodes. The premise Inv rules out node memories no run reaches. -/
def Obligations.InsertCodeChecksInOrder : Prop :=
  ∀ (s : State) (sym len : Byte), Machine.Inv s →
    let q := codeOperand len s
    let sequence := s.nodeCount ≠ 0 ∧ s.treeSrc = .built
    let bad := len = 0 ∨ (codeOf s sym).valid = true ∨
      ∃ b, (codeOf s b).valid = true ∧ Conflict (codeOf s b).bits q
    let full := s.nodeCount.toNat + nodesNeeded s q > 511
    ∃ t, exec (.insertCode sym len) s = .next t ∧
      (sequence → Faulted .sequence s t ∧ t.errCode = 0x02) ∧
      (¬ sequence → bad → Faulted .badCode s t ∧ t.errCode = 0x09) ∧
      (¬ sequence → ¬ bad → full → Faulted .nodeCapacity s t ∧ t.errCode = 0x0A) ∧
      (¬ sequence → ¬ bad → ¬ full → KeepsFault s t ∧ Completed s t)

/-- R89: an accepted INSERT_CODE adds exactly its code: the code's bits lead from ROOT = 0 to a leaf of SYM with
FREQ 0, every old path stays, CODE[SYM] is the code, and nothing else is written. -/
def Obligations.InsertCodeAddsItsPath : Prop :=
  ∀ (s : State) (sym len : Byte), Machine.Inv s →
    let q := codeOperand len s
    ¬ (s.nodeCount ≠ 0 ∧ s.treeSrc = .built) → len ≠ 0 → (codeOf s sym).valid = false →
    (∀ b, (codeOf s b).valid = true → ¬ Conflict (codeOf s b).bits q) →
    s.nodeCount.toNat + nodesNeeded s q ≤ 511 →
    ∃ t, exec (.insertCode sym len) s = .next t ∧ Completed s t ∧ t.root = 0 ∧ t.treeSrc = .loaded ∧
      CodePath t q sym ∧
      (∀ p i, s.nodeCount ≠ 0 → follow s.node s.root p = some i → follow t.node 0 p = some i) ∧
      (∀ i, Allocated s i → (nodeAt t.node i).leaf = (nodeAt s.node i).leaf ∧
        (nodeAt t.node i).sym = (nodeAt s.node i).sym) ∧
      (∀ i, Allocated t i → (nodeAt t.node i).freq = 0 ∧ (nodeAt t.node i).synth = false) ∧
      t.nodeCount.toNat = s.nodeCount.toNat + nodesNeeded s q ∧
      t.leafCount.toNat = s.leafCount.toNat + 1 ∧
      codeOf t sym = ⟨true, q⟩ ∧ (∀ b, b ≠ sym → codeOf t b = codeOf s b) ∧
      t.codeMaxLen.toNat = max s.codeMaxLen.toNat len.toNat ∧ t.cost = 0 ∧ DecoderCleared 0 t ∧
      KeepsFault s t ∧ KeepsHistogram s t ∧ KeepsEncoder s t ∧ t.res = s.res ∧ t.outq = s.outq

/-- R90: RD_NODE, an index at or beyond NODE_COUNT reading zeros. -/
def Obligations.RdNodeReadsOneEntry : Prop :=
  (∀ i : Index, (encode (.rdNode i)).toNat = 0x13000000 + i.toNat) ∧
  ∀ (i : Index) (s : State), ∃ t, exec (.rdNode i) s = .next t ∧ Completed s t ∧
    (i.toNat < s.nodeCount.toNat →
      let e := nodeAt s.node i
      t.res[0].toNat = 2 ^ 31 + e.leaf.toNat * 2 ^ 30 + e.synth.toNat * 2 ^ 29 + e.sym.toNat ∧
      t.res[1] = e.freq ∧ t.res[2].toNat = e.right.toNat * 2 ^ 16 + e.left.toNat) ∧
    (s.nodeCount.toNat ≤ i.toNat → t.res[0] = 0 ∧ t.res[1] = 0 ∧ t.res[2] = 0) ∧
    (∀ k : Fin 9, 3 ≤ k.val → t.res[k] = 0) ∧ KeepsFault s t ∧
    KeepsHistogram s t ∧ KeepsTree s t ∧ KeepsCodes s t ∧ KeepsEncoder s t ∧ KeepsDecoder s t ∧
    t.outq = s.outq

/-! ## Code table commands (43_codegen.md) -/

/-- R91, R92 (b) to (d): GEN_CODES gives each symbol of a real leaf that leaf's path, never empty, and no other
symbol a code; CODE_MAXLEN is the longest, and COST the sum of FREQ times path length over the real leaves, FREQ
being the node's, taken at build time, whatever the histogram holds now. -/
def Obligations.GenCodesTabulatesLeafPaths : Prop :=
  (∀ s, s.nodeCount = 0 → ∃ t, exec .genCodes s = .next t ∧ Faulted .sequence s t ∧ t.errCode = 0x02) ∧
  (∀ s, Machine.Inv s → s.nodeCount ≠ 0 → ∃ t, exec .genCodes s = .next t ∧ Completed s t ∧
    (∀ b, (codeOf t b).valid = true ↔ ∃ p, CodePath s p b) ∧
    (∀ b, (codeOf t b).valid = true → CodePath s (codeOf t b).bits b ∧ (codeOf t b).bits ≠ [] ∧
      (codeOf t b).bits.length ≤ t.codeMaxLen.toNat) ∧
    (∀ b, (codeOf t b).valid = false → (codeOf t b).bits = []) ∧
    (∃ b, (codeOf t b).valid = true ∧ (codeOf t b).bits.length = t.codeMaxLen.toNat) ∧
    t.cost.toNat = ((List.range s.nodeCount.toNat).map (fun k =>
      let e := nodeAt s.node (BitVec.ofNat 9 k)
      if e.leaf = true ∧ e.synth = false then e.freq.toNat * (codeOf t e.sym).bits.length else 0)).sum ∧
    (s.treeSrc = .loaded → t.code = s.code ∧ t.cost = 0) ∧
    KeepsFault s t ∧ KeepsHistogram s t ∧ KeepsTree s t ∧ KeepsEncoder s t ∧ KeepsDecoder s t ∧
    t.res = s.res ∧ t.outq = s.outq)

/-- R92 (c), (d): after BUILD_TREE and GEN_CODES exactly the symbols of the histogram have codes, and COST is
the sum of FREQ[s] * CODE[s].LEN. -/
def Obligations.CostIsTheWeightedCodeLength : Prop :=
  ∀ s, HistInv s → (∃ b, freqAt s b ≠ 0) →
    ∃ t, execAll [.buildTree, .genCodes] s = .next t ∧ KeepsHistogram s t ∧ KeepsFault s t ∧
      (∀ b, (codeOf t b).valid = true ↔ freqAt s b ≠ 0) ∧
      t.cost.toNat =
        ((List.range 256).map (fun k => (freqAt s (BitVec.ofNat 8 k)).toNat *
          (codeOf t (BitVec.ofNat 8 k)).bits.length)).sum

/-- R92 (a), (b), R43 I5: in every state of the invariant the valid codes are free of conflicts and not
empty. -/
def Obligations.ValidCodesAreFreeOfConflicts : Prop :=
  ∀ s, Machine.Inv s → ∀ a b, (codeOf s a).valid = true → (codeOf s b).valid = true →
    (codeOf s a).bits ≠ [] ∧ (Conflict (codeOf s a).bits (codeOf s b).bits → a = b)

/-- R93, R53: RD_CODE gives VALID and LEN in RES0 and the code's bits in RES1 to RES8, zero beyond LEN. -/
def Obligations.RdCodeReadsOneEntry : Prop :=
  (∀ b : Byte, (encode (.rdCode b)).toNat = 0x21000000 + b.toNat) ∧
  ∀ (b : Byte) (s : State), (codeOf s b).bits.length ≤ 255 → ∃ t, exec (.rdCode b) s = .next t ∧ Completed s t ∧
    t.res[0].toNat = (codeOf s b).valid.toNat * 2 ^ 31 + (codeOf s b).bits.length ∧
    (∀ (k : Fin 8) (j : Fin 32), (t.res[k.val + 1]).getLsbD (31 - j.val) =
      (codeOf s b).bits.getD (32 * k.val + j.val) false) ∧
    (CodeInv s → (codeOf s b).valid = false → ∀ i : Fin 9, t.res[i] = 0) ∧
    KeepsFault s t ∧ KeepsHistogram s t ∧ KeepsTree s t ∧ KeepsCodes s t ∧ KeepsEncoder s t ∧
    KeepsDecoder s t ∧ t.outq = s.outq

/-- R53, R62: the words of a code, latched as arguments, give back its bits; bits beyond LEN are ignored. -/
def Obligations.CodeWordsCarryTheCode : Prop :=
  (∀ (s : State) (len : Byte) (k : Fin 8) (j : Fin 32), 32 * k.val + j.val < len.toNat →
    (codeOperand len s)[32 * k.val + j.val]? = some ((s.lArg[k]).getLsbD (31 - j.val))) ∧
  (∀ (s : State) (q : List Bool), q.length ≤ 255 → (∀ k : Fin 8, s.lArg[k] = codeWord q k.val) →
    codeOperand (BitVec.ofNat 8 q.length) s = q) ∧
  (∀ (s u : State) (len : Byte), (∀ j, j < len.toNat → codeBit s.lArg j = codeBit u.lArg j) →
    codeOperand len s = codeOperand len u) ∧
  codeWord [true, false, true, false, true, false, true, true, true, true, false, false] 0 = 0xABC00000

/-! ## Encoder commands (44_encoder.md) -/

/-- R94: ENC_START. -/
def Obligations.EncStartBeginsAPayload : Prop :=
  encode .encStart = 0x30000000 ∧
  ∀ s, ∃ t, exec .encStart s = .next t ∧ Completed s t ∧ t.encAcc = 0 ∧ t.encNpend = 0 ∧ t.encBitcnt = 0 ∧
    KeepsFault s t ∧ KeepsHistogram s t ∧ KeepsTree s t ∧ KeepsCodes s t ∧ KeepsDecoder s t ∧
    t.res = s.res ∧ t.outq = s.outq

/-- R95, R41: ENC_BYTE appends the code's bits to the pending ones, pushes every whole byte, first bit in bit 7,
and keeps the rest pending, right-aligned; it holds, unchanged, while OUTQ lacks the room; it faults without a
valid code. -/
def Obligations.EncByteAppendsTheCode : Prop :=
  (∀ b : Byte, (encode (.encByte b)).toNat = 0x31000000 + b.toNat) ∧
  (∀ (b : Byte) (s : State), (codeOf s b).valid = false →
    ∃ t, exec (.encByte b) s = .next t ∧ Faulted .alphabetMismatch s t ∧ t.errCode = 0x04) ∧
  (∀ (b : Byte) (s : State), (codeOf s b).valid = true →
    ¬ (s.encNpend.toNat + (codeOf s b).bits.length) / 8 ≤ 64 - s.outq.length →
    exec (.encByte b) s = .next s) ∧
  (∀ (b : Byte) (s : State), (codeOf s b).valid = true →
    (s.encNpend.toNat + (codeOf s b).bits.length) / 8 ≤ 64 - s.outq.length →
    ∃ t out, exec (.encByte b) s = .next t ∧ Completed s t ∧ t.outq = s.outq ++ out ∧
      out.length = (s.encNpend.toNat + (codeOf s b).bits.length) / 8 ∧
      out.flatMap bitsOf ++ pendingBits t = pendingBits s ++ (codeOf s b).bits ∧
      t.encAcc.toNat = value (pendingBits t) ∧
      t.encBitcnt = s.encBitcnt + BitVec.ofNat 64 (codeOf s b).bits.length ∧
      KeepsFault s t ∧ KeepsHistogram s t ∧ KeepsTree s t ∧ KeepsCodes s t ∧ KeepsDecoder s t ∧
      t.res = s.res)

/-- R96: ENC_FLUSH pads with zeros and pushes one byte, nothing when nothing is pending, and holds while OUTQ is
full. -/
def Obligations.EncFlushPadsToAByte : Prop :=
  encode .encFlush = 0x32000000 ∧
  (∀ s, s.encNpend = 0 →
    ∃ t, exec .encFlush s = .next t ∧ Completed s t ∧ KeepsFault s t ∧ KeepsEngine s t) ∧
  (∀ s, s.encNpend ≠ 0 → 64 ≤ s.outq.length → exec .encFlush s = .next s) ∧
  (∀ s, s.encNpend ≠ 0 → s.outq.length < 64 →
    ∃ t b, exec .encFlush s = .next t ∧ Completed s t ∧ t.outq = s.outq ++ [b] ∧
      bitsOf b = pendingBits s ++ List.replicate (8 - s.encNpend.toNat) false ∧
      (EncInv s → b = (s.encAcc.setWidth 8) <<< (8 - s.encNpend.toNat)) ∧
      t.encAcc = 0 ∧ t.encNpend = 0 ∧ t.encBitcnt = s.encBitcnt ∧ KeepsFault s t ∧
      KeepsHistogram s t ∧ KeepsTree s t ∧ KeepsCodes s t ∧ KeepsDecoder s t ∧ t.res = s.res)

/-- R97: the bytes pushed for an input are its codes, one after the other, packed first bit into bit 7 and padded
with zeros, ⌈|E|/8⌉ of them; ENC_BITCNT is |E|. The host drains OUTQ between commands (R68). -/
def Obligations.PayloadIsThePackedCodes : Prop :=
  ∀ (s : State) (x : List Byte), CodeInv s → (∀ b ∈ x, (codeOf s b).valid = true) →
    let e := x.flatMap (fun b => (codeOf s b).bits)
    ∃ t h, runDrained (.encStart :: x.map .encByte ++ [.encFlush]) s = some (t, h) ∧
      h.length = (e.length + 7) / 8 ∧
      h.flatMap bitsOf = e ++ List.replicate (8 * h.length - e.length) false ∧
      t.encBitcnt.toNat = e.length % 2 ^ 64 ∧ t.encNpend = 0 ∧
      KeepsFault s t ∧ KeepsHistogram s t ∧ KeepsTree s t ∧ KeepsCodes s t ∧ KeepsDecoder s t ∧
      t.res = s.res

/-! ## Decoder commands (45_decoder.md) -/

/-- R98: DEC_START, with the 64-bit length latched in L_ARG1 and L_ARG0. -/
def Obligations.DecStartPutsTheWalkerAtTheRoot : Prop :=
  encode .decStart = 0x40000000 ∧
  (∀ s : State, s.lArg[1].toNat * 2 ^ 32 + s.lArg[0].toNat > 0 → s.nodeCount = 0 →
    ∃ t, exec .decStart s = .next t ∧ Faulted .sequence s t ∧ t.errCode = 0x02) ∧
  (∀ s : State, (s.lArg[1].toNat * 2 ^ 32 + s.lArg[0].toNat = 0 ∨ s.nodeCount ≠ 0) →
    ∃ t, exec .decStart s = .next t ∧ Completed s t ∧
      t.decRemain.toNat = s.lArg[1].toNat * 2 ^ 32 + s.lArg[0].toNat ∧ t.decNode = s.root ∧
      t.decSymcnt = 0 ∧ t.decActive = true ∧
      (t.decDone = true ↔ s.lArg[1].toNat * 2 ^ 32 + s.lArg[0].toNat = 0) ∧
      KeepsFault s t ∧ KeepsHistogram s t ∧ KeepsTree s t ∧ KeepsCodes s t ∧ KeepsEncoder s t ∧
      t.res = s.res ∧ t.outq = s.outq)

/-- R99: DEC_BYTE's checks in their order, and its walk: an accepted byte is a walk over its payload bits, whose
symbols it pushes; it holds, unchanged, while OUTQ lacks the room. -/
def Obligations.DecByteWalksThePayloadBits : Prop :=
  (∀ b : Byte, (encode (.decByte b)).toNat = 0x41000000 + b.toNat) ∧
  (∀ (b : Byte) (s : State), s.decActive = false →
    ∃ t, exec (.decByte b) s = .next t ∧ Faulted .sequence s t ∧ t.errCode = 0x02) ∧
  (∀ (b : Byte) (s : State), s.decActive = true → s.decRemain = 0 →
    ∃ t, exec (.decByte b) s = .next t ∧ Faulted .extraPayload s t ∧ t.errCode = 0x08) ∧
  (∀ (b : Byte) (s : State), s.decActive = true → s.decRemain ≠ 0 →
    (∀ cur out, ¬ Walk s.node s.root s.decNode (payloadBits b s) cur out) →
    ∃ t, exec (.decByte b) s = .next t ∧ Faulted .corruptCode s t ∧ t.errCode = 0x05) ∧
  (∀ (b : Byte) (s : State) cur out, s.decActive = true → s.decRemain ≠ 0 →
    Walk s.node s.root s.decNode (payloadBits b s) cur out → remainAfter s = 0 → cur ≠ s.root →
    ∃ t, exec (.decByte b) s = .next t ∧ Faulted .underflow s t ∧ t.errCode = 0x06) ∧
  (∀ (b : Byte) (s : State) cur out, s.decActive = true → s.decRemain ≠ 0 →
    Walk s.node s.root s.decNode (payloadBits b s) cur out → (remainAfter s = 0 → cur = s.root) →
    ¬ out.length ≤ 64 - s.outq.length → exec (.decByte b) s = .next s) ∧
  (∀ (b : Byte) (s : State) cur out, s.decActive = true → s.decRemain ≠ 0 →
    Walk s.node s.root s.decNode (payloadBits b s) cur out → (remainAfter s = 0 → cur = s.root) →
    out.length ≤ 64 - s.outq.length →
    ∃ t, exec (.decByte b) s = .next t ∧ Completed s t ∧ t.outq = s.outq ++ out ∧ out.length ≤ 8 ∧
      t.decNode = cur ∧ t.decRemain.toNat = s.decRemain.toNat - min 8 s.decRemain.toNat ∧
      t.decSymcnt = s.decSymcnt + BitVec.ofNat 64 out.length ∧ t.decActive = true ∧
      (t.decDone = true ↔ t.decRemain = 0) ∧
      KeepsFault s t ∧ KeepsHistogram s t ∧ KeepsTree s t ∧ KeepsCodes s t ∧ KeepsEncoder s t ∧
      t.res = s.res)

/-- R100: DEC_END. -/
def Obligations.DecEndChecksTheLength : Prop :=
  encode .decEnd = 0x42000000 ∧
  (∀ s, s.decActive = false →
    ∃ t, exec .decEnd s = .next t ∧ Faulted .sequence s t ∧ t.errCode = 0x02) ∧
  (∀ s, s.decActive = true → s.decRemain ≠ 0 →
    ∃ t, exec .decEnd s = .next t ∧ Faulted .truncated s t ∧ t.errCode = 0x07) ∧
  (∀ s, s.decActive = true → s.decRemain = 0 →
    ∃ t, exec .decEnd s = .next t ∧ Completed s t ∧ t.decActive = false ∧ t.decDone = s.decDone ∧
      t.decRemain = s.decRemain ∧ t.decNode = s.decNode ∧ t.decSymcnt = s.decSymcnt ∧
      KeepsFault s t ∧ KeepsHistogram s t ∧ KeepsTree s t ∧ KeepsCodes s t ∧ KeepsEncoder s t ∧
      t.res = s.res ∧ t.outq = s.outq ∧ (DecInv s → t.decNode = t.root) ∧
      ∃ u, exec .decEnd t = .next u ∧ Faulted .sequence t u)

/-- R101 (a), (b): the decoder recovers the symbols of a payload that is their root paths packed, whatever the
pad bits. The host drains OUTQ between commands (R68). -/
def Obligations.DecoderRecoversTheSymbols : Prop :=
  ∀ (s : State) (x : List Byte) (code : Byte → List Bool) (y : List Byte),
    TreeInv s → (∀ b ∈ x, s.nodeCount ≠ 0 ∧ CodePath s (code b) b) →
    let e := x.flatMap code
    e.length < 2 ^ 64 → s.lArg[1].toNat * 2 ^ 32 + s.lArg[0].toNat = e.length →
    y.length = (e.length + 7) / 8 → e <+: y.flatMap bitsOf →
    ∃ t, runDrained (.decStart :: y.map .decByte ++ [.decEnd]) s = some (t, x) ∧
      t.decSymcnt.toNat = x.length % 2 ^ 64 ∧ t.decActive = false ∧ t.decDone = true ∧
      t.decRemain = 0 ∧ KeepsFault s t ∧ KeepsHistogram s t ∧ KeepsTree s t ∧ KeepsCodes s t ∧
      KeepsEncoder s t ∧ t.res = s.res

/-- R101 (c): a payload short of its declared length is caught at DEC_END with TRUNCATED, and the symbols pushed
before are a first part of the true ones. -/
def Obligations.ShortPayloadIsTruncated : Prop :=
  ∀ (s : State) (x : List Byte) (code : Byte → List Bool) (y : List Byte),
    TreeInv s → s.nodeCount ≠ 0 → (∀ b ∈ x, CodePath s (code b) b) →
    let e := x.flatMap code
    e.length < 2 ^ 64 → s.lArg[1].toNat * 2 ^ 32 + s.lArg[0].toNat = e.length →
    y.length < (e.length + 7) / 8 → y.flatMap bitsOf <+: e →
    ∃ t h, runDrained (.decStart :: y.map .decByte ++ [.decEnd]) s = some (t, h) ∧ h <+: x ∧
      t.fault = true ∧ t.errCode = FaultCode.truncated.code ∧
      t.decRemain.toNat = e.length - 8 * y.length

/-- R97, R101: the round trip: what the encoder pushed for an input, with ENC_BITCNT as the declared length,
decodes to that input over the same tree. -/
def Obligations.DecodingUndoesEncoding : Prop :=
  ∀ (s : State) (x : List Byte), Machine.Inv s → (∀ b ∈ x, (codeOf s b).valid = true) →
    (x.flatMap (fun b => (codeOf s b).bits)).length < 2 ^ 64 →
    ∃ t h, runDrained (.encStart :: x.map .encByte ++ [.encFlush]) s = some (t, h) ∧
      let lo : Word := t.encBitcnt.extractLsb' 0 32
      let hi : Word := t.encBitcnt.extractLsb' 32 32
      ∃ u, runDrained (.decStart :: h.map .decByte ++ [.decEnd])
          { t with lArg := (t.lArg.set 0 lo).set 1 hi } = some (u, x) ∧
        KeepsFault s u ∧ u.decDone = true

/-! ## The invariant (R43, R24) -/

/-- R43 and R24 at reset: the state of `State.reset`, whatever NODE holds. -/
def Obligations.InvariantHoldsAtReset : Prop := Machine.Inv State.reset ∧ ∀ k, Machine.Inv (State.resetWith k)

/-- R43, and R24 (ERROR is 0 while FAULT = 0 and holds a fault code while FAULT = 1): every step from a state of
the invariant leads to a state of the invariant, whatever the environment does. -/
def Obligations.EveryStepKeepsTheInvariant : Prop := ∀ s, Machine.Inv s → ∃ t, step s = .next t ∧ Machine.Inv t

/-- R18, R19, R35, R36, R38, R40, R71, R73: which commands write the argument file, the result file, the
histogram, the tree, the code table, the encoder and the decoder, and which push to OUTQ. That CLEAR and
TREE_CLEAR keep NODE is log 4 (DEDUCED). -/
def Obligations.CommandsWriteOnlyTheirState : Prop :=
  ∀ (s t : State) (i : Instr), exec i s = .next t →
    t.arg = s.arg ∧ t.ie = s.ie ∧ t.lArg = s.lArg ∧ t.lCmd = s.lCmd ∧ t.events = s.events ∧
    (t.res ≠ s.res → (∃ b, i = .rdFreq b) ∨ (∃ k, i = .rdNode k) ∨ (∃ b, i = .rdCode b) ∨ i = .clear) ∧
    (t.freq ≠ s.freq ∨ t.histTotal ≠ s.histTotal →
      i = .histClear ∨ (∃ b, i = .histByte b) ∨ (∃ b, i = .histAcc b) ∨ i = .clear) ∧
    (t.node ≠ s.node → i = .buildTree ∨ ∃ a b, i = .insertCode a b) ∧
    (t.nodeCount ≠ s.nodeCount ∨ t.leafCount ≠ s.leafCount ∨ t.root ≠ s.root ∨ t.treeSrc ≠ s.treeSrc →
      i = .buildTree ∨ i = .treeClear ∨ (∃ a b, i = .insertCode a b) ∨ i = .clear) ∧
    (t.code ≠ s.code ∨ t.codeMaxLen ≠ s.codeMaxLen ∨ t.cost ≠ s.cost →
      i = .genCodes ∨ (∃ a b, i = .insertCode a b) ∨ i = .buildTree ∨ i = .treeClear ∨ i = .clear) ∧
    (t.encAcc ≠ s.encAcc ∨ t.encNpend ≠ s.encNpend ∨ t.encBitcnt ≠ s.encBitcnt →
      i = .encStart ∨ (∃ b, i = .encByte b) ∨ i = .encFlush ∨ i = .clear) ∧
    (t.decActive ≠ s.decActive ∨ t.decDone ≠ s.decDone ∨ t.decRemain ≠ s.decRemain ∨
        t.decNode ≠ s.decNode ∨ t.decSymcnt ≠ s.decSymcnt →
      i = .decStart ∨ (∃ b, i = .decByte b) ∨ i = .decEnd ∨ i = .buildTree ∨ i = .treeClear ∨
      (∃ a b, i = .insertCode a b) ∨ i = .clear) ∧
    (t.outq ≠ s.outq →
      ((∃ out, t.outq = s.outq ++ out) ∧ ((∃ b, i = .encByte b) ∨ i = .encFlush ∨ ∃ b, i = .decByte b)) ∨
      (i = .clear ∧ t.outq = []))

/-! ## The register window (10_state.md, 20_memory.md) -/

/-- R22, R48, R55: ID and VERSION read constants in every state out of reset (log 8: while `rst_n` is asserted R120
overrides R22), a read leaves the state as it was, and neither can be written. -/
def Obligations.IdentificationIsConstant : Prop :=
  ∀ s, s.rstAsserted = false →
    busAccess (.read 0x00 4) s = { s with resp := some ⟨true, some 0x48554646⟩ } ∧
    busAccess (.read 0x04 4) s = { s with resp := some ⟨true, some 0x00010000⟩ } ∧
    (∀ v, busAccess (.write 0x00 4 v) s = { s with resp := some ⟨true, none⟩ }) ∧
    (∀ v, busAccess (.write 0x04 4 v) s = { s with resp := some ⟨true, none⟩ })

/-- R23, R111: each bit of STATUS; bit 10 is the level of irq, the OR of the enabled sources. -/
def Obligations.StatusBitsAreComputed : Prop :=
  (∀ s, s.rstAsserted = false → ∃ v, busAccess (.read 0x08 4) s = { s with resp := some ⟨true, some v⟩ } ∧
    v.getLsbD 0 = s.busy ∧ v.getLsbD 1 = s.fault ∧
    (v.getLsbD 2 = true ↔ s.nodeCount ≠ 0) ∧
    (v.getLsbD 3 = true ↔ ∃ b, (codeOf s b).valid = true) ∧
    (v.getLsbD 4 = true ↔ s.treeSrc = .loaded) ∧
    (v.getLsbD 5 = true ↔ ∀ b, freqAt s b = 0) ∧
    v.getLsbD 6 = s.decActive ∧ v.getLsbD 7 = s.decDone ∧
    (v.getLsbD 8 = true ↔ s.outq = []) ∧ (v.getLsbD 9 = true ↔ s.outq.length = 64) ∧
    (v.getLsbD 10 = true ↔
      (s.flags.getLsbD 0 = true ∧ s.ie.getLsbD 0 = true) ∨
      (s.flags.getLsbD 1 = true ∧ s.ie.getLsbD 1 = true) ∨
      (s.flags.getLsbD 2 = true ∧ s.ie.getLsbD 2 = true) ∨ (s.fault = true ∧ s.ie.getLsbD 3 = true)) ∧
    (∀ k, 11 ≤ k → v.getLsbD k = false) ∧
    ∀ w, busAccess (.write 0x08 4 w) s = { s with resp := some ⟨true, none⟩ }) ∧
  (busAccess (.read 0x08 4) State.reset).resp = some ⟨true, some 0x00000120⟩

/-- R29, R49: OUT_DATA pops the oldest byte, or sets RD_EMPTY of an empty queue, in every state out of reset, BUSY and
FAULT included; OUT_LEVEL counts; writes to either are ignored. -/
def Obligations.OutDataPopsTheQueue : Prop :=
  ∀ s, s.rstAsserted = false → s.outq.length ≤ 64 →
    (∀ b q, s.outq = b :: q →
      busAccess (.read 0x64 4) s = { s with outq := q, resp := some ⟨true, some (0x100 ||| b.setWidth 32)⟩ }) ∧
    (s.outq = [] → busAccess (.read 0x64 4) s =
      { s with flags := s.flags ||| 0b100#3, resp := some ⟨true, some 0⟩ }) ∧
    (∃ v : Word, busAccess (.read 0x68 4) s = { s with resp := some ⟨true, some v⟩ } ∧
      v.toNat = s.outq.length) ∧
    (∀ v, busAccess (.write 0x64 4 v) s = { s with resp := some ⟨true, none⟩ } ∧
      busAccess (.write 0x68 4 v) s = { s with resp := some ⟨true, none⟩ })

/-- R24, R30 to R34, R48, R55: the count registers read their state elements, zero-extended, a 64-bit one as its low
and high words, and a read leaves the whole state as it was but the response; writes to them are ignored.
HIST_DISTINCT is the number of symbols present. -/
def Obligations.CountRegistersReadTheirState : Prop :=
  ∀ s, s.rstAsserted = false →
    let reads := fun (off : Byte) (n : Nat) =>
      ∃ v : Word, busAccess (.read off 4) s = { s with resp := some ⟨true, some v⟩ } ∧ v.toNat = n
    reads 0x0C (s.errOp.toNat * 2 ^ 8 + s.errCode.toNat) ∧
    reads 0x6C s.histTotal.toNat ∧
    reads 0x70 ((List.range 256).countP (fun k => freqAt s (BitVec.ofNat 8 k) != 0)) ∧
    reads 0x74 s.nodeCount.toNat ∧ reads 0x78 s.leafCount.toNat ∧ reads 0x7C s.root.toNat ∧
    reads 0x80 s.codeMaxLen.toNat ∧
    reads 0x84 (s.cost.toNat % 2 ^ 32) ∧ reads 0x88 (s.cost.toNat / 2 ^ 32) ∧
    reads 0x8C (s.encBitcnt.toNat % 2 ^ 32) ∧ reads 0x90 (s.encBitcnt.toNat / 2 ^ 32) ∧
    reads 0x94 (s.encAcc.toNat * 2 ^ 8 + s.encNpend.toNat) ∧
    reads 0x98 (s.decRemain.toNat % 2 ^ 32) ∧ reads 0x9C (s.decRemain.toNat / 2 ^ 32) ∧
    reads 0xA0 s.decNode.toNat ∧
    reads 0xA4 (s.decSymcnt.toNat % 2 ^ 32) ∧ reads 0xA8 (s.decSymcnt.toNat / 2 ^ 32) ∧
    (∀ (off : Byte) v, (off = 0x0C ∨ 0x6C ≤ off.toNat) → off.toNat % 4 = 0 →
      busAccess (.write off 4 v) s = { s with resp := some ⟨true, none⟩ })

/-- R18, R19, R25 to R28, R50: FLAGS, IE, CTRL, CMD, the argument file and the result file on the bus. -/
def Obligations.HostRegistersActAsTyped : Prop :=
  ∀ (s : State), s.rstAsserted = false →
    let wr := fun (off : Byte) v => busAccess (.write off 4 v) s
    let rd := fun (off : Byte) => busAccess (.read off 4) s
    (∀ i : Fin 8, rd (BitVec.ofNat 8 (0x20 + 4 * i.val)) = { s with resp := some ⟨true, some s.arg[i]⟩ } ∧
      ∀ v, (wr (BitVec.ofNat 8 (0x20 + 4 * i.val)) v).arg[i] = v ∧
        (∀ j : Fin 8, j ≠ i → (wr (BitVec.ofNat 8 (0x20 + 4 * i.val)) v).arg[j] = s.arg[j]) ∧
        wr (BitVec.ofNat 8 (0x20 + 4 * i.val)) v =
          { s with arg := (wr (BitVec.ofNat 8 (0x20 + 4 * i.val)) v).arg, resp := some ⟨true, none⟩ }) ∧
    (∀ i : Fin 9, rd (BitVec.ofNat 8 (0x40 + 4 * i.val)) = { s with resp := some ⟨true, some s.res[i]⟩ } ∧
      ∀ v, wr (BitVec.ofNat 8 (0x40 + 4 * i.val)) v = { s with resp := some ⟨true, none⟩ }) ∧
    rd 0x10 = { s with resp := some ⟨true, some (s.flags.setWidth 32)⟩ } ∧
    (∀ v, wr 0x10 v = { s with flags := (wr 0x10 v).flags, resp := some ⟨true, none⟩ } ∧
      ∀ k, k < 3 → (wr 0x10 v).flags.getLsbD k = (s.flags.getLsbD k && !v.getLsbD k)) ∧
    rd 0x14 = { s with resp := some ⟨true, some (s.ie.setWidth 32)⟩ } ∧
    (∀ v, wr 0x14 v = { s with ie := v.setWidth 4, resp := some ⟨true, none⟩ }) ∧
    rd 0x18 = { s with resp := some ⟨true, some 0⟩ } ∧
    (∀ v, v.getLsbD 0 = false → wr 0x18 v = { s with resp := some ⟨true, none⟩ }) ∧
    rd 0x1C = { s with resp := some ⟨true, some 0⟩ }

/-- R46, R110: any access that is not 32 bits wide at a multiple of 4 gets an error response, a read the data 0,
and changes no state. -/
def Obligations.InadmissibleAccessChangesNothing : Prop :=
  ∀ (s : State) (off : Byte) (bytes : Nat), bytes ≠ 4 ∨ off.toNat % 4 ≠ 0 →
    busAccess (.read off bytes) s = { s with resp := some ⟨false, some 0⟩ } ∧
    ∀ v, busAccess (.write off bytes v) s = { s with resp := some ⟨false, none⟩ }

/-- R47: reserved offsets read 0 and ignore writes, with an OK response; so do writes to the read-only
registers, OUT_DATA included, which does not pop. -/
def Obligations.ReservedOffsetsReadZero : Prop :=
  ∀ (s : State) (off : Byte), s.rstAsserted = false → off.toNat % 4 = 0 →
    (0xAC ≤ off.toNat → busAccess (.read off 4) s = { s with resp := some ⟨true, some 0⟩ }) ∧
    (off.toNat < 0x10 ∨ 0x40 ≤ off.toNat →
      ∀ v, busAccess (.write off 4 v) s = { s with resp := some ⟨true, none⟩ })

/-- R50, R55: a host access changes engine state only by a pop of OUT_DATA or a soft reset. -/
def Obligations.HostReachesTheEngineByCommandsOnly : Prop :=
  ∀ (s : State) (a : Access), (∀ off bytes, a = .read off bytes → off ≠ 0x64) →
    (∀ v, a = .write 0x18 4 v → v.getLsbD 0 = false) → SameEngine s (busAccess a s)

/-! ## Reset (70_reset_and_hazards.md) -/

/-- R17, R120: the reset state: every register reads its reset value of R21, and the hidden state is as R17
gives it. -/
def Obligations.ResetValues : Prop :=
  ∀ k, let s := State.resetWith k
    (∀ r, regValue r s = match r with
      | .id => 0x48554646 | .version => 0x00010000 | .status => 0x00000120
      | .root => 0x000001FF | .decNode => 0x000001FF | _ => 0) ∧
    (∀ b, freqAt s b = 0) ∧ (∀ b, codeOf s b = ⟨false, []⟩) ∧ s.outq = [] ∧ s.busy = false ∧
    s.lCmd = 0 ∧ (∀ i : Fin 8, s.lArg[i] = 0) ∧ irq s = false

/-- R120, R121: a hardware reset and a soft reset leave the same reset state, from any state: a command in
flight is abandoned, OUTQ emptied, the fault gone. They draw NODE's unspecified contents anew (log 3). -/
def Obligations.ResetsAbandonEverything : Prop :=
  ∀ s : State,
    (∀ rest, s.events = .rstAssert :: rest →
      step s = .next { State.resetWith s.draws with events := rest, rstAsserted := true }) ∧
    (∀ v, s.rstAsserted = false → v.getLsbD 0 = true → busAccess (.write 0x18 4 v) s =
      { State.resetWith s.draws with events := s.events, resp := some ⟨true, none⟩ })

/-- R122, R77: after CLEAR every register but STATUS, FLAGS, IE and the argument file reads what it reads after
a reset, and ARG, IE and FLAGS.CMD_DROPPED and RD_EMPTY what they read before. -/
def Obligations.ClearDiffersFromResetInTheHostFiles : Prop :=
  ∀ (s : State) (k : Nat), ∃ t, exec .clear s = .next t ∧
    (∀ r, r ≠ .status → r ≠ .flags → r ≠ .ie → (∀ i, r ≠ .arg i) →
      regValue r t = regValue r (State.resetWith k)) ∧
    (∀ j, j ≠ 10 → (regValue .status t).getLsbD j = (regValue .status (State.resetWith k)).getLsbD j) ∧
    regValue .ie t = regValue .ie s ∧ (∀ i, regValue (.arg i) t = regValue (.arg i) s) ∧
    (∀ j, j ≠ 0 → (regValue .flags t).getLsbD j = (regValue .flags s).getLsbD j) ∧
    (regValue .flags t).getLsbD 0 = true
end

