-- ==== Sys2Proof/Laws/Bits.lean ====
section
/-! SUPPORT. Laws of bit sequences and their packing (R11, R41, R52, R53). -/

namespace Sys2Proof.Laws

open Sys2Proof.Machine

/-! ## value -/

@[simp] theorem value_nil : value [] = 0 := rfl

theorem foldl_value (q : List Bool) (a : Nat) :
    q.foldl (fun acc b => 2 * acc + b.toNat) a = a * 2 ^ q.length + value q := by
  induction q generalizing a with
  | nil => simp [value]
  | cons b q ih =>
    simp only [List.foldl_cons, value, List.length_cons]
    rw [ih, ih (2 * 0 + b.toNat)]
    ring

theorem value_cons (b : Bool) (q : List Bool) :
    value (b :: q) = b.toNat * 2 ^ q.length + value q := by
  have h := foldl_value q (2 * 0 + b.toNat)
  simpa [value] using h

theorem value_append (p q : List Bool) : value (p ++ q) = value p * 2 ^ q.length + value q := by
  rw [value, List.foldl_append, foldl_value]
  rfl

theorem value_lt (q : List Bool) : value q < 2 ^ q.length := by
  induction q with
  | nil => simp
  | cons b q ih =>
    have hb : b.toNat ≤ 1 := Bool.toNat_le b
    have := Nat.mul_le_mul_right (2 ^ q.length) hb
    rw [value_cons, List.length_cons, Nat.pow_succ]
    omega

/-- Bit j of a sequence, counted from its first bit, is bit |q| - 1 - j of its value. -/
theorem testBit_value (q : List Bool) (j : Nat) (h : j < q.length) :
    (value q).testBit (q.length - 1 - j) = q[j] := by
  induction q generalizing j with
  | nil => simp at h
  | cons b q ih =>
    have hv := value_lt q
    rw [value_cons]
    cases j with
    | zero =>
      simp only [List.length_cons, Nat.add_sub_cancel, Nat.sub_zero, List.getElem_cons_zero]
      rw [Nat.mul_comm, Nat.testBit_two_pow_mul_add _ hv]
      cases b <;> simp
    | succ j =>
      have hj : j < q.length := by simpa using h
      have e : (b :: q).length - 1 - (j + 1) = q.length - 1 - j := by
        simp only [List.length_cons]; omega
      rw [e, Nat.mul_comm, Nat.testBit_two_pow_mul_add _ hv, if_pos (by omega)]
      simpa using ih j hj

/-- Two sequences of one length with one value are the same. -/
theorem value_inj {p q : List Bool} (hl : p.length = q.length) (h : value p = value q) : p = q := by
  apply List.ext_getElem hl
  intro j h1 h2
  rw [← testBit_value p j h1, ← testBit_value q j h2, hl, h]

/-! ## Bytes -/

@[simp] theorem length_bitsOf (b : Byte) : (bitsOf b).length = 8 := rfl

theorem bitsOf_getElem (b : Byte) (j : Nat) (h : j < 8) :
    (bitsOf b)[j]'(by simpa using h) = b.getLsbD (7 - j) := by
  rcases j with _ | _ | _ | _ | _ | _ | _ | _ | j <;> first | rfl | omega

/-- bitsOf undoes byteOf on a sequence of length 8. -/
theorem bitsOf_byteOf (q : List Bool) (h : q.length = 8) : bitsOf (byteOf q) = q := by
  apply List.ext_getElem (by simp [h])
  intro j h1 h2
  have hj : j < 8 := by simpa using h1
  rw [bitsOf_getElem _ j hj, byteOf, BitVec.getLsbD_ofNat, ← testBit_value q j h2, h]
  simp; omega

/-- byteOf undoes bitsOf. -/
theorem byteOf_bitsOf (b : Byte) : byteOf (bitsOf b) = b := by
  apply BitVec.eq_of_getLsbD_eq
  intro i hi
  rw [byteOf, BitVec.getLsbD_ofNat]
  have h := testBit_value (bitsOf b) (7 - i) (by simp; omega)
  rw [bitsOf_getElem _ _ (by omega), length_bitsOf, show 8 - 1 - (7 - i) = i by omega] at h
  simp [h, hi]

/-! ## Whole bytes and the leftover (R95) -/

@[simp] theorem length_wholeBytes (t : List Bool) : (wholeBytes t).length = t.length / 8 := by
  simp [wholeBytes]

@[simp] theorem length_leftover (t : List Bool) : (leftover t).length = t.length % 8 := by
  simp only [leftover, List.length_drop]
  omega

theorem length_leftover_lt (t : List Bool) : (leftover t).length < 8 := by
  rw [length_leftover]; omega

theorem flatMap_chunks (t : List Bool) (m : Nat) (h : 8 * m ≤ t.length) :
    ((List.range m).map (fun k => byteOf ((t.drop (8 * k)).take 8))).flatMap bitsOf =
      t.take (8 * m) := by
  induction m with
  | zero => simp
  | succ m ih =>
    have h8 : ((t.drop (8 * m)).take 8).length = 8 := by
      simp only [List.length_take, List.length_drop]; omega
    rw [List.range_succ, List.map_append, List.flatMap_append, ih (by omega)]
    simp only [List.map_cons, List.map_nil, List.flatMap_cons, List.flatMap_nil, List.append_nil]
    rw [bitsOf_byteOf _ h8, show 8 * (m + 1) = 8 * m + 8 by ring, List.take_add]

/-- R52, R95: the whole bytes, unpacked, then the leftover, are the sequence itself. -/
theorem unpack_wholeBytes (t : List Bool) : (wholeBytes t).flatMap bitsOf ++ leftover t = t := by
  rw [wholeBytes, flatMap_chunks t _ (by omega), leftover, List.take_append_drop]

/-! ## Pending bits (R41) -/

@[simp] theorem length_pendingBits (s : State) : (pendingBits s).length = s.encNpend.toNat := by
  simp [pendingBits]

theorem length_pendingBits_lt (s : State) : (pendingBits s).length < 8 := by
  rw [length_pendingBits]; exact s.encNpend.isLt

/-- What `setPending` stores, `pendingBits` gives back. -/
theorem pendingBits_setPending (r : List Bool) (s : State) (h : r.length < 8) :
    pendingBits (setPending r s) = r := by
  have hn : (BitVec.ofNat 3 r.length).toNat = r.length := by
    rw [BitVec.toNat_ofNat]; exact Nat.mod_eq_of_lt h
  apply List.ext_getElem
  · rw [length_pendingBits]; exact hn
  · intro j h1 h2
    simp only [pendingBits, setPending, hn, List.getElem_map, List.getElem_range]
    rw [BitVec.getLsbD_ofNat, testBit_value r j h2]
    simp; omega

end Sys2Proof.Laws
end

