-- ==== Sys2Proof/Laws/State.lean ====
section
/-! SUPPORT. What each named update of the state leaves in each field: one lemma per field per update, true by
unfolding, so that no proof unfolds a record update. -/

namespace Sys2Proof.Laws

open Sys2Proof.Machine

/-! ## takeFault (R72) -/

@[simp] theorem takeFault_arg (c : FaultCode) (s : State) : (takeFault c s).arg = s.arg := rfl
@[simp] theorem takeFault_res (c : FaultCode) (s : State) : (takeFault c s).res = s.res := rfl
@[simp] theorem takeFault_flags (c : FaultCode) (s : State) :
    (takeFault c s).flags = withCmdDone s.flags := rfl
@[simp] theorem takeFault_ie (c : FaultCode) (s : State) : (takeFault c s).ie = s.ie := rfl
@[simp] theorem takeFault_busy (c : FaultCode) (s : State) : (takeFault c s).busy = false := rfl
@[simp] theorem takeFault_lCmd (c : FaultCode) (s : State) : (takeFault c s).lCmd = s.lCmd := rfl
@[simp] theorem takeFault_lArg (c : FaultCode) (s : State) : (takeFault c s).lArg = s.lArg := rfl
@[simp] theorem takeFault_outq (c : FaultCode) (s : State) : (takeFault c s).outq = s.outq := rfl
@[simp] theorem takeFault_fault (c : FaultCode) (s : State) : (takeFault c s).fault = true := rfl
@[simp] theorem takeFault_errCode (c : FaultCode) (s : State) : (takeFault c s).errCode = c.code := rfl
@[simp] theorem takeFault_errOp (c : FaultCode) (s : State) :
    (takeFault c s).errOp = s.lCmd.extractLsb' 24 8 := rfl
@[simp] theorem takeFault_freq (c : FaultCode) (s : State) : (takeFault c s).freq = s.freq := rfl
@[simp] theorem takeFault_histTotal (c : FaultCode) (s : State) :
    (takeFault c s).histTotal = s.histTotal := rfl
@[simp] theorem takeFault_node (c : FaultCode) (s : State) : (takeFault c s).node = s.node := rfl
@[simp] theorem takeFault_nodeCount (c : FaultCode) (s : State) :
    (takeFault c s).nodeCount = s.nodeCount := rfl
@[simp] theorem takeFault_leafCount (c : FaultCode) (s : State) :
    (takeFault c s).leafCount = s.leafCount := rfl
@[simp] theorem takeFault_root (c : FaultCode) (s : State) : (takeFault c s).root = s.root := rfl
@[simp] theorem takeFault_treeSrc (c : FaultCode) (s : State) : (takeFault c s).treeSrc = s.treeSrc := rfl
@[simp] theorem takeFault_code (c : FaultCode) (s : State) : (takeFault c s).code = s.code := rfl
@[simp] theorem takeFault_codeMaxLen (c : FaultCode) (s : State) :
    (takeFault c s).codeMaxLen = s.codeMaxLen := rfl
@[simp] theorem takeFault_cost (c : FaultCode) (s : State) : (takeFault c s).cost = s.cost := rfl
@[simp] theorem takeFault_encAcc (c : FaultCode) (s : State) : (takeFault c s).encAcc = s.encAcc := rfl
@[simp] theorem takeFault_encNpend (c : FaultCode) (s : State) : (takeFault c s).encNpend = s.encNpend := rfl
@[simp] theorem takeFault_encBitcnt (c : FaultCode) (s : State) :
    (takeFault c s).encBitcnt = s.encBitcnt := rfl
@[simp] theorem takeFault_decRemain (c : FaultCode) (s : State) :
    (takeFault c s).decRemain = s.decRemain := rfl
@[simp] theorem takeFault_decNode (c : FaultCode) (s : State) : (takeFault c s).decNode = s.decNode := rfl
@[simp] theorem takeFault_decActive (c : FaultCode) (s : State) :
    (takeFault c s).decActive = s.decActive := rfl
@[simp] theorem takeFault_decDone (c : FaultCode) (s : State) : (takeFault c s).decDone = s.decDone := rfl
@[simp] theorem takeFault_decSymcnt (c : FaultCode) (s : State) :
    (takeFault c s).decSymcnt = s.decSymcnt := rfl
@[simp] theorem takeFault_rstAsserted (c : FaultCode) (s : State) :
    (takeFault c s).rstAsserted = s.rstAsserted := rfl
@[simp] theorem takeFault_resp (c : FaultCode) (s : State) : (takeFault c s).resp = s.resp := rfl
@[simp] theorem takeFault_events (c : FaultCode) (s : State) : (takeFault c s).events = s.events := rfl
@[simp] theorem takeFault_draws (c : FaultCode) (s : State) : (takeFault c s).draws = s.draws := rfl

/-! ## commitOk (R71) -/

@[simp] theorem commitOk_arg (s : State) (out : List Byte) : (commitOk s out).arg = s.arg := rfl
@[simp] theorem commitOk_res (s : State) (out : List Byte) : (commitOk s out).res = s.res := rfl
@[simp] theorem commitOk_flags (s : State) (out : List Byte) :
    (commitOk s out).flags = withCmdDone s.flags := rfl
@[simp] theorem commitOk_ie (s : State) (out : List Byte) : (commitOk s out).ie = s.ie := rfl
@[simp] theorem commitOk_busy (s : State) (out : List Byte) : (commitOk s out).busy = false := rfl
@[simp] theorem commitOk_lCmd (s : State) (out : List Byte) : (commitOk s out).lCmd = s.lCmd := rfl
@[simp] theorem commitOk_lArg (s : State) (out : List Byte) : (commitOk s out).lArg = s.lArg := rfl
@[simp] theorem commitOk_outq (s : State) (out : List Byte) : (commitOk s out).outq = s.outq ++ out := rfl
@[simp] theorem commitOk_fault (s : State) (out : List Byte) : (commitOk s out).fault = s.fault := rfl
@[simp] theorem commitOk_errCode (s : State) (out : List Byte) : (commitOk s out).errCode = s.errCode := rfl
@[simp] theorem commitOk_errOp (s : State) (out : List Byte) : (commitOk s out).errOp = s.errOp := rfl
@[simp] theorem commitOk_freq (s : State) (out : List Byte) : (commitOk s out).freq = s.freq := rfl
@[simp] theorem commitOk_histTotal (s : State) (out : List Byte) :
    (commitOk s out).histTotal = s.histTotal := rfl
@[simp] theorem commitOk_node (s : State) (out : List Byte) : (commitOk s out).node = s.node := rfl
@[simp] theorem commitOk_nodeCount (s : State) (out : List Byte) :
    (commitOk s out).nodeCount = s.nodeCount := rfl
@[simp] theorem commitOk_leafCount (s : State) (out : List Byte) :
    (commitOk s out).leafCount = s.leafCount := rfl
@[simp] theorem commitOk_root (s : State) (out : List Byte) : (commitOk s out).root = s.root := rfl
@[simp] theorem commitOk_treeSrc (s : State) (out : List Byte) : (commitOk s out).treeSrc = s.treeSrc := rfl
@[simp] theorem commitOk_code (s : State) (out : List Byte) : (commitOk s out).code = s.code := rfl
@[simp] theorem commitOk_codeMaxLen (s : State) (out : List Byte) :
    (commitOk s out).codeMaxLen = s.codeMaxLen := rfl
@[simp] theorem commitOk_cost (s : State) (out : List Byte) : (commitOk s out).cost = s.cost := rfl
@[simp] theorem commitOk_encAcc (s : State) (out : List Byte) : (commitOk s out).encAcc = s.encAcc := rfl
@[simp] theorem commitOk_encNpend (s : State) (out : List Byte) :
    (commitOk s out).encNpend = s.encNpend := rfl
@[simp] theorem commitOk_encBitcnt (s : State) (out : List Byte) :
    (commitOk s out).encBitcnt = s.encBitcnt := rfl
@[simp] theorem commitOk_decRemain (s : State) (out : List Byte) :
    (commitOk s out).decRemain = s.decRemain := rfl
@[simp] theorem commitOk_decNode (s : State) (out : List Byte) : (commitOk s out).decNode = s.decNode := rfl
@[simp] theorem commitOk_decActive (s : State) (out : List Byte) :
    (commitOk s out).decActive = s.decActive := rfl
@[simp] theorem commitOk_decDone (s : State) (out : List Byte) : (commitOk s out).decDone = s.decDone := rfl
@[simp] theorem commitOk_decSymcnt (s : State) (out : List Byte) :
    (commitOk s out).decSymcnt = s.decSymcnt := rfl
@[simp] theorem commitOk_rstAsserted (s : State) (out : List Byte) :
    (commitOk s out).rstAsserted = s.rstAsserted := rfl
@[simp] theorem commitOk_resp (s : State) (out : List Byte) : (commitOk s out).resp = s.resp := rfl
@[simp] theorem commitOk_events (s : State) (out : List Byte) : (commitOk s out).events = s.events := rfl
@[simp] theorem commitOk_draws (s : State) (out : List Byte) : (commitOk s out).draws = s.draws := rfl

/-! ## clearDecoder (R83) -/

@[simp] theorem clearDecoder_arg (r : Index) (s : State) : (clearDecoder r s).arg = s.arg := rfl
@[simp] theorem clearDecoder_res (r : Index) (s : State) : (clearDecoder r s).res = s.res := rfl
@[simp] theorem clearDecoder_flags (r : Index) (s : State) : (clearDecoder r s).flags = s.flags := rfl
@[simp] theorem clearDecoder_ie (r : Index) (s : State) : (clearDecoder r s).ie = s.ie := rfl
@[simp] theorem clearDecoder_busy (r : Index) (s : State) : (clearDecoder r s).busy = s.busy := rfl
@[simp] theorem clearDecoder_lCmd (r : Index) (s : State) : (clearDecoder r s).lCmd = s.lCmd := rfl
@[simp] theorem clearDecoder_lArg (r : Index) (s : State) : (clearDecoder r s).lArg = s.lArg := rfl
@[simp] theorem clearDecoder_outq (r : Index) (s : State) : (clearDecoder r s).outq = s.outq := rfl
@[simp] theorem clearDecoder_fault (r : Index) (s : State) : (clearDecoder r s).fault = s.fault := rfl
@[simp] theorem clearDecoder_errCode (r : Index) (s : State) : (clearDecoder r s).errCode = s.errCode := rfl
@[simp] theorem clearDecoder_errOp (r : Index) (s : State) : (clearDecoder r s).errOp = s.errOp := rfl
@[simp] theorem clearDecoder_freq (r : Index) (s : State) : (clearDecoder r s).freq = s.freq := rfl
@[simp] theorem clearDecoder_histTotal (r : Index) (s : State) :
    (clearDecoder r s).histTotal = s.histTotal := rfl
@[simp] theorem clearDecoder_node (r : Index) (s : State) : (clearDecoder r s).node = s.node := rfl
@[simp] theorem clearDecoder_nodeCount (r : Index) (s : State) :
    (clearDecoder r s).nodeCount = s.nodeCount := rfl
@[simp] theorem clearDecoder_leafCount (r : Index) (s : State) :
    (clearDecoder r s).leafCount = s.leafCount := rfl
@[simp] theorem clearDecoder_root (r : Index) (s : State) : (clearDecoder r s).root = s.root := rfl
@[simp] theorem clearDecoder_treeSrc (r : Index) (s : State) : (clearDecoder r s).treeSrc = s.treeSrc := rfl
@[simp] theorem clearDecoder_code (r : Index) (s : State) : (clearDecoder r s).code = s.code := rfl
@[simp] theorem clearDecoder_codeMaxLen (r : Index) (s : State) :
    (clearDecoder r s).codeMaxLen = s.codeMaxLen := rfl
@[simp] theorem clearDecoder_cost (r : Index) (s : State) : (clearDecoder r s).cost = s.cost := rfl
@[simp] theorem clearDecoder_encAcc (r : Index) (s : State) : (clearDecoder r s).encAcc = s.encAcc := rfl
@[simp] theorem clearDecoder_encNpend (r : Index) (s : State) :
    (clearDecoder r s).encNpend = s.encNpend := rfl
@[simp] theorem clearDecoder_encBitcnt (r : Index) (s : State) :
    (clearDecoder r s).encBitcnt = s.encBitcnt := rfl
@[simp] theorem clearDecoder_decRemain (r : Index) (s : State) : (clearDecoder r s).decRemain = 0 := rfl
@[simp] theorem clearDecoder_decNode (r : Index) (s : State) : (clearDecoder r s).decNode = r := rfl
@[simp] theorem clearDecoder_decActive (r : Index) (s : State) : (clearDecoder r s).decActive = false := rfl
@[simp] theorem clearDecoder_decDone (r : Index) (s : State) : (clearDecoder r s).decDone = false := rfl
@[simp] theorem clearDecoder_decSymcnt (r : Index) (s : State) : (clearDecoder r s).decSymcnt = 0 := rfl
@[simp] theorem clearDecoder_rstAsserted (r : Index) (s : State) :
    (clearDecoder r s).rstAsserted = s.rstAsserted := rfl
@[simp] theorem clearDecoder_resp (r : Index) (s : State) : (clearDecoder r s).resp = s.resp := rfl
@[simp] theorem clearDecoder_events (r : Index) (s : State) : (clearDecoder r s).events = s.events := rfl
@[simp] theorem clearDecoder_draws (r : Index) (s : State) : (clearDecoder r s).draws = s.draws := rfl

/-! ## clearCodes (R83) -/

@[simp] theorem clearCodes_arg (s : State) : (clearCodes s).arg = s.arg := rfl
@[simp] theorem clearCodes_res (s : State) : (clearCodes s).res = s.res := rfl
@[simp] theorem clearCodes_flags (s : State) : (clearCodes s).flags = s.flags := rfl
@[simp] theorem clearCodes_ie (s : State) : (clearCodes s).ie = s.ie := rfl
@[simp] theorem clearCodes_busy (s : State) : (clearCodes s).busy = s.busy := rfl
@[simp] theorem clearCodes_lCmd (s : State) : (clearCodes s).lCmd = s.lCmd := rfl
@[simp] theorem clearCodes_lArg (s : State) : (clearCodes s).lArg = s.lArg := rfl
@[simp] theorem clearCodes_outq (s : State) : (clearCodes s).outq = s.outq := rfl
@[simp] theorem clearCodes_fault (s : State) : (clearCodes s).fault = s.fault := rfl
@[simp] theorem clearCodes_errCode (s : State) : (clearCodes s).errCode = s.errCode := rfl
@[simp] theorem clearCodes_errOp (s : State) : (clearCodes s).errOp = s.errOp := rfl
@[simp] theorem clearCodes_freq (s : State) : (clearCodes s).freq = s.freq := rfl
@[simp] theorem clearCodes_histTotal (s : State) : (clearCodes s).histTotal = s.histTotal := rfl
@[simp] theorem clearCodes_node (s : State) : (clearCodes s).node = s.node := rfl
@[simp] theorem clearCodes_nodeCount (s : State) : (clearCodes s).nodeCount = s.nodeCount := rfl
@[simp] theorem clearCodes_leafCount (s : State) : (clearCodes s).leafCount = s.leafCount := rfl
@[simp] theorem clearCodes_root (s : State) : (clearCodes s).root = s.root := rfl
@[simp] theorem clearCodes_treeSrc (s : State) : (clearCodes s).treeSrc = s.treeSrc := rfl
@[simp] theorem clearCodes_code (s : State) :
    (clearCodes s).code = Vector.replicate 256 CodeEntry.invalid := rfl
@[simp] theorem clearCodes_codeMaxLen (s : State) : (clearCodes s).codeMaxLen = 0 := rfl
@[simp] theorem clearCodes_cost (s : State) : (clearCodes s).cost = 0 := rfl
@[simp] theorem clearCodes_encAcc (s : State) : (clearCodes s).encAcc = s.encAcc := rfl
@[simp] theorem clearCodes_encNpend (s : State) : (clearCodes s).encNpend = s.encNpend := rfl
@[simp] theorem clearCodes_encBitcnt (s : State) : (clearCodes s).encBitcnt = s.encBitcnt := rfl
@[simp] theorem clearCodes_decRemain (s : State) : (clearCodes s).decRemain = s.decRemain := rfl
@[simp] theorem clearCodes_decNode (s : State) : (clearCodes s).decNode = s.decNode := rfl
@[simp] theorem clearCodes_decActive (s : State) : (clearCodes s).decActive = s.decActive := rfl
@[simp] theorem clearCodes_decDone (s : State) : (clearCodes s).decDone = s.decDone := rfl
@[simp] theorem clearCodes_decSymcnt (s : State) : (clearCodes s).decSymcnt = s.decSymcnt := rfl
@[simp] theorem clearCodes_rstAsserted (s : State) : (clearCodes s).rstAsserted = s.rstAsserted := rfl
@[simp] theorem clearCodes_resp (s : State) : (clearCodes s).resp = s.resp := rfl
@[simp] theorem clearCodes_events (s : State) : (clearCodes s).events = s.events := rfl
@[simp] theorem clearCodes_draws (s : State) : (clearCodes s).draws = s.draws := rfl

/-! ## clearTree (R88) -/

@[simp] theorem clearTree_arg (s : State) : (clearTree s).arg = s.arg := rfl
@[simp] theorem clearTree_res (s : State) : (clearTree s).res = s.res := rfl
@[simp] theorem clearTree_flags (s : State) : (clearTree s).flags = s.flags := rfl
@[simp] theorem clearTree_ie (s : State) : (clearTree s).ie = s.ie := rfl
@[simp] theorem clearTree_busy (s : State) : (clearTree s).busy = s.busy := rfl
@[simp] theorem clearTree_lCmd (s : State) : (clearTree s).lCmd = s.lCmd := rfl
@[simp] theorem clearTree_lArg (s : State) : (clearTree s).lArg = s.lArg := rfl
@[simp] theorem clearTree_outq (s : State) : (clearTree s).outq = s.outq := rfl
@[simp] theorem clearTree_fault (s : State) : (clearTree s).fault = s.fault := rfl
@[simp] theorem clearTree_errCode (s : State) : (clearTree s).errCode = s.errCode := rfl
@[simp] theorem clearTree_errOp (s : State) : (clearTree s).errOp = s.errOp := rfl
@[simp] theorem clearTree_freq (s : State) : (clearTree s).freq = s.freq := rfl
@[simp] theorem clearTree_histTotal (s : State) : (clearTree s).histTotal = s.histTotal := rfl
@[simp] theorem clearTree_node (s : State) : (clearTree s).node = s.node := rfl
@[simp] theorem clearTree_nodeCount (s : State) : (clearTree s).nodeCount = 0 := rfl
@[simp] theorem clearTree_leafCount (s : State) : (clearTree s).leafCount = 0 := rfl
@[simp] theorem clearTree_root (s : State) : (clearTree s).root = Config.nil := rfl
@[simp] theorem clearTree_treeSrc (s : State) : (clearTree s).treeSrc = .built := rfl
@[simp] theorem clearTree_code (s : State) :
    (clearTree s).code = Vector.replicate 256 CodeEntry.invalid := rfl
@[simp] theorem clearTree_codeMaxLen (s : State) : (clearTree s).codeMaxLen = 0 := rfl
@[simp] theorem clearTree_cost (s : State) : (clearTree s).cost = 0 := rfl
@[simp] theorem clearTree_encAcc (s : State) : (clearTree s).encAcc = s.encAcc := rfl
@[simp] theorem clearTree_encNpend (s : State) : (clearTree s).encNpend = s.encNpend := rfl
@[simp] theorem clearTree_encBitcnt (s : State) : (clearTree s).encBitcnt = s.encBitcnt := rfl
@[simp] theorem clearTree_decRemain (s : State) : (clearTree s).decRemain = 0 := rfl
@[simp] theorem clearTree_decNode (s : State) : (clearTree s).decNode = Config.nil := rfl
@[simp] theorem clearTree_decActive (s : State) : (clearTree s).decActive = false := rfl
@[simp] theorem clearTree_decDone (s : State) : (clearTree s).decDone = false := rfl
@[simp] theorem clearTree_decSymcnt (s : State) : (clearTree s).decSymcnt = 0 := rfl
@[simp] theorem clearTree_rstAsserted (s : State) : (clearTree s).rstAsserted = s.rstAsserted := rfl
@[simp] theorem clearTree_resp (s : State) : (clearTree s).resp = s.resp := rfl
@[simp] theorem clearTree_events (s : State) : (clearTree s).events = s.events := rfl
@[simp] theorem clearTree_draws (s : State) : (clearTree s).draws = s.draws := rfl

/-! ## leaveFault (R77, R108) -/

@[simp] theorem leaveFault_arg (s : State) : (leaveFault s).arg = s.arg := rfl
@[simp] theorem leaveFault_res (s : State) : (leaveFault s).res = Vector.replicate 9 0 := rfl
@[simp] theorem leaveFault_flags (s : State) : (leaveFault s).flags = s.flags := rfl
@[simp] theorem leaveFault_ie (s : State) : (leaveFault s).ie = s.ie := rfl
@[simp] theorem leaveFault_busy (s : State) : (leaveFault s).busy = s.busy := rfl
@[simp] theorem leaveFault_lCmd (s : State) : (leaveFault s).lCmd = s.lCmd := rfl
@[simp] theorem leaveFault_lArg (s : State) : (leaveFault s).lArg = s.lArg := rfl
@[simp] theorem leaveFault_outq (s : State) : (leaveFault s).outq = [] := rfl
@[simp] theorem leaveFault_fault (s : State) : (leaveFault s).fault = false := rfl
@[simp] theorem leaveFault_errCode (s : State) : (leaveFault s).errCode = 0 := rfl
@[simp] theorem leaveFault_errOp (s : State) : (leaveFault s).errOp = 0 := rfl
@[simp] theorem leaveFault_freq (s : State) : (leaveFault s).freq = Vector.replicate 256 0 := rfl
@[simp] theorem leaveFault_histTotal (s : State) : (leaveFault s).histTotal = 0 := rfl
@[simp] theorem leaveFault_node (s : State) : (leaveFault s).node = s.node := rfl
@[simp] theorem leaveFault_nodeCount (s : State) : (leaveFault s).nodeCount = 0 := rfl
@[simp] theorem leaveFault_leafCount (s : State) : (leaveFault s).leafCount = 0 := rfl
@[simp] theorem leaveFault_root (s : State) : (leaveFault s).root = Config.nil := rfl
@[simp] theorem leaveFault_treeSrc (s : State) : (leaveFault s).treeSrc = .built := rfl
@[simp] theorem leaveFault_code (s : State) :
    (leaveFault s).code = Vector.replicate 256 CodeEntry.invalid := rfl
@[simp] theorem leaveFault_codeMaxLen (s : State) : (leaveFault s).codeMaxLen = 0 := rfl
@[simp] theorem leaveFault_cost (s : State) : (leaveFault s).cost = 0 := rfl
@[simp] theorem leaveFault_encAcc (s : State) : (leaveFault s).encAcc = 0 := rfl
@[simp] theorem leaveFault_encNpend (s : State) : (leaveFault s).encNpend = 0 := rfl
@[simp] theorem leaveFault_encBitcnt (s : State) : (leaveFault s).encBitcnt = 0 := rfl
@[simp] theorem leaveFault_decRemain (s : State) : (leaveFault s).decRemain = 0 := rfl
@[simp] theorem leaveFault_decNode (s : State) : (leaveFault s).decNode = Config.nil := rfl
@[simp] theorem leaveFault_decActive (s : State) : (leaveFault s).decActive = false := rfl
@[simp] theorem leaveFault_decDone (s : State) : (leaveFault s).decDone = false := rfl
@[simp] theorem leaveFault_decSymcnt (s : State) : (leaveFault s).decSymcnt = 0 := rfl
@[simp] theorem leaveFault_rstAsserted (s : State) : (leaveFault s).rstAsserted = s.rstAsserted := rfl
@[simp] theorem leaveFault_resp (s : State) : (leaveFault s).resp = s.resp := rfl
@[simp] theorem leaveFault_events (s : State) : (leaveFault s).events = s.events := rfl
@[simp] theorem leaveFault_draws (s : State) : (leaveFault s).draws = s.draws := rfl

/-! ## setPending (R95) -/

@[simp] theorem setPending_arg (r : List Bool) (s : State) : (setPending r s).arg = s.arg := rfl
@[simp] theorem setPending_res (r : List Bool) (s : State) : (setPending r s).res = s.res := rfl
@[simp] theorem setPending_flags (r : List Bool) (s : State) : (setPending r s).flags = s.flags := rfl
@[simp] theorem setPending_ie (r : List Bool) (s : State) : (setPending r s).ie = s.ie := rfl
@[simp] theorem setPending_busy (r : List Bool) (s : State) : (setPending r s).busy = s.busy := rfl
@[simp] theorem setPending_lCmd (r : List Bool) (s : State) : (setPending r s).lCmd = s.lCmd := rfl
@[simp] theorem setPending_lArg (r : List Bool) (s : State) : (setPending r s).lArg = s.lArg := rfl
@[simp] theorem setPending_outq (r : List Bool) (s : State) : (setPending r s).outq = s.outq := rfl
@[simp] theorem setPending_fault (r : List Bool) (s : State) : (setPending r s).fault = s.fault := rfl
@[simp] theorem setPending_errCode (r : List Bool) (s : State) : (setPending r s).errCode = s.errCode := rfl
@[simp] theorem setPending_errOp (r : List Bool) (s : State) : (setPending r s).errOp = s.errOp := rfl
@[simp] theorem setPending_freq (r : List Bool) (s : State) : (setPending r s).freq = s.freq := rfl
@[simp] theorem setPending_histTotal (r : List Bool) (s : State) :
    (setPending r s).histTotal = s.histTotal := rfl
@[simp] theorem setPending_node (r : List Bool) (s : State) : (setPending r s).node = s.node := rfl
@[simp] theorem setPending_nodeCount (r : List Bool) (s : State) :
    (setPending r s).nodeCount = s.nodeCount := rfl
@[simp] theorem setPending_leafCount (r : List Bool) (s : State) :
    (setPending r s).leafCount = s.leafCount := rfl
@[simp] theorem setPending_root (r : List Bool) (s : State) : (setPending r s).root = s.root := rfl
@[simp] theorem setPending_treeSrc (r : List Bool) (s : State) : (setPending r s).treeSrc = s.treeSrc := rfl
@[simp] theorem setPending_code (r : List Bool) (s : State) : (setPending r s).code = s.code := rfl
@[simp] theorem setPending_codeMaxLen (r : List Bool) (s : State) :
    (setPending r s).codeMaxLen = s.codeMaxLen := rfl
@[simp] theorem setPending_cost (r : List Bool) (s : State) : (setPending r s).cost = s.cost := rfl
@[simp] theorem setPending_encAcc (r : List Bool) (s : State) :
    (setPending r s).encAcc = BitVec.ofNat 7 (value r) := rfl
@[simp] theorem setPending_encNpend (r : List Bool) (s : State) :
    (setPending r s).encNpend = BitVec.ofNat 3 r.length := rfl
@[simp] theorem setPending_encBitcnt (r : List Bool) (s : State) :
    (setPending r s).encBitcnt = s.encBitcnt := rfl
@[simp] theorem setPending_decRemain (r : List Bool) (s : State) :
    (setPending r s).decRemain = s.decRemain := rfl
@[simp] theorem setPending_decNode (r : List Bool) (s : State) : (setPending r s).decNode = s.decNode := rfl
@[simp] theorem setPending_decActive (r : List Bool) (s : State) :
    (setPending r s).decActive = s.decActive := rfl
@[simp] theorem setPending_decDone (r : List Bool) (s : State) : (setPending r s).decDone = s.decDone := rfl
@[simp] theorem setPending_decSymcnt (r : List Bool) (s : State) :
    (setPending r s).decSymcnt = s.decSymcnt := rfl
@[simp] theorem setPending_rstAsserted (r : List Bool) (s : State) :
    (setPending r s).rstAsserted = s.rstAsserted := rfl
@[simp] theorem setPending_resp (r : List Bool) (s : State) : (setPending r s).resp = s.resp := rfl
@[simp] theorem setPending_events (r : List Bool) (s : State) : (setPending r s).events = s.events := rfl
@[simp] theorem setPending_draws (r : List Bool) (s : State) : (setPending r s).draws = s.draws := rfl

/-! ## setResults (R19) -/

@[simp] theorem setResults_arg (r0 r1 r2 : Word) (s : State) : (setResults r0 r1 r2 s).arg = s.arg := rfl
@[simp] theorem setResults_res (r0 r1 r2 : Word) (s : State) :
    (setResults r0 r1 r2 s).res = #v[r0, r1, r2, 0, 0, 0, 0, 0, 0] := rfl
@[simp] theorem setResults_flags (r0 r1 r2 : Word) (s : State) :
    (setResults r0 r1 r2 s).flags = s.flags := rfl
@[simp] theorem setResults_ie (r0 r1 r2 : Word) (s : State) : (setResults r0 r1 r2 s).ie = s.ie := rfl
@[simp] theorem setResults_busy (r0 r1 r2 : Word) (s : State) : (setResults r0 r1 r2 s).busy = s.busy := rfl
@[simp] theorem setResults_lCmd (r0 r1 r2 : Word) (s : State) : (setResults r0 r1 r2 s).lCmd = s.lCmd := rfl
@[simp] theorem setResults_lArg (r0 r1 r2 : Word) (s : State) : (setResults r0 r1 r2 s).lArg = s.lArg := rfl
@[simp] theorem setResults_outq (r0 r1 r2 : Word) (s : State) : (setResults r0 r1 r2 s).outq = s.outq := rfl
@[simp] theorem setResults_fault (r0 r1 r2 : Word) (s : State) :
    (setResults r0 r1 r2 s).fault = s.fault := rfl
@[simp] theorem setResults_errCode (r0 r1 r2 : Word) (s : State) :
    (setResults r0 r1 r2 s).errCode = s.errCode := rfl
@[simp] theorem setResults_errOp (r0 r1 r2 : Word) (s : State) :
    (setResults r0 r1 r2 s).errOp = s.errOp := rfl
@[simp] theorem setResults_freq (r0 r1 r2 : Word) (s : State) : (setResults r0 r1 r2 s).freq = s.freq := rfl
@[simp] theorem setResults_histTotal (r0 r1 r2 : Word) (s : State) :
    (setResults r0 r1 r2 s).histTotal = s.histTotal := rfl
@[simp] theorem setResults_node (r0 r1 r2 : Word) (s : State) : (setResults r0 r1 r2 s).node = s.node := rfl
@[simp] theorem setResults_nodeCount (r0 r1 r2 : Word) (s : State) :
    (setResults r0 r1 r2 s).nodeCount = s.nodeCount := rfl
@[simp] theorem setResults_leafCount (r0 r1 r2 : Word) (s : State) :
    (setResults r0 r1 r2 s).leafCount = s.leafCount := rfl
@[simp] theorem setResults_root (r0 r1 r2 : Word) (s : State) : (setResults r0 r1 r2 s).root = s.root := rfl
@[simp] theorem setResults_treeSrc (r0 r1 r2 : Word) (s : State) :
    (setResults r0 r1 r2 s).treeSrc = s.treeSrc := rfl
@[simp] theorem setResults_code (r0 r1 r2 : Word) (s : State) : (setResults r0 r1 r2 s).code = s.code := rfl
@[simp] theorem setResults_codeMaxLen (r0 r1 r2 : Word) (s : State) :
    (setResults r0 r1 r2 s).codeMaxLen = s.codeMaxLen := rfl
@[simp] theorem setResults_cost (r0 r1 r2 : Word) (s : State) : (setResults r0 r1 r2 s).cost = s.cost := rfl
@[simp] theorem setResults_encAcc (r0 r1 r2 : Word) (s : State) :
    (setResults r0 r1 r2 s).encAcc = s.encAcc := rfl
@[simp] theorem setResults_encNpend (r0 r1 r2 : Word) (s : State) :
    (setResults r0 r1 r2 s).encNpend = s.encNpend := rfl
@[simp] theorem setResults_encBitcnt (r0 r1 r2 : Word) (s : State) :
    (setResults r0 r1 r2 s).encBitcnt = s.encBitcnt := rfl
@[simp] theorem setResults_decRemain (r0 r1 r2 : Word) (s : State) :
    (setResults r0 r1 r2 s).decRemain = s.decRemain := rfl
@[simp] theorem setResults_decNode (r0 r1 r2 : Word) (s : State) :
    (setResults r0 r1 r2 s).decNode = s.decNode := rfl
@[simp] theorem setResults_decActive (r0 r1 r2 : Word) (s : State) :
    (setResults r0 r1 r2 s).decActive = s.decActive := rfl
@[simp] theorem setResults_decDone (r0 r1 r2 : Word) (s : State) :
    (setResults r0 r1 r2 s).decDone = s.decDone := rfl
@[simp] theorem setResults_decSymcnt (r0 r1 r2 : Word) (s : State) :
    (setResults r0 r1 r2 s).decSymcnt = s.decSymcnt := rfl
@[simp] theorem setResults_rstAsserted (r0 r1 r2 : Word) (s : State) :
    (setResults r0 r1 r2 s).rstAsserted = s.rstAsserted := rfl
@[simp] theorem setResults_resp (r0 r1 r2 : Word) (s : State) : (setResults r0 r1 r2 s).resp = s.resp := rfl
@[simp] theorem setResults_events (r0 r1 r2 : Word) (s : State) :
    (setResults r0 r1 r2 s).events = s.events := rfl
@[simp] theorem setResults_draws (r0 r1 r2 : Word) (s : State) :
    (setResults r0 r1 r2 s).draws = s.draws := rfl

/-! ## withLoadedCode (R89) -/

@[simp] theorem withLoadedCode_arg (sym : Byte) (q : List Bool) (n : NodeMem) (cnt : Nat) (s : State) :
    (withLoadedCode sym q n cnt s).arg = s.arg := rfl
@[simp] theorem withLoadedCode_res (sym : Byte) (q : List Bool) (n : NodeMem) (cnt : Nat) (s : State) :
    (withLoadedCode sym q n cnt s).res = s.res := rfl
@[simp] theorem withLoadedCode_flags (sym : Byte) (q : List Bool) (n : NodeMem) (cnt : Nat) (s : State) :
    (withLoadedCode sym q n cnt s).flags = s.flags := rfl
@[simp] theorem withLoadedCode_ie (sym : Byte) (q : List Bool) (n : NodeMem) (cnt : Nat) (s : State) :
    (withLoadedCode sym q n cnt s).ie = s.ie := rfl
@[simp] theorem withLoadedCode_busy (sym : Byte) (q : List Bool) (n : NodeMem) (cnt : Nat) (s : State) :
    (withLoadedCode sym q n cnt s).busy = s.busy := rfl
@[simp] theorem withLoadedCode_lCmd (sym : Byte) (q : List Bool) (n : NodeMem) (cnt : Nat) (s : State) :
    (withLoadedCode sym q n cnt s).lCmd = s.lCmd := rfl
@[simp] theorem withLoadedCode_lArg (sym : Byte) (q : List Bool) (n : NodeMem) (cnt : Nat) (s : State) :
    (withLoadedCode sym q n cnt s).lArg = s.lArg := rfl
@[simp] theorem withLoadedCode_outq (sym : Byte) (q : List Bool) (n : NodeMem) (cnt : Nat) (s : State) :
    (withLoadedCode sym q n cnt s).outq = s.outq := rfl
@[simp] theorem withLoadedCode_fault (sym : Byte) (q : List Bool) (n : NodeMem) (cnt : Nat) (s : State) :
    (withLoadedCode sym q n cnt s).fault = s.fault := rfl
@[simp] theorem withLoadedCode_errCode (sym : Byte) (q : List Bool) (n : NodeMem) (cnt : Nat) (s : State) :
    (withLoadedCode sym q n cnt s).errCode = s.errCode := rfl
@[simp] theorem withLoadedCode_errOp (sym : Byte) (q : List Bool) (n : NodeMem) (cnt : Nat) (s : State) :
    (withLoadedCode sym q n cnt s).errOp = s.errOp := rfl
@[simp] theorem withLoadedCode_freq (sym : Byte) (q : List Bool) (n : NodeMem) (cnt : Nat) (s : State) :
    (withLoadedCode sym q n cnt s).freq = s.freq := rfl
@[simp] theorem withLoadedCode_histTotal (sym : Byte) (q : List Bool) (n : NodeMem) (cnt : Nat) (s : State) :
    (withLoadedCode sym q n cnt s).histTotal = s.histTotal := rfl
@[simp] theorem withLoadedCode_node (sym : Byte) (q : List Bool) (n : NodeMem) (cnt : Nat) (s : State) :
    (withLoadedCode sym q n cnt s).node = n := rfl
@[simp] theorem withLoadedCode_nodeCount (sym : Byte) (q : List Bool) (n : NodeMem) (cnt : Nat) (s : State) :
    (withLoadedCode sym q n cnt s).nodeCount = BitVec.ofNat 9 cnt := rfl
@[simp] theorem withLoadedCode_leafCount (sym : Byte) (q : List Bool) (n : NodeMem) (cnt : Nat) (s : State) :
    (withLoadedCode sym q n cnt s).leafCount = s.leafCount + 1 := rfl
@[simp] theorem withLoadedCode_root (sym : Byte) (q : List Bool) (n : NodeMem) (cnt : Nat) (s : State) :
    (withLoadedCode sym q n cnt s).root = 0 := rfl
@[simp] theorem withLoadedCode_treeSrc (sym : Byte) (q : List Bool) (n : NodeMem) (cnt : Nat) (s : State) :
    (withLoadedCode sym q n cnt s).treeSrc = .loaded := rfl
@[simp] theorem withLoadedCode_code (sym : Byte) (q : List Bool) (n : NodeMem) (cnt : Nat) (s : State) :
    (withLoadedCode sym q n cnt s).code = s.code.set sym.toNat ⟨true, q⟩ := rfl
@[simp] theorem withLoadedCode_codeMaxLen (sym : Byte) (q : List Bool) (n : NodeMem) (cnt : Nat) (s : State) :
    (withLoadedCode sym q n cnt s).codeMaxLen = BitVec.ofNat 8 (max s.codeMaxLen.toNat q.length) := rfl
@[simp] theorem withLoadedCode_cost (sym : Byte) (q : List Bool) (n : NodeMem) (cnt : Nat) (s : State) :
    (withLoadedCode sym q n cnt s).cost = 0 := rfl
@[simp] theorem withLoadedCode_encAcc (sym : Byte) (q : List Bool) (n : NodeMem) (cnt : Nat) (s : State) :
    (withLoadedCode sym q n cnt s).encAcc = s.encAcc := rfl
@[simp] theorem withLoadedCode_encNpend (sym : Byte) (q : List Bool) (n : NodeMem) (cnt : Nat) (s : State) :
    (withLoadedCode sym q n cnt s).encNpend = s.encNpend := rfl
@[simp] theorem withLoadedCode_encBitcnt (sym : Byte) (q : List Bool) (n : NodeMem) (cnt : Nat) (s : State) :
    (withLoadedCode sym q n cnt s).encBitcnt = s.encBitcnt := rfl
@[simp] theorem withLoadedCode_decRemain (sym : Byte) (q : List Bool) (n : NodeMem) (cnt : Nat) (s : State) :
    (withLoadedCode sym q n cnt s).decRemain = 0 := rfl
@[simp] theorem withLoadedCode_decNode (sym : Byte) (q : List Bool) (n : NodeMem) (cnt : Nat) (s : State) :
    (withLoadedCode sym q n cnt s).decNode = 0 := rfl
@[simp] theorem withLoadedCode_decActive (sym : Byte) (q : List Bool) (n : NodeMem) (cnt : Nat) (s : State) :
    (withLoadedCode sym q n cnt s).decActive = false := rfl
@[simp] theorem withLoadedCode_decDone (sym : Byte) (q : List Bool) (n : NodeMem) (cnt : Nat) (s : State) :
    (withLoadedCode sym q n cnt s).decDone = false := rfl
@[simp] theorem withLoadedCode_decSymcnt (sym : Byte) (q : List Bool) (n : NodeMem) (cnt : Nat) (s : State) :
    (withLoadedCode sym q n cnt s).decSymcnt = 0 := rfl
@[simp] theorem withLoadedCode_rstAsserted (sym : Byte) (q : List Bool) (n : NodeMem) (cnt : Nat) (s : State) :
    (withLoadedCode sym q n cnt s).rstAsserted = s.rstAsserted := rfl
@[simp] theorem withLoadedCode_resp (sym : Byte) (q : List Bool) (n : NodeMem) (cnt : Nat) (s : State) :
    (withLoadedCode sym q n cnt s).resp = s.resp := rfl
@[simp] theorem withLoadedCode_events (sym : Byte) (q : List Bool) (n : NodeMem) (cnt : Nat) (s : State) :
    (withLoadedCode sym q n cnt s).events = s.events := rfl
@[simp] theorem withLoadedCode_draws (sym : Byte) (q : List Bool) (n : NodeMem) (cnt : Nat) (s : State) :
    (withLoadedCode sym q n cnt s).draws = s.draws := rfl

/-! ## latchCommand (R69) -/

@[simp] theorem latchCommand_arg (v : Word) (s : State) : (latchCommand v s).arg = s.arg := rfl
@[simp] theorem latchCommand_res (v : Word) (s : State) : (latchCommand v s).res = s.res := rfl
@[simp] theorem latchCommand_flags (v : Word) (s : State) : (latchCommand v s).flags = s.flags := rfl
@[simp] theorem latchCommand_ie (v : Word) (s : State) : (latchCommand v s).ie = s.ie := rfl
@[simp] theorem latchCommand_busy (v : Word) (s : State) : (latchCommand v s).busy = true := rfl
@[simp] theorem latchCommand_lCmd (v : Word) (s : State) : (latchCommand v s).lCmd = v := rfl
@[simp] theorem latchCommand_lArg (v : Word) (s : State) : (latchCommand v s).lArg = s.arg := rfl
@[simp] theorem latchCommand_outq (v : Word) (s : State) : (latchCommand v s).outq = s.outq := rfl
@[simp] theorem latchCommand_fault (v : Word) (s : State) : (latchCommand v s).fault = s.fault := rfl
@[simp] theorem latchCommand_errCode (v : Word) (s : State) : (latchCommand v s).errCode = s.errCode := rfl
@[simp] theorem latchCommand_errOp (v : Word) (s : State) : (latchCommand v s).errOp = s.errOp := rfl
@[simp] theorem latchCommand_freq (v : Word) (s : State) : (latchCommand v s).freq = s.freq := rfl
@[simp] theorem latchCommand_histTotal (v : Word) (s : State) :
    (latchCommand v s).histTotal = s.histTotal := rfl
@[simp] theorem latchCommand_node (v : Word) (s : State) : (latchCommand v s).node = s.node := rfl
@[simp] theorem latchCommand_nodeCount (v : Word) (s : State) :
    (latchCommand v s).nodeCount = s.nodeCount := rfl
@[simp] theorem latchCommand_leafCount (v : Word) (s : State) :
    (latchCommand v s).leafCount = s.leafCount := rfl
@[simp] theorem latchCommand_root (v : Word) (s : State) : (latchCommand v s).root = s.root := rfl
@[simp] theorem latchCommand_treeSrc (v : Word) (s : State) : (latchCommand v s).treeSrc = s.treeSrc := rfl
@[simp] theorem latchCommand_code (v : Word) (s : State) : (latchCommand v s).code = s.code := rfl
@[simp] theorem latchCommand_codeMaxLen (v : Word) (s : State) :
    (latchCommand v s).codeMaxLen = s.codeMaxLen := rfl
@[simp] theorem latchCommand_cost (v : Word) (s : State) : (latchCommand v s).cost = s.cost := rfl
@[simp] theorem latchCommand_encAcc (v : Word) (s : State) : (latchCommand v s).encAcc = s.encAcc := rfl
@[simp] theorem latchCommand_encNpend (v : Word) (s : State) : (latchCommand v s).encNpend = s.encNpend := rfl
@[simp] theorem latchCommand_encBitcnt (v : Word) (s : State) :
    (latchCommand v s).encBitcnt = s.encBitcnt := rfl
@[simp] theorem latchCommand_decRemain (v : Word) (s : State) :
    (latchCommand v s).decRemain = s.decRemain := rfl
@[simp] theorem latchCommand_decNode (v : Word) (s : State) : (latchCommand v s).decNode = s.decNode := rfl
@[simp] theorem latchCommand_decActive (v : Word) (s : State) :
    (latchCommand v s).decActive = s.decActive := rfl
@[simp] theorem latchCommand_decDone (v : Word) (s : State) : (latchCommand v s).decDone = s.decDone := rfl
@[simp] theorem latchCommand_decSymcnt (v : Word) (s : State) :
    (latchCommand v s).decSymcnt = s.decSymcnt := rfl
@[simp] theorem latchCommand_rstAsserted (v : Word) (s : State) :
    (latchCommand v s).rstAsserted = s.rstAsserted := rfl
@[simp] theorem latchCommand_resp (v : Word) (s : State) : (latchCommand v s).resp = s.resp := rfl
@[simp] theorem latchCommand_events (v : Word) (s : State) : (latchCommand v s).events = s.events := rfl
@[simp] theorem latchCommand_draws (v : Word) (s : State) : (latchCommand v s).draws = s.draws := rfl

/-! ## resetWith (R17, R120) -/

@[simp] theorem resetWith_arg (k : Nat) : (State.resetWith k).arg = Vector.replicate 8 0 := rfl
@[simp] theorem resetWith_res (k : Nat) : (State.resetWith k).res = Vector.replicate 9 0 := rfl
@[simp] theorem resetWith_flags (k : Nat) : (State.resetWith k).flags = 0 := rfl
@[simp] theorem resetWith_ie (k : Nat) : (State.resetWith k).ie = 0 := rfl
@[simp] theorem resetWith_busy (k : Nat) : (State.resetWith k).busy = false := rfl
@[simp] theorem resetWith_lCmd (k : Nat) : (State.resetWith k).lCmd = 0 := rfl
@[simp] theorem resetWith_lArg (k : Nat) : (State.resetWith k).lArg = Vector.replicate 8 0 := rfl
@[simp] theorem resetWith_outq (k : Nat) : (State.resetWith k).outq = [] := rfl
@[simp] theorem resetWith_fault (k : Nat) : (State.resetWith k).fault = false := rfl
@[simp] theorem resetWith_errCode (k : Nat) : (State.resetWith k).errCode = 0 := rfl
@[simp] theorem resetWith_errOp (k : Nat) : (State.resetWith k).errOp = 0 := rfl
@[simp] theorem resetWith_freq (k : Nat) : (State.resetWith k).freq = Vector.replicate 256 0 := rfl
@[simp] theorem resetWith_histTotal (k : Nat) : (State.resetWith k).histTotal = 0 := rfl
@[simp] theorem resetWith_node (k : Nat) : (State.resetWith k).node = drawnNodes k := rfl
@[simp] theorem resetWith_nodeCount (k : Nat) : (State.resetWith k).nodeCount = 0 := rfl
@[simp] theorem resetWith_leafCount (k : Nat) : (State.resetWith k).leafCount = 0 := rfl
@[simp] theorem resetWith_root (k : Nat) : (State.resetWith k).root = Config.nil := rfl
@[simp] theorem resetWith_treeSrc (k : Nat) : (State.resetWith k).treeSrc = .built := rfl
@[simp] theorem resetWith_code (k : Nat) :
    (State.resetWith k).code = Vector.replicate 256 CodeEntry.invalid := rfl
@[simp] theorem resetWith_codeMaxLen (k : Nat) : (State.resetWith k).codeMaxLen = 0 := rfl
@[simp] theorem resetWith_cost (k : Nat) : (State.resetWith k).cost = 0 := rfl
@[simp] theorem resetWith_encAcc (k : Nat) : (State.resetWith k).encAcc = 0 := rfl
@[simp] theorem resetWith_encNpend (k : Nat) : (State.resetWith k).encNpend = 0 := rfl
@[simp] theorem resetWith_encBitcnt (k : Nat) : (State.resetWith k).encBitcnt = 0 := rfl
@[simp] theorem resetWith_decRemain (k : Nat) : (State.resetWith k).decRemain = 0 := rfl
@[simp] theorem resetWith_decNode (k : Nat) : (State.resetWith k).decNode = Config.nil := rfl
@[simp] theorem resetWith_decActive (k : Nat) : (State.resetWith k).decActive = false := rfl
@[simp] theorem resetWith_decDone (k : Nat) : (State.resetWith k).decDone = false := rfl
@[simp] theorem resetWith_decSymcnt (k : Nat) : (State.resetWith k).decSymcnt = 0 := rfl
@[simp] theorem resetWith_rstAsserted (k : Nat) : (State.resetWith k).rstAsserted = false := rfl
@[simp] theorem resetWith_resp (k : Nat) : (State.resetWith k).resp = none := rfl
@[simp] theorem resetWith_events (k : Nat) : (State.resetWith k).events = [] := rfl
@[simp] theorem resetWith_draws (k : Nat) : (State.resetWith k).draws = k + 1 := rfl

/-! ## resetState (R120, R121) -/

@[simp] theorem resetState_arg (s : State) : (resetState s).arg = Vector.replicate 8 0 := rfl
@[simp] theorem resetState_res (s : State) : (resetState s).res = Vector.replicate 9 0 := rfl
@[simp] theorem resetState_flags (s : State) : (resetState s).flags = 0 := rfl
@[simp] theorem resetState_ie (s : State) : (resetState s).ie = 0 := rfl
@[simp] theorem resetState_busy (s : State) : (resetState s).busy = false := rfl
@[simp] theorem resetState_lCmd (s : State) : (resetState s).lCmd = 0 := rfl
@[simp] theorem resetState_lArg (s : State) : (resetState s).lArg = Vector.replicate 8 0 := rfl
@[simp] theorem resetState_outq (s : State) : (resetState s).outq = [] := rfl
@[simp] theorem resetState_fault (s : State) : (resetState s).fault = false := rfl
@[simp] theorem resetState_errCode (s : State) : (resetState s).errCode = 0 := rfl
@[simp] theorem resetState_errOp (s : State) : (resetState s).errOp = 0 := rfl
@[simp] theorem resetState_freq (s : State) : (resetState s).freq = Vector.replicate 256 0 := rfl
@[simp] theorem resetState_histTotal (s : State) : (resetState s).histTotal = 0 := rfl
@[simp] theorem resetState_node (s : State) : (resetState s).node = drawnNodes s.draws := rfl
@[simp] theorem resetState_nodeCount (s : State) : (resetState s).nodeCount = 0 := rfl
@[simp] theorem resetState_leafCount (s : State) : (resetState s).leafCount = 0 := rfl
@[simp] theorem resetState_root (s : State) : (resetState s).root = Config.nil := rfl
@[simp] theorem resetState_treeSrc (s : State) : (resetState s).treeSrc = .built := rfl
@[simp] theorem resetState_code (s : State) :
    (resetState s).code = Vector.replicate 256 CodeEntry.invalid := rfl
@[simp] theorem resetState_codeMaxLen (s : State) : (resetState s).codeMaxLen = 0 := rfl
@[simp] theorem resetState_cost (s : State) : (resetState s).cost = 0 := rfl
@[simp] theorem resetState_encAcc (s : State) : (resetState s).encAcc = 0 := rfl
@[simp] theorem resetState_encNpend (s : State) : (resetState s).encNpend = 0 := rfl
@[simp] theorem resetState_encBitcnt (s : State) : (resetState s).encBitcnt = 0 := rfl
@[simp] theorem resetState_decRemain (s : State) : (resetState s).decRemain = 0 := rfl
@[simp] theorem resetState_decNode (s : State) : (resetState s).decNode = Config.nil := rfl
@[simp] theorem resetState_decActive (s : State) : (resetState s).decActive = false := rfl
@[simp] theorem resetState_decDone (s : State) : (resetState s).decDone = false := rfl
@[simp] theorem resetState_decSymcnt (s : State) : (resetState s).decSymcnt = 0 := rfl
@[simp] theorem resetState_rstAsserted (s : State) : (resetState s).rstAsserted = false := rfl
@[simp] theorem resetState_resp (s : State) : (resetState s).resp = none := rfl
@[simp] theorem resetState_events (s : State) : (resetState s).events = s.events := rfl
@[simp] theorem resetState_draws (s : State) : (resetState s).draws = s.draws + 1 := rfl

end Sys2Proof.Laws
end

