-- ==== Sys2Proof/Laws/Memory.lean ====
section
/-! SUPPORT. Laws of node memory: a read after a write, the write of a list of nodes, and the paths along
child links (R14, R37, R83). -/

namespace Sys2Proof.Laws

open Sys2Proof.Machine

/-! ## Indices -/

theorem toNat_ofNat_index {k : Nat} (h : k < 512) : (BitVec.ofNat 9 k).toNat = k := by
  rw [BitVec.toNat_ofNat]; exact Nat.mod_eq_of_lt h

theorem ofNat_toNat_index (i : Index) : BitVec.ofNat 9 i.toNat = i := by simp

@[simp] theorem nil_toNat : Config.nil.toNat = 511 := rfl

theorem index_ne_nil_of_lt {i : Index} (h : i.toNat < 511) : i ≠ Config.nil := by
  rintro rfl; simp at h

theorem index_ne_nil_iff {i : Index} : i ≠ Config.nil ↔ i.toNat < 511 := by
  constructor
  · intro h
    have h1 := i.isLt
    by_contra h2
    exact h (BitVec.eq_of_toNat_eq (by simp; omega))
  · exact index_ne_nil_of_lt

/-! ## Entries -/

/-- A write of an allocated-range entry: that entry reads back, every other entry is as before. -/
theorem nodeAt_setNode (n : NodeMem) {i : Nat} (hi : i < 511) (e : NodeEntry) (j : Index) :
    nodeAt (setNode n i e) j = if j.toNat = i then e else nodeAt n j := by
  unfold nodeAt setNode
  by_cases hj : j.toNat < 511
  · simp only [hj, dif_pos]
    rw [Vector.getElem_setIfInBounds hj]
    by_cases h : i = j.toNat
    · simp [h]
    · simp [h, Ne.symm h]
  · have : j.toNat ≠ i := by omega
    simp [hj, this]

theorem nodeAt_setNode_self (n : NodeMem) {i : Index} (hi : i.toNat < 511) (e : NodeEntry) :
    nodeAt (setNode n i.toNat e) i = e := by
  rw [nodeAt_setNode n hi]; simp

/-- Reading a memory written from a list (R85): the list's entries below its length, the old ones above. -/
theorem nodeAt_writeNodes (n : NodeMem) {l : List NodeEntry} (hl : l.length ≤ 511) (i : Index) :
    nodeAt (writeNodes n l) i = if h : i.toNat < l.length then l[i.toNat] else nodeAt n i := by
  unfold nodeAt writeNodes
  by_cases hi : i.toNat < 511
  · simp only [hi, dif_pos]
    show ((l ++ n.toList.drop l.length).take 511)[i.toNat]'_ = _
    rw [List.getElem_take]
    by_cases h : i.toNat < l.length
    · simp [h, List.getElem_append_left]
    · simp only [h, dif_neg, not_false_iff]
      rw [List.getElem_append_right (by omega), List.getElem_drop]
      simp only [Vector.getElem_toList]
      congr 1
      omega
  · have : ¬ i.toNat < l.length := by omega
    simp [hi, this]

/-! ## Children -/

@[simp] theorem child_false (e : NodeEntry) : e.child false = e.left := rfl
@[simp] theorem child_true (e : NodeEntry) : e.child true = e.right := rfl

theorem child_withChild (e : NodeEntry) (b b' : Bool) (c : Index) :
    (e.withChild b c).child b' = if b' = b then c else e.child b' := by
  cases b <;> cases b' <;> rfl

@[simp] theorem withChild_leaf (e : NodeEntry) (b : Bool) (c : Index) :
    (e.withChild b c).leaf = e.leaf := by cases b <;> rfl
@[simp] theorem withChild_synth (e : NodeEntry) (b : Bool) (c : Index) :
    (e.withChild b c).synth = e.synth := by cases b <;> rfl
@[simp] theorem withChild_sym (e : NodeEntry) (b : Bool) (c : Index) :
    (e.withChild b c).sym = e.sym := by cases b <;> rfl
@[simp] theorem withChild_freq (e : NodeEntry) (b : Bool) (c : Index) :
    (e.withChild b c).freq = e.freq := by cases b <;> rfl

/-! ## Paths -/

@[simp] theorem follow_nil (n : NodeMem) (i : Index) : follow n i [] = some i := rfl

theorem follow_cons (n : NodeMem) (i : Index) (b : Bool) (p : List Bool) :
    follow n i (b :: p) =
      if (nodeAt n i).child b = Config.nil then none else follow n ((nodeAt n i).child b) p := rfl

/-- A path of two parts: the second starts where the first ends. -/
theorem follow_append (n : NodeMem) (i : Index) (p q : List Bool) :
    follow n i (p ++ q) = (follow n i p).bind (fun j => follow n j q) := by
  induction p generalizing i with
  | nil => rfl
  | cons b p ih =>
    simp only [List.cons_append, follow_cons]
    split
    · rfl
    · exact ih _

/-- From a node with no children only the empty path leads anywhere. -/
theorem follow_of_childless {n : NodeMem} {i : Index}
    (h : ∀ b, (nodeAt n i).child b = Config.nil) {p : List Bool} {j : Index}
    (hp : follow n i p = some j) : p = [] ∧ j = i := by
  cases p with
  | nil => exact ⟨rfl, by simpa using hp.symm⟩
  | cons b p => rw [follow_cons, if_pos (h b)] at hp; cases hp

/-- A set of nodes closed under child links holds every node a path from it reaches. -/
theorem follow_mem {n : NodeMem} {P : Index → Prop}
    (hP : ∀ i b, P i → (nodeAt n i).child b ≠ Config.nil → P ((nodeAt n i).child b))
    {i : Index} (hi : P i) {p : List Bool} {j : Index} (h : follow n i p = some j) : P j := by
  induction p generalizing i with
  | nil => simp only [follow_nil, Option.some.injEq] at h; exact h ▸ hi
  | cons b p ih =>
    rw [follow_cons] at h
    split at h
    · cases h
    · next hc => exact ih (hP i b hi hc) h

/-- Paths agree in two memories that agree on a set of nodes closed under child links. -/
theorem follow_congr {n m : NodeMem} {P : Index → Prop} (he : ∀ i, P i → nodeAt m i = nodeAt n i)
    (hP : ∀ i b, P i → (nodeAt n i).child b ≠ Config.nil → P ((nodeAt n i).child b))
    {i : Index} (hi : P i) (p : List Bool) : follow m i p = follow n i p := by
  induction p generalizing i with
  | nil => rfl
  | cons b p ih =>
    rw [follow_cons, follow_cons, he i hi]
    split
    · rfl
    · next hc => exact ih (hP i b hi hc)

end Sys2Proof.Laws
end

