-- ==== Sys2Proof/Laws/Build.lean ====
section
/-! SUPPORT. How BUILD_TREE's merge loop (R84, R85) makes a tree: the queue holds the roots of a forest whose
every node has one root and one path, whose frequencies add up, and whose depth is bounded by its leaves. -/

namespace Sys2Proof.Laws

open Sys2Proof.Machine

/-! ## The priority queue (R84) -/

theorem Key.less_iff (a b : Key) :
    a.less b = true ↔ a.freq < b.freq ∨ a.freq = b.freq ∧ a.idx < b.idx := by
  simp [Key.less]

theorem smaller_eq (a b : Key) : a.smaller b = a ∨ a.smaller b = b := by
  unfold Key.smaller; split <;> simp

theorem not_less_smaller (a b : Key) :
    a.less (a.smaller b) = false ∧ b.less (a.smaller b) = false := by
  unfold Key.smaller
  split
  · next h =>
    rw [Key.less_iff] at h
    constructor <;> rw [← Bool.not_eq_true, Key.less_iff] <;> omega
  · next h =>
    rw [Key.less_iff] at h
    constructor <;> rw [← Bool.not_eq_true, Key.less_iff] <;> omega

theorem not_less_trans {a b c : Key} (h1 : a.less b = false) (h2 : b.less c = false) :
    a.less c = false := by
  rw [← Bool.not_eq_true, Key.less_iff] at *
  omega

/-- The folded minimum is a member, and no member is less. -/
theorem foldl_smaller_spec (q : List Key) (k : Key) :
    q.foldl Key.smaller k ∈ k :: q ∧ ∀ z ∈ k :: q, z.less (q.foldl Key.smaller k) = false := by
  induction q generalizing k with
  | nil =>
    refine ⟨by simp, ?_⟩
    intro z hz
    simp only [List.mem_singleton] at hz
    subst hz
    rw [← Bool.not_eq_true, List.foldl_nil, Key.less_iff]; omega
  | cons a q ih =>
    obtain ⟨hm, hmin⟩ := ih (k.smaller a)
    simp only [List.foldl_cons]
    constructor
    · rcases List.mem_cons.1 hm with h | h
      · rw [h]
        rcases smaller_eq k a with h2 | h2 <;> rw [h2] <;> simp
      · exact List.mem_cons_of_mem _ (List.mem_cons_of_mem _ h)
    · intro z hz
      have hs := not_less_smaller k a
      have h0 := hmin (k.smaller a) (by simp)
      simp only [List.mem_cons] at hz
      rcases hz with rfl | rfl | hz
      · exact not_less_trans hs.1 h0
      · exact not_less_trans hs.2 h0
      · exact hmin z (List.mem_cons_of_mem _ hz)

/-- extractMin takes out one least key. -/
theorem extractMin_spec {q q' : List Key} {x : Key} (h : extractMin q = some (x, q')) :
    x ∈ q ∧ q' = q.erase x ∧ ∀ z ∈ q, z.less x = false := by
  cases q with
  | nil => cases h
  | cons k q =>
    simp only [extractMin, Option.some.injEq, Prod.mk.injEq] at h
    obtain ⟨rfl, rfl⟩ := h
    exact ⟨(foldl_smaller_spec q k).1, rfl, (foldl_smaller_spec q k).2⟩

theorem extractMin_perm {q q' : List Key} {x : Key} (h : extractMin q = some (x, q')) :
    q.Perm (x :: q') := by
  obtain ⟨hm, rfl, -⟩ := extractMin_spec h
  exact List.perm_cons_erase hm

theorem extractMin_isSome {q : List Key} (h : q ≠ []) : ∃ x q', extractMin q = some (x, q') := by
  cases q with
  | nil => exact absurd rfl h
  | cons k q => exact ⟨_, _, rfl⟩

/-! ## The forest -/

/-- The forest in the list N over the leaves lv, its roots the keys of Q; `base` is the memory N is written
into, `total` the sum of all counts. -/
structure Forest (base : NodeMem) (lv : List NodeEntry) (total : Nat) (n : List NodeEntry)
    (q : List Key) : Prop where
  leaves : n.take lv.length = lv
  size : n.length + q.length = 2 * lv.length
  keys : ∀ k ∈ q, ∃ h : k.idx < n.length, n[k.idx].freq.toNat = k.freq
  nodup : (q.map Key.idx).Nodup
  total_eq : (q.map Key.freq).sum = total
  inner : ∀ i, lv.length ≤ i → ∀ h : i < n.length,
    n[i].leaf = false ∧ n[i].synth = false ∧ n[i].sym = 0 ∧
    ∃ hl : n[i].left.toNat < i, ∃ hr : n[i].right.toNat < i,
      n[i].freq.toNat = (n[n[i].left.toNat]'(by omega)).freq.toNat +
        (n[n[i].right.toNat]'(by omega)).freq.toNat
  cover : ∀ i : Index, i.toNat < n.length →
    ∃ k ∈ q, ∃ p, follow (writeNodes base n) (BitVec.ofNat 9 k.idx) p = some i
  unique : ∀ k ∈ q, ∀ k' ∈ q, ∀ p p' i, follow (writeNodes base n) (BitVec.ofNat 9 k.idx) p = some i →
    follow (writeNodes base n) (BitVec.ofNat 9 k'.idx) p' = some i → k = k' ∧ p = p'
  depth : ∃ m : Nat → Nat, (q.map (fun k => m k.idx)).sum = lv.length ∧
    ∀ k ∈ q, ∀ p i, follow (writeNodes base n) (BitVec.ofNat 9 k.idx) p = some i → p.length < m k.idx

/-- Every leaf is childless. -/
def Childless (lv : List NodeEntry) : Prop :=
  ∀ e ∈ lv, e.leaf = true ∧ e.left = Config.nil ∧ e.right = Config.nil

section Forest

variable {base : NodeMem} {lv : List NodeEntry} {total : Nat} {n : List NodeEntry} {q : List Key}

theorem Forest.perm {q' : List Key} (f : Forest base lv total n q) (h : q.Perm q') :
    Forest base lv total n q' := by
  refine ⟨f.leaves, by rw [← h.length_eq]; exact f.size, fun k hk => f.keys k (h.mem_iff.2 hk),
    (h.map _).nodup_iff.1 f.nodup, by rw [← (h.map _).sum_eq]; exact f.total_eq, f.inner, ?_, ?_, ?_⟩
  · intro i hi
    obtain ⟨k, hk, p, hp⟩ := f.cover i hi
    exact ⟨k, h.mem_iff.1 hk, p, hp⟩
  · intro k hk k' hk'
    exact f.unique k (h.mem_iff.2 hk) k' (h.mem_iff.2 hk')
  · obtain ⟨m, hm, hd⟩ := f.depth
    exact ⟨m, by rw [← (h.map _).sum_eq]; exact hm, fun k hk => hd k (h.mem_iff.2 hk)⟩

theorem Forest.length_le (f : Forest base lv total n q) (hlv : lv.length ≤ 256) (hq : q ≠ []) :
    n.length ≤ 511 := by
  have := f.size
  have := List.length_pos_iff.2 hq
  omega

theorem Forest.lv_le (f : Forest base lv total n q) : lv.length ≤ n.length := by
  have := congrArg List.length f.leaves
  simp only [List.length_take] at this
  omega

theorem Forest.getElem_leaf (f : Forest base lv total n q) {i : Nat} (hi : i < lv.length) :
    n[i]'(lt_of_lt_of_le hi f.lv_le) = lv[i] := by
  have h := f.leaves
  have : (n.take lv.length)[i]'(by rw [h]; exact hi) = lv[i] := by simp only [h]
  rw [← this, List.getElem_take]

theorem Forest.nodeAt_eq (f : Forest base lv total n q) (hlv : lv.length ≤ 256) (hq : q ≠ [])
    (i : Index) (hi : i.toNat < n.length) : nodeAt (writeNodes base n) i = n[i.toNat] := by
  rw [nodeAt_writeNodes base (f.length_le hlv hq), dif_pos hi]

/-- Children stay below their parent. -/
theorem Forest.child_lt (f : Forest base lv total n q) (hc : Childless lv) (hlv : lv.length ≤ 256)
    (hq : q ≠ []) (i : Index) (b : Bool) (hi : i.toNat < n.length)
    (hx : (nodeAt (writeNodes base n) i).child b ≠ Config.nil) :
    ((nodeAt (writeNodes base n) i).child b).toNat < i.toNat := by
  rw [f.nodeAt_eq hlv hq i hi] at hx ⊢
  by_cases h : i.toNat < lv.length
  · rw [f.getElem_leaf h] at hx
    have := hc lv[i.toNat] (List.getElem_mem h)
    cases b <;> simp_all
  · obtain ⟨-, -, -, hl, hr, -⟩ := f.inner i.toNat (by omega) hi
    cases b
    · exact hl
    · exact hr

theorem Forest.follow_le (f : Forest base lv total n q) (hc : Childless lv) (hlv : lv.length ≤ 256)
    (hq : q ≠ []) {i j : Index} {p : List Bool} (hi : i.toNat < n.length)
    (h : follow (writeNodes base n) i p = some j) : j.toNat ≤ i.toNat := by
  refine follow_mem (P := fun k => k.toNat ≤ i.toNat) ?_ le_rfl h
  intro k b hk hx
  have := f.child_lt hc hlv hq k b (by omega) hx
  omega

/-! ## One merge -/

/-- One round of the merge loop keeps the forest. -/
theorem Forest.merge {x y : Key} {q2 : List Key} (f : Forest base lv total n (x :: y :: q2))
    (hc : Childless lv) (hlv : lv.length ≤ 256) (ht : total < 2 ^ 32) :
    Forest base lv total
      (n ++ [internalNode (BitVec.ofNat 32 x.freq + BitVec.ofNat 32 y.freq)
        (BitVec.ofNat 9 x.idx) (BitVec.ofNat 9 y.idx)])
      (⟨(BitVec.ofNat 32 x.freq + BitVec.ofNat 32 y.freq : Word).toNat, n.length⟩ :: q2) := by
  set e := internalNode (BitVec.ofNat 32 x.freq + BitVec.ofNat 32 y.freq)
    (BitVec.ofNat 9 x.idx) (BitVec.ofNat 9 y.idx) with he
  obtain ⟨hx, hxf⟩ := f.keys x (by simp)
  obtain ⟨hy, hyf⟩ := f.keys y (by simp)
  have hq : x :: y :: q2 ≠ [] := by simp
  have hn511 := f.length_le hlv hq
  have hsize := f.size
  simp only [List.length_cons] at hsize
  have hn : n.length < 511 := by omega
  have hlvn := f.lv_le
  have hsum : x.freq + y.freq + (q2.map Key.freq).sum = total := by
    have := f.total_eq
    simp only [List.map_cons, List.sum_cons] at this
    omega
  have hfreq : (BitVec.ofNat 32 x.freq + BitVec.ofNat 32 y.freq : Word).toNat = x.freq + y.freq := by
    rw [BitVec.toNat_add, BitVec.toNat_ofNat, BitVec.toNat_ofNat]
    omega
  have hxi : (BitVec.ofNat 9 x.idx : Index).toNat = x.idx := toNat_ofNat_index (by omega)
  have hyi : (BitVec.ofNat 9 y.idx : Index).toNat = y.idx := toNat_ofNat_index (by omega)
  have hLi : (BitVec.ofNat 9 n.length : Index).toNat = n.length := toNat_ofNat_index (by omega)
  have hlen1 : (n ++ [e]).length = n.length + 1 := by simp
  have hat : ∀ i : Index, i.toNat < n.length →
      nodeAt (writeNodes base (n ++ [e])) i = nodeAt (writeNodes base n) i := by
    intro i hi
    rw [nodeAt_writeNodes base (by omega), nodeAt_writeNodes base (by omega), dif_pos hi,
      dif_pos (by omega), List.getElem_append_left hi]
  have hnew : nodeAt (writeNodes base (n ++ [e])) (BitVec.ofNat 9 n.length) = e := by
    rw [nodeAt_writeNodes base (by omega), dif_pos (by omega)]
    simp only [hLi]
    rw [List.getElem_append_right (le_refl _)]
    simp
  have hcongr : ∀ i : Index, i.toNat < n.length → ∀ p,
      follow (writeNodes base (n ++ [e])) i p = follow (writeNodes base n) i p := by
    intro i hi p
    refine follow_congr (P := fun k => k.toNat < n.length) hat ?_ hi p
    intro k b hk hx
    have := f.child_lt hc hlv hq k b hk hx
    omega
  have hchild : ∀ b, e.child b = BitVec.ofNat 9 (if b then y.idx else x.idx) := by
    intro b; cases b <;> rfl
  have hfollow : ∀ p i, follow (writeNodes base (n ++ [e])) (BitVec.ofNat 9 n.length) p = some i ↔
      (p = [] ∧ i = BitVec.ofNat 9 n.length) ∨
      (∃ p', p = false :: p' ∧ follow (writeNodes base n) (BitVec.ofNat 9 x.idx) p' = some i) ∨
      (∃ p', p = true :: p' ∧ follow (writeNodes base n) (BitVec.ofNat 9 y.idx) p' = some i) := by
    intro p i
    cases p with
    | nil => simp [eq_comm]
    | cons b p =>
      rw [follow_cons, hnew, hchild]
      cases b
      · rw [if_neg (index_ne_nil_of_lt (by simp only [Bool.false_eq_true, if_false]; omega)), hcongr _ (by simp only [Bool.false_eq_true, if_false]; omega)]
        simp
      · rw [if_neg (index_ne_nil_of_lt (by simp only [if_true]; omega)), hcongr _ (by simp only [if_true]; omega)]
        simp
  have hq2 : ∀ k ∈ q2, k ∈ x :: y :: q2 := fun k hk => by simp [hk]
  have hq2lt : ∀ k ∈ q2, (BitVec.ofNat 9 k.idx : Index).toNat < n.length := by
    intro k hk
    obtain ⟨h, -⟩ := f.keys k (hq2 k hk)
    rw [toNat_ofNat_index (by omega)]; exact h
  have hnd := f.nodup
  simp only [List.map_cons, List.nodup_cons, List.mem_cons, not_or] at hnd
  have hxy : x ≠ y := fun h => hnd.1.1 (by rw [h])
  have hxq : ∀ k ∈ q2, x ≠ k := fun k hk h => hnd.1.2 (by rw [h]; exact List.mem_map_of_mem hk)
  have hyq : ∀ k ∈ q2, y ≠ k := fun k hk h => hnd.2.1 (by rw [h]; exact List.mem_map_of_mem hk)
  refine ⟨?_, ?_, ?_, ?_, ?_, ?_, ?_, ?_, ?_⟩
  · rw [List.take_append_of_le_length hlvn]; exact f.leaves
  · simp only [List.length_cons, List.length_append, List.length_nil]; omega
  · intro k hk
    rcases List.mem_cons.1 hk with rfl | hk
    · refine ⟨by simp, ?_⟩
      simp only [List.getElem_append_right (le_refl _), Nat.sub_self, List.getElem_cons_zero]
      rfl
    · obtain ⟨h, hf⟩ := f.keys k (hq2 k hk)
      exact ⟨by omega, by rw [List.getElem_append_left h]; exact hf⟩
  · simp only [List.map_cons, List.nodup_cons]
    refine ⟨?_, hnd.2.2⟩
    intro h
    obtain ⟨k, hk, hki⟩ := List.mem_map.1 h
    obtain ⟨h2, -⟩ := f.keys k (hq2 k hk)
    omega
  · simp only [List.map_cons, List.sum_cons, hfreq]; exact hsum
  · intro i hi hin
    by_cases h : i < n.length
    · obtain ⟨h1, h2, h3, hl, hr, h4⟩ := f.inner i hi h
      simp only [List.getElem_append_left h]
      refine ⟨h1, h2, h3, hl, hr, ?_⟩
      rw [List.getElem_append_left (by omega), List.getElem_append_left (by omega)]
      exact h4
    · have hi' : i = n.length := by omega
      subst hi'
      simp only [List.getElem_append_right (le_refl _), Nat.sub_self, List.getElem_cons_zero]
      refine ⟨rfl, rfl, rfl, by simp only [he, internalNode]; omega, by simp only [he, internalNode]; omega, ?_⟩
      simp only [he, internalNode, hxi, hyi, hfreq, List.getElem_append_left hx, List.getElem_append_left hy]
      omega
  · intro i hi
    by_cases h : i.toNat < n.length
    · obtain ⟨k, hk, p, hp⟩ := f.cover i h
      rcases List.mem_cons.1 hk with rfl | hk
      · exact ⟨_, List.mem_cons_self, false :: p, (hfollow _ _).2 (.inr (.inl ⟨p, rfl, hp⟩))⟩
      · rcases List.mem_cons.1 hk with rfl | hk
        · exact ⟨_, List.mem_cons_self, true :: p, (hfollow _ _).2 (.inr (.inr ⟨p, rfl, hp⟩))⟩
        · exact ⟨k, List.mem_cons_of_mem _ hk, p, by rw [hcongr _ (hq2lt k hk)]; exact hp⟩
    · have : i = BitVec.ofNat 9 n.length := BitVec.eq_of_toNat_eq (by omega)
      exact ⟨_, List.mem_cons_self, [], (hfollow _ _).2 (.inl ⟨rfl, this⟩)⟩
  · have hdis : ∀ k ∈ q2, ∀ p p' i,
        follow (writeNodes base (n ++ [e])) (BitVec.ofNat 9 n.length) p = some i →
        follow (writeNodes base (n ++ [e])) (BitVec.ofNat 9 k.idx) p' = some i → False := by
      intro k hk p p' i h1 h2
      rw [hcongr _ (hq2lt k hk)] at h2
      rcases (hfollow _ _).1 h1 with ⟨-, rfl⟩ | ⟨p1, -, h1⟩ | ⟨p1, -, h1⟩
      · have := f.follow_le hc hlv hq (hq2lt k hk) h2
        have := hq2lt k hk
        omega
      · exact hxq k hk (f.unique x (by simp) k (hq2 k hk) _ _ _ h1 h2).1
      · exact hyq k hk (f.unique y (by simp) k (hq2 k hk) _ _ _ h1 h2).1
    intro k hk k' hk' p p' i h1 h2
    rcases List.mem_cons.1 hk with rfl | hk <;> rcases List.mem_cons.1 hk' with rfl | hk'
    · refine ⟨rfl, ?_⟩
      have hxlt : (BitVec.ofNat 9 x.idx : Index).toNat < n.length := by omega
      have hylt : (BitVec.ofNat 9 y.idx : Index).toNat < n.length := by omega
      rcases (hfollow _ _).1 h1 with ⟨e1, g1⟩ | ⟨p1, e1, g1⟩ | ⟨p1, e1, g1⟩ <;>
        rcases (hfollow _ _).1 h2 with ⟨e2, g2⟩ | ⟨p2, e2, g2⟩ | ⟨p2, e2, g2⟩
      · rw [e1, e2]
      · subst g1; have := f.follow_le hc hlv hq hxlt g2; omega
      · subst g1; have := f.follow_le hc hlv hq hylt g2; omega
      · subst g2; have := f.follow_le hc hlv hq hxlt g1; omega
      · rw [e1, e2, (f.unique x (by simp) x (by simp) _ _ _ g1 g2).2]
      · exact absurd (f.unique x (by simp) y (by simp) _ _ _ g1 g2).1 hxy
      · subst g2; have := f.follow_le hc hlv hq hylt g1; omega
      · exact absurd (f.unique y (by simp) x (by simp) _ _ _ g1 g2).1.symm hxy
      · rw [e1, e2, (f.unique y (by simp) y (by simp) _ _ _ g1 g2).2]
    · exact (hdis k' hk' _ _ _ h1 h2).elim
    · exact (hdis k hk _ _ _ h2 h1).elim
    · rw [hcongr _ (hq2lt k hk)] at h1
      rw [hcongr _ (hq2lt k' hk')] at h2
      exact f.unique k (hq2 k hk) k' (hq2 k' hk') _ _ _ h1 h2
  · obtain ⟨m, hm, hd⟩ := f.depth
    simp only [List.map_cons, List.sum_cons] at hm
    refine ⟨fun i => if i = n.length then m x.idx + m y.idx else m i, ?_, ?_⟩
    · have : (q2.map (fun k => if k.idx = n.length then m x.idx + m y.idx else m k.idx)) =
          q2.map (fun k => m k.idx) := by
        apply List.map_congr_left
        intro k hk
        obtain ⟨h, -⟩ := f.keys k (hq2 k hk)
        rw [if_neg (by omega)]
      simp only [List.map_cons, List.sum_cons, if_true, this]
      omega
    · intro k hk p i h
      rcases List.mem_cons.1 hk with rfl | hk
      · simp only [if_true]
        have hx0 := hd x (by simp) [] _ rfl
        have hy0 := hd y (by simp) [] _ rfl
        simp only [List.length_nil] at hx0 hy0
        rcases (hfollow _ _).1 h with ⟨rfl, -⟩ | ⟨p1, rfl, h1⟩ | ⟨p1, rfl, h1⟩
        · simp only [List.length_nil]; omega
        · have := hd x (by simp) _ _ h1
          simp only [List.length_cons]; omega
        · have := hd y (by simp) _ _ h1
          simp only [List.length_cons]; omega
      · obtain ⟨hk1, -⟩ := f.keys k (hq2 k hk)
        rw [hcongr _ (hq2lt k hk)] at h
        have := hd k (hq2 k hk) p i h
        simp only
        rw [if_neg (by omega)]
        exact this

end Forest

/-! ## The whole loop -/

/-- The merge loop ends with one root. -/
theorem mergeLoop_forest {base : NodeMem} {lv : List NodeEntry} {total : Nat} (hc : Childless lv)
    (hlv : lv.length ≤ 256) (ht : total < 2 ^ 32) (rounds : Nat) {n : List NodeEntry} {q : List Key}
    (f : Forest base lv total n q) (hq : q.length = rounds + 1) :
    ∃ k, Forest base lv total (mergeLoop rounds n q) [k] := by
  induction rounds generalizing n q with
  | zero =>
    obtain ⟨k, rfl⟩ := List.length_eq_one_iff.1 hq
    exact ⟨k, f⟩
  | succ r ih =>
    obtain ⟨x, q1, h1⟩ := extractMin_isSome (q := q) (by rintro rfl; simp at hq)
    have p1 := extractMin_perm h1
    have hl1 : q1.length = r + 1 := by
      have := p1.length_eq
      simp only [List.length_cons] at this
      omega
    obtain ⟨y, q2, h2⟩ := extractMin_isSome (q := q1) (by rintro rfl; simp at hl1)
    have p2 := extractMin_perm h2
    have hl2 : q2.length = r := by
      have := p2.length_eq
      simp only [List.length_cons] at this
      omega
    have f2 := (f.perm (p1.trans (p2.cons x))).merge hc hlv ht
    have f3 := f2.perm (List.perm_append_singleton _ q2).symm
    obtain ⟨k, hk⟩ := ih f3 (by simp [hl2])
    refine ⟨k, ?_⟩
    simp only [mergeLoop, h1, h2]
    exact hk

/-- The leaves alone are a forest. -/
theorem start_forest (base : NodeMem) {lv : List NodeEntry} (hc : Childless lv) (hlv : lv.length ≤ 256) :
    Forest base lv (lv.map (fun e => e.freq.toNat)).sum lv (startQueue lv) := by
  have hidx : ∀ k ∈ startQueue lv, ∃ h : k.idx < lv.length, lv[k.idx].freq.toNat = k.freq := by
    intro k hk
    obtain ⟨⟨e, i⟩, hp, rfl⟩ := List.mem_map.1 hk
    have h := List.mem_zipIdx' hp
    exact ⟨h.1, by simp only; rw [← h.2]⟩
  have hmapidx : (startQueue lv).map Key.idx = List.range lv.length := by
    simp only [startQueue, List.map_map]
    apply List.ext_getElem (by simp)
    intro i h1 h2
    simp
  have hchildless : ∀ i : Index, i.toNat < lv.length → ∀ b,
      (nodeAt (writeNodes base lv) i).child b = Config.nil := by
    intro i hi b
    rw [nodeAt_writeNodes base (by omega), dif_pos hi]
    have := hc _ (List.getElem_mem hi)
    cases b
    · exact this.2.1
    · exact this.2.2
  have hi9 : ∀ k ∈ startQueue lv, (BitVec.ofNat 9 k.idx : Index).toNat = k.idx := by
    intro k hk
    obtain ⟨h, -⟩ := hidx k hk
    exact toNat_ofNat_index (by omega)
  refine ⟨by simp, by simp [startQueue]; omega, hidx, by rw [hmapidx]; exact List.nodup_range, ?_, ?_, ?_,
    ?_, ?_⟩
  · simp only [startQueue, List.map_map]
    congr 1
    apply List.ext_getElem (by simp)
    intro i h1 h2
    simp
  · intro i h1 h2; omega
  · intro i hi
    have : i.toNat ∈ (startQueue lv).map Key.idx := by rw [hmapidx]; simpa using hi
    obtain ⟨k, hk, hki⟩ := List.mem_map.1 this
    exact ⟨k, hk, [], by rw [hki]; simp⟩
  · intro k hk k' hk' p p' i h1 h2
    obtain ⟨hk1, hkf⟩ := hidx k hk
    obtain ⟨hk1', hkf'⟩ := hidx k' hk'
    have e1 := follow_of_childless (hchildless _ (by rw [hi9 k hk]; exact hk1)) h1
    have e2 := follow_of_childless (hchildless _ (by rw [hi9 k' hk']; exact hk1')) h2
    refine ⟨?_, by rw [e1.1, e2.1]⟩
    have hid : k.idx = k'.idx := by rw [← hi9 k hk, ← hi9 k' hk', ← e1.2, ← e2.2]
    cases k; cases k'
    simp only at hid
    subst hid
    simp_all
  · refine ⟨fun _ => 1, by simp [startQueue, Function.comp_def], ?_⟩
    intro k hk p i h
    obtain ⟨hk1, -⟩ := hidx k hk
    have e1 := follow_of_childless (hchildless _ (by rw [hi9 k hk]; exact hk1)) h
    simp [e1.1]

end Sys2Proof.Laws
end

