-- ==== Sys2Proof/Laws/Codegen.lean ====
section
/-! SUPPORT. What GEN_CODES's walk (R91) collects, and the table, maximum and cost it makes of it. -/

namespace Sys2Proof.Laws

open Sys2Proof.Machine

/-! ## The walk -/

theorem leafPaths_succ (n : NodeMem) (fuel : Nat) (i : Index) (p : List Bool) :
    leafPaths n (fuel + 1) i p =
      if (nodeAt n i).leaf then some (if (nodeAt n i).synth then [] else [(nodeAt n i, p)])
      else
        match (if (nodeAt n i).child false = Config.nil then some []
            else leafPaths n fuel ((nodeAt n i).child false) (p ++ [false])),
          (if (nodeAt n i).child true = Config.nil then some []
            else leafPaths n fuel ((nodeAt n i).child true) (p ++ [true])) with
        | some l, some r => some (l ++ r)
        | _, _ => none := rfl

/-- Where a measure falls along every child link, the walk ends. -/
theorem leafPaths_isSome {n : NodeMem} {P : Index → Prop} {μ : Index → Nat}
    (hP : ∀ i b, P i → (nodeAt n i).child b ≠ Config.nil →
      P ((nodeAt n i).child b) ∧ μ ((nodeAt n i).child b) < μ i)
    (fuel : Nat) {i : Index} (hi : P i) (hf : μ i < fuel) (p : List Bool) :
    ∃ lv, leafPaths n fuel i p = some lv := by
  induction fuel generalizing i p with
  | zero => omega
  | succ fuel ih =>
    rw [leafPaths_succ]
    split
    · exact ⟨_, rfl⟩
    · have side : ∀ b : Bool, ∃ lv, (if (nodeAt n i).child b = Config.nil then some []
          else leafPaths n fuel ((nodeAt n i).child b) (p ++ [b])) = some lv := by
        intro b
        split
        · exact ⟨_, rfl⟩
        · next hx =>
          obtain ⟨h1, h2⟩ := hP i b hi hx
          exact ih h1 (by omega) _
      obtain ⟨l, hl⟩ := side false
      obtain ⟨r, hr⟩ := side true
      rw [hl, hr]
      exact ⟨_, rfl⟩

/-- The walk collects exactly the real leaves below its start, each with its path. -/
theorem mem_leafPaths {n : NodeMem} {P : Index → Prop}
    (hP : ∀ i b, P i → (nodeAt n i).child b ≠ Config.nil → P ((nodeAt n i).child b))
    (hl : ∀ i, P i → (nodeAt n i).leaf = true → ∀ b, (nodeAt n i).child b = Config.nil)
    {fuel : Nat} {i : Index} {p : List Bool} {lv : List (NodeEntry × List Bool)} (hi : P i)
    (h : leafPaths n fuel i p = some lv) (e : NodeEntry) (q : List Bool) :
    (e, q) ∈ lv ↔ ∃ r j, q = p ++ r ∧ follow n i r = some j ∧ (nodeAt n j).leaf = true ∧
      (nodeAt n j).synth = false ∧ e = nodeAt n j := by
  induction fuel generalizing i p lv with
  | zero => cases h
  | succ fuel ih =>
    rw [leafPaths_succ] at h
    split at h
    · next hleaf =>
      simp only [Option.some.injEq] at h
      subst h
      constructor
      · intro hm
        split at hm
        · simp at hm
        · next hs =>
          simp only [List.mem_singleton, Prod.mk.injEq] at hm
          exact ⟨[], i, by simp [hm.2], rfl, hleaf, by simpa using hs, hm.1⟩
      · rintro ⟨r, j, rfl, hf, -, hs, rfl⟩
        obtain ⟨rfl, rfl⟩ := follow_of_childless (hl i hi hleaf) hf
        rw [hs]; simp
    · next hleaf =>
      have side : ∀ (b : Bool) l, (if (nodeAt n i).child b = Config.nil then some []
          else leafPaths n fuel ((nodeAt n i).child b) (p ++ [b])) = some l →
          ((e, q) ∈ l ↔ ∃ r j, q = p ++ b :: r ∧ follow n i (b :: r) = some j ∧
            (nodeAt n j).leaf = true ∧ (nodeAt n j).synth = false ∧ e = nodeAt n j) := by
        intro b l hb
        split at hb
        · next hx =>
          cases hb
          simp only [List.not_mem_nil, false_iff, not_exists, not_and]
          intro r j _ hf
          rw [follow_cons, if_pos hx] at hf
          cases hf
        · next hx =>
          rw [ih (hP i b hi hx) hb]
          simp only [List.append_assoc, List.singleton_append, follow_cons, if_neg hx]
      split at h
      · next l r hl' hr' =>
        cases h
        rw [List.mem_append, side false l hl', side true r hr']
        constructor
        · rintro (⟨r, j, h⟩ | ⟨r, j, h⟩)
          · exact ⟨_, j, h⟩
          · exact ⟨_, j, h⟩
        · rintro ⟨r, j, hq, hf, h1, h2, h3⟩
          cases r with
          | nil =>
            simp only [follow_nil, Option.some.injEq] at hf
            subst hf
            exact absurd h1 hleaf
          | cons b r =>
            cases b
            · exact .inl ⟨r, j, hq, hf, h1, h2, h3⟩
            · exact .inr ⟨r, j, hq, hf, h1, h2, h3⟩
      · cases h

/-- Where the walk goes on from node i: the leaves of the left edge, then those of the right one. -/
theorem leafPaths_split {n : NodeMem} {fuel : Nat} {i : Index} {p : List Bool}
    {lv : List (NodeEntry × List Bool)} (h : leafPaths n (fuel + 1) i p = some lv) :
    lv = [] ∨ lv = [(nodeAt n i, p)] ∨ ∃ l r, lv = l ++ r ∧
      (l = [] ∨ leafPaths n fuel ((nodeAt n i).child false) (p ++ [false]) = some l) ∧
      (r = [] ∨ leafPaths n fuel ((nodeAt n i).child true) (p ++ [true]) = some r) := by
  rw [leafPaths_succ] at h
  split at h
  · simp only [Option.some.injEq] at h
    subst h
    split <;> simp
  · have side : ∀ (b : Bool) l, (if (nodeAt n i).child b = Config.nil then some []
        else leafPaths n fuel ((nodeAt n i).child b) (p ++ [b])) = some l →
        l = [] ∨ leafPaths n fuel ((nodeAt n i).child b) (p ++ [b]) = some l := by
      intro b l h
      split at h
      · exact .inl (Option.some.inj h).symm
      · exact .inr h
    split at h
    · next l r hl hr =>
      exact .inr (.inr ⟨l, r, (Option.some.inj h).symm, side false l hl, side true r hr⟩)
    · cases h

/-- Every collected path begins with the path of the walk's start. -/
theorem leafPaths_prefix {n : NodeMem} {fuel : Nat} {i : Index} {p : List Bool}
    {lv : List (NodeEntry × List Bool)} (h : leafPaths n fuel i p = some lv) :
    ∀ x ∈ lv, p <+: x.2 := by
  induction fuel generalizing i p lv with
  | zero => cases h
  | succ fuel ih =>
    intro x hx
    have up : ∀ b, p ++ [b] <+: x.2 → p <+: x.2 := fun b hb => (List.prefix_append _ _).trans hb
    rcases leafPaths_split h with rfl | rfl | ⟨l, r, rfl, hl, hr⟩
    · cases hx
    · rw [List.mem_singleton.1 hx]
    · rcases List.mem_append.1 hx with hx | hx
      · rcases hl with rfl | hl
        · cases hx
        · exact up false (ih hl x hx)
      · rcases hr with rfl | hr
        · cases hx
        · exact up true (ih hr x hx)

/-- The walk takes every path once. -/
theorem leafPaths_nodup {n : NodeMem} {fuel : Nat} {i : Index} {p : List Bool}
    {lv : List (NodeEntry × List Bool)} (h : leafPaths n fuel i p = some lv) :
    (lv.map Prod.snd).Nodup := by
  induction fuel generalizing i p lv with
  | zero => cases h
  | succ fuel ih =>
    rcases leafPaths_split h with rfl | rfl | ⟨l, r, rfl, hl, hr⟩
    · simp
    · simp
    · have nd : ∀ {i p} {l : List (NodeEntry × List Bool)}, l = [] ∨ leafPaths n fuel i p = some l →
          (l.map Prod.snd).Nodup ∧ ∀ x ∈ l, p <+: x.2 := by
        rintro i p l (rfl | h)
        · simp
        · exact ⟨ih h, leafPaths_prefix h⟩
      rw [List.map_append, List.nodup_append]
      refine ⟨(nd hl).1, (nd hr).1, ?_⟩
      intro a ha b hb hab
      obtain ⟨x, hx, rfl⟩ := List.mem_map.1 ha
      obtain ⟨y, hy, rfl⟩ := List.mem_map.1 hb
      have h1 := (nd hl).2 x hx
      have h2 := (nd hr).2 y hy
      rw [← hab] at h2
      have h3 := List.prefix_of_prefix_length_le h1 h2 (by simp)
      have h4 := h3.eq_of_length (by simp)
      simp at h4

/-! ## The table (R91) -/

theorem getElem_foldl_set (lv : List (NodeEntry × List Bool)) (tab : CodeMem) (b : Byte) :
    ((lv.foldl (fun c x => c.set x.1.sym.toNat ⟨true, x.2⟩) tab)[b.toNat] = tab[b.toNat] ∧
        ∀ x ∈ lv, x.1.sym ≠ b) ∨
      ∃ x ∈ lv, x.1.sym = b ∧
        (lv.foldl (fun c x => c.set x.1.sym.toNat ⟨true, x.2⟩) tab)[b.toNat] = ⟨true, x.2⟩ := by
  induction lv generalizing tab with
  | nil => simp
  | cons y lv ih =>
    simp only [List.foldl_cons]
    rcases ih (tab.set y.1.sym.toNat ⟨true, y.2⟩) with ⟨h1, h2⟩ | ⟨x, hx, h1, h2⟩
    · by_cases hy : y.1.sym = b
      · right
        refine ⟨y, by simp, hy, ?_⟩
        rw [h1]
        simp [hy]
      · left
        constructor
        · rw [h1, Vector.getElem_set_ne]
          intro h; exact hy (BitVec.eq_of_toNat_eq h)
        · intro x hx
          rcases List.mem_cons.1 hx with rfl | hx
          · exact hy
          · exact h2 x hx
    · exact .inr ⟨x, List.mem_cons_of_mem _ hx, h1, h2⟩

/-- An entry of the generated table is the path of a leaf of its symbol, or invalid when there is none. -/
theorem getElem_codeTable (lv : List (NodeEntry × List Bool)) (b : Byte) :
    ((codeTable lv)[b.toNat] = CodeEntry.invalid ∧ ∀ x ∈ lv, x.1.sym ≠ b) ∨
      ∃ x ∈ lv, x.1.sym = b ∧ (codeTable lv)[b.toNat] = ⟨true, x.2⟩ := by
  rcases getElem_foldl_set lv (Vector.replicate 256 CodeEntry.invalid) b with ⟨h1, h2⟩ | h
  · left
    refine ⟨?_, h2⟩
    unfold codeTable
    rw [h1]; simp
  · exact .inr h

theorem foldl_max_spec (lv : List (NodeEntry × List Bool)) (m : Nat) :
    m ≤ lv.foldl (fun m x => max m x.2.length) m ∧
    (∀ x ∈ lv, x.2.length ≤ lv.foldl (fun m x => max m x.2.length) m) ∧
    (lv.foldl (fun m x => max m x.2.length) m = m ∨
      ∃ x ∈ lv, x.2.length = lv.foldl (fun m x => max m x.2.length) m) := by
  induction lv generalizing m with
  | nil => simp
  | cons y lv ih =>
    simp only [List.foldl_cons]
    obtain ⟨h1, h2, h3⟩ := ih (max m y.2.length)
    refine ⟨by omega, ?_, ?_⟩
    · intro x hx
      rcases List.mem_cons.1 hx with rfl | hx
      · omega
      · exact h2 x hx
    · rcases h3 with h3 | ⟨x, hx, h3⟩
      · rcases Nat.le_total m y.2.length with h | h
        · right; exact ⟨y, by simp, by rw [h3]; omega⟩
        · left; rw [h3]; omega
      · exact .inr ⟨x, List.mem_cons_of_mem _ hx, h3⟩

/-- maxlen of R91 bounds every path and is attained, or 0. -/
theorem maxLength_spec (lv : List (NodeEntry × List Bool)) :
    (∀ x ∈ lv, x.2.length ≤ maxLength lv) ∧
    (maxLength lv = 0 ∨ ∃ x ∈ lv, x.2.length = maxLength lv) := by
  obtain ⟨-, h2, h3⟩ := foldl_max_spec lv 0
  exact ⟨h2, h3⟩

theorem foldl_cost_spec (lv : List (NodeEntry × List Bool)) (c : Nat) :
    lv.foldl (fun c x => c + x.1.freq.toNat * x.2.length) c =
      c + (lv.map (fun x => x.1.freq.toNat * x.2.length)).sum := by
  induction lv generalizing c with
  | nil => simp
  | cons y lv ih => simp only [List.foldl_cons, ih, List.map_cons, List.sum_cons]; omega

/-- cost of R91 is the sum of FREQ * |p| over the leaves. -/
theorem weightedCost_eq (lv : List (NodeEntry × List Bool)) :
    weightedCost lv = (lv.map (fun x => x.1.freq.toNat * x.2.length)).sum := by
  rw [weightedCost, foldl_cost_spec]; omega

end Sys2Proof.Laws
end

