-- ==== Sys2Proof/Laws/Ops.lean ====
section
/-! SUPPORT. What the shared operations can do, said once: the completion of an outcome (R70 to R73), the
outcome each command computes, a step of the machine (R15, R57), an issue (R69) and a pop (R49). -/

namespace Sys2Proof.Laws

open Sys2Proof.Machine

/-! ## Completions -/

/-- The outcome the pseudocode of a command's rule computes (R13). -/
def outcomeOf (i : Instr) (s : State) : Result :=
  match i with
  | .nop => .ok s []
  | .clear => .ok (leaveFault s) []
  | .histClear => .ok { s with freq := Vector.replicate 256 0, histTotal := 0 } []
  | .histByte b => addCount b 1 s
  | .histAcc b => addCount b (countOperand s) s
  | .rdFreq b => .ok (setResults (freqAt s b) 0 0 s) []
  | .buildTree => buildTree s
  | .treeClear => .ok (clearTree s) []
  | .insertCode sym len => insertCode sym len s
  | .rdNode idx => readNode idx s
  | .genCodes => genCodes s
  | .rdCode b => .ok { s with res := codeResults s.code[b.toNat] } []
  | .encStart => .ok { s with encAcc := 0, encNpend := 0, encBitcnt := 0 } []
  | .encByte b => encodeByte b s
  | .encFlush => flushEncoder s
  | .decStart => startDecoder s
  | .decByte b => decodeByte b s
  | .decEnd => endDecoder s

/-- Every command is the completion of its outcome. -/
theorem exec_eq (i : Instr) (s : State) : exec i s = complete (outcomeOf i s) s := by
  cases i <;> rfl

/-- A completion always answers a next state: HCC never stops. -/
theorem complete_next (r : Result) (s : State) : ∃ t, complete r s = .next t := by
  cases r with
  | ok s' out =>
    simp only [complete]
    split <;> exact ⟨_, rfl⟩
  | fault c => exact ⟨_, rfl⟩
  | unending => exact ⟨_, rfl⟩

theorem exec_next (i : Instr) (s : State) : ∃ t, exec i s = .next t := by
  rw [exec_eq]; exact complete_next _ _

/-- The four things a completion can do: commit, hold, fault, or stay in flight. -/
theorem complete_cases {r : Result} {s t : State} (h : complete r s = .next t) :
    (∃ s' out, r = .ok s' out ∧ out.length ≤ outqRoom s ∧ t = commitOk s' out) ∨
    (∃ s' out, r = .ok s' out ∧ ¬ out.length ≤ outqRoom s ∧ t = s) ∨
    (∃ c, r = .fault c ∧ t = takeFault c s) ∨
    (r = .unending ∧ t = s) := by
  cases r with
  | ok s' out =>
    simp only [complete] at h
    split at h
    · next hr => exact .inl ⟨s', out, rfl, hr, by cases h; rfl⟩
    · next hr => exact .inr (.inl ⟨s', out, rfl, hr, by cases h; rfl⟩)
  | fault c => exact .inr (.inr (.inl ⟨c, rfl, by cases h; rfl⟩))
  | unending => exact .inr (.inr (.inr ⟨rfl, by cases h; rfl⟩))

/-- An outcome with no output commits at once. -/
theorem complete_ok_nil (s' s : State) : complete (.ok s' []) s = .next (commitOk s' []) := by
  simp [complete]

theorem complete_ok {s' s : State} {out : List Byte} (h : out.length ≤ outqRoom s) :
    complete (.ok s' out) s = .next (commitOk s' out) := by
  simp [complete, h]

theorem complete_hold {s' s : State} {out : List Byte} (h : ¬ out.length ≤ outqRoom s) :
    complete (.ok s' out) s = .next s := by
  simp [complete, h]

@[simp] theorem complete_fault (c : FaultCode) (s : State) :
    complete (.fault c) s = .next (takeFault c s) := rfl

/-! ## Steps -/

/-- What the engine's step can do. -/
theorem engineStep_cases {s t : State} (h : engineStep s = .next t) :
    (s.busy = false ∧ t = s) ∨
    (s.busy = true ∧ ∃ i, decode s.lCmd = .instr i ∧ exec i s = .next t) ∨
    (s.busy = true ∧ ∃ w, decode s.lCmd = .illegal w ∧ t = takeFault .illegalCmd s) := by
  unfold engineStep at h
  split at h
  · next hb =>
    split at h
    · next i hi => exact .inr (.inl ⟨hb, i, hi, h⟩)
    · next w hw => exact .inr (.inr ⟨hb, w, hw, by cases h; rfl⟩)
  · next hb => exact .inl ⟨by simpa using hb, by cases h; rfl⟩

theorem engineStep_next (s : State) : ∃ t, engineStep s = .next t := by
  unfold engineStep
  split
  · split
    · exact exec_next _ _
    · exact ⟨_, rfl⟩
  · exact ⟨_, rfl⟩

/-- What a step can do: the engine moves, or the host accesses the window, or the reset input changes. -/
theorem step_cases {s t : State} (h : step s = .next t) :
    (∃ rest, (s.events = .engine :: rest ∨ s.events = [] ∧ rest = []) ∧
      engineStep { s with events := rest } = .next t) ∨
    (∃ a rest, s.events = .access a :: rest ∧ t = busAccess a { s with events := rest }) ∨
    (∃ rest, s.events = .rstAssert :: rest ∧
      t = { resetState { s with events := rest } with rstAsserted := true }) ∨
    (∃ rest, s.events = .rstRelease :: rest ∧ t = { s with events := rest, rstAsserted := false }) := by
  unfold step machineStep at h
  split at h
  · next e rest he =>
    cases e with
    | access a => exact .inr (.inl ⟨a, rest, he, by cases h; rfl⟩)
    | rstAssert => exact .inr (.inr (.inl ⟨rest, he, by cases h; rfl⟩))
    | rstRelease => exact .inr (.inr (.inr ⟨rest, he, by cases h; rfl⟩))
    | engine => exact .inl ⟨rest, .inl he, h⟩
  · next he =>
    refine .inl ⟨[], .inr ⟨he, rfl⟩, ?_⟩
    rw [← he]; exact h

/-- A step always answers a next state. -/
theorem step_next (s : State) : ∃ t, step s = .next t := by
  unfold step machineStep
  split
  · next e rest _ =>
    cases e with
    | engine => exact engineStep_next _
    | _ => exact ⟨_, rfl⟩
  · exact engineStep_next _

/-! ## Issue, pop and bus access -/

/-- R69: the write issues, or it is dropped. -/
theorem issue_cases (v : Word) (s : State) :
    (s.busy = false ∧ (s.fault = true → runsInFault v = true) ∧ issue v s = latchCommand v s) ∨
    ((s.busy = true ∨ s.fault = true ∧ runsInFault v = false) ∧
      issue v s = { s with flags := withCmdDropped s.flags }) := by
  unfold issue
  cases hb : s.busy <;> cases hf : s.fault <;> cases hr : runsInFault v <;> simp

/-- R49: the pop takes the head, or sets RD_EMPTY. -/
theorem popOutq_cases (s : State) :
    (∃ b q, s.outq = b :: q ∧ popOutq s = { s with outq := q }) ∨
    (s.outq = [] ∧ popOutq s = { s with flags := withRdEmpty s.flags }) := by
  unfold popOutq
  cases h : s.outq with
  | nil => exact .inr ⟨rfl, rfl⟩
  | cons b q => exact .inl ⟨b, q, rfl, rfl⟩

/-- What a write does to a state, by register (R50). -/
theorem writeReg_cases (r : Reg) (v : Word) (s : State) :
    (r = .cmd ∧ writeReg r v s = issue v s) ∨
    (r = .ctrl ∧ v.getLsbD 0 = true ∧ writeReg r v s = resetState s) ∨
    (r = .flags ∧ writeReg r v s = { s with flags := clearWritten s.flags v }) ∨
    (r = .ie ∧ writeReg r v s = { s with ie := v.extractLsb' 0 4 }) ∨
    (∃ i, r = .arg i ∧ writeReg r v s = { s with arg := s.arg.set i.val v }) ∨
    writeReg r v s = s := by
  cases r with
  | ctrl => cases h : v.getLsbD 0 <;> simp only [writeReg, h] <;> simp
  | _ => simp [writeReg]

/-- What a bus access does to a state: nothing, a pop, or a write by register, and the response. -/
theorem busAccess_cases (a : Access) (s : State) :
    ∃ r, busAccess a s = { s with resp := r } ∨ busAccess a s = { popOutq s with resp := r } ∨
      ∃ g v, s.rstAsserted = false ∧ busAccess a s = { writeReg g v s with resp := r } := by
  cases a with
  | read off bytes =>
    simp only [busAccess]
    split
    · unfold afterRead
      split
      · exact ⟨_, .inr (.inl rfl)⟩
      · exact ⟨_, .inl rfl⟩
    · exact ⟨_, .inl rfl⟩
  | write off bytes v =>
    simp only [busAccess]
    split
    · next h => exact ⟨_, .inr (.inr ⟨_, _, by simp at h; exact h.2, rfl⟩)⟩
    · exact ⟨_, .inl rfl⟩

end Sys2Proof.Laws
end

