-- ==== Sys2Proof/Laws/Outcome.lean ====
section
/-! SUPPORT. What no command's outcome writes (R18, R71): the host's registers, the latch, the port, the reset
level, the model's own fields; and OUTQ, which only CLEAR's outcome empties. -/

namespace Sys2Proof.Laws

open Sys2Proof.Machine

/-- `s'` agrees with `s` on everything that is not engine state a command may write. -/
structure SameHostSide (s s' : State) : Prop where
  arg : s'.arg = s.arg
  ie : s'.ie = s.ie
  flags : s'.flags = s.flags
  busy : s'.busy = s.busy
  lCmd : s'.lCmd = s.lCmd
  lArg : s'.lArg = s.lArg
  rstAsserted : s'.rstAsserted = s.rstAsserted
  resp : s'.resp = s.resp
  events : s'.events = s.events
  draws : s'.draws = s.draws

theorem SameHostSide.refl (s : State) : SameHostSide s s := ⟨rfl, rfl, rfl, rfl, rfl, rfl, rfl, rfl, rfl, rfl⟩

/-- An accepted outcome keeps the host's side; it empties OUTQ (CLEAR) or keeps it; and it clears FAULT
(CLEAR) or keeps it. -/
theorem outcome_keeps {i : Instr} {s s' : State} {out : List Byte} (e : outcomeOf i s = .ok s' out) :
    SameHostSide s s' ∧ (i = .clear ∧ s'.outq = [] ∧ s'.fault = false ∨
      i ≠ .clear ∧ s'.outq = s.outq ∧ s'.fault = s.fault ∧ s'.errCode = s.errCode ∧ s'.errOp = s.errOp) := by
  cases i with
  | insertCode sym len =>
    simp only [outcomeOf, insertCode] at e
    repeat' split at e
    all_goals first | (cases e; done) | skip
    all_goals
      cases e
      exact ⟨⟨rfl, rfl, rfl, rfl, rfl, rfl, rfl, rfl, rfl, rfl⟩, .inr ⟨by simp, rfl, rfl, rfl, rfl⟩⟩
  | clear => cases e; exact ⟨⟨rfl, rfl, rfl, rfl, rfl, rfl, rfl, rfl, rfl, rfl⟩, .inl ⟨rfl, rfl, rfl⟩⟩
  | nop => cases e; exact ⟨.refl s, .inr ⟨by simp, rfl, rfl, rfl, rfl⟩⟩
  | _ =>
    simp only [outcomeOf, addCount, buildTree, readNode, genCodes, encodeByte, flushEncoder, startDecoder,
      decodeByte, endDecoder] at e
    repeat' split at e
    all_goals first | (cases e; done) | skip
    all_goals
      cases e
      exact ⟨⟨rfl, rfl, rfl, rfl, rfl, rfl, rfl, rfl, rfl, rfl⟩, .inr ⟨by simp, rfl, rfl, rfl, rfl⟩⟩

/-- Only the three commands that produce bytes can have output (R73). -/
theorem outcome_output {i : Instr} {s s' : State} {out : List Byte} (e : outcomeOf i s = .ok s' out)
    (h : out ≠ []) : (∃ b, i = .encByte b) ∨ i = .encFlush ∨ ∃ b, i = .decByte b := by
  cases i with
  | encByte b => exact .inl ⟨b, rfl⟩
  | encFlush => exact .inr (.inl rfl)
  | decByte b => exact .inr (.inr ⟨b, rfl⟩)
  | insertCode sym len =>
    simp only [outcomeOf, insertCode] at e
    repeat' split at e
    all_goals first | (cases e; done) | (cases e; exact absurd rfl h)
  | _ =>
    simp only [outcomeOf, addCount, buildTree, readNode, genCodes, startDecoder, endDecoder] at e
    repeat' split at e
    all_goals first | (cases e; done) | (cases e; exact absurd rfl h)

end Sys2Proof.Laws
end

