-- ==== Sys2Proof/Laws/Completion.lean ====
section
/-! SUPPORT. What a completion changes and keeps, in the terms of Safety: a commit (R71) is `Completed`, a fault
(R72) is `Faulted`. -/

namespace Sys2Proof.Laws

open Sys2Proof.Machine

/-! ## FLAGS -/

@[simp] theorem withCmdDone_zero (f : BitVec 3) : (withCmdDone f)[0] = true := by
  simp [withCmdDone]
@[simp] theorem withCmdDone_one (f : BitVec 3) : (withCmdDone f)[1] = f[1] := by
  simp [withCmdDone]
@[simp] theorem withCmdDone_two (f : BitVec 3) : (withCmdDone f)[2] = f[2] := by
  simp [withCmdDone]

/-! ## The two commits -/

/-- R71. -/
theorem completed_commitOk {s s' : State} (out : List Byte) (h : SameHostSide s s') :
    Completed s (commitOk s' out) := by
  obtain ⟨h1, h2, h3, h4, h5, h6, h7, h8, h9, h10⟩ := h
  constructor <;> simp [commitOk, *]

/-- R72. -/
theorem faulted_takeFault (c : FaultCode) (s : State) : Faulted c s (takeFault c s) := by
  refine ⟨rfl, rfl, rfl, ?_, ?_⟩
  · constructor <;> simp [takeFault]
  · exact ⟨⟨rfl, rfl⟩, ⟨rfl, rfl, rfl, rfl, rfl⟩, ⟨rfl, rfl, rfl⟩, ⟨rfl, rfl, rfl⟩,
      ⟨rfl, rfl, rfl, rfl, rfl⟩, rfl, rfl⟩

/-- A command whose outcome is accepted and has room commits it. -/
theorem exec_ok {i : Instr} {s s' : State} {out : List Byte} (e : outcomeOf i s = .ok s' out)
    (h : out.length ≤ outqRoom s) :
    exec i s = .next (commitOk s' out) ∧ Completed s (commitOk s' out) :=
  ⟨by rw [exec_eq, e, complete_ok h], completed_commitOk out (outcome_keeps e).1⟩

/-- A command whose outcome is accepted without output always commits it. -/
theorem exec_ok_nil {i : Instr} {s s' : State} (e : outcomeOf i s = .ok s' []) :
    exec i s = .next (commitOk s' []) ∧ Completed s (commitOk s' []) :=
  exec_ok e (by simp)

/-- A command whose outcome is a fault takes it. -/
theorem exec_fault {i : Instr} {s : State} {c : FaultCode} (e : outcomeOf i s = .fault c) :
    exec i s = .next (takeFault c s) ∧ Faulted c s (takeFault c s) :=
  ⟨by rw [exec_eq, e, complete_fault], faulted_takeFault c s⟩

/-- A command whose accepted outcome finds no room holds. -/
theorem exec_hold {i : Instr} {s s' : State} {out : List Byte} (e : outcomeOf i s = .ok s' out)
    (h : ¬ out.length ≤ outqRoom s) : exec i s = .next s := by
  rw [exec_eq, e, complete_hold h]

/-- One command of a host that drains between commands. -/
theorem runDrained_cons {i : Instr} {is : List Instr} {s t : State}
    (h : exec i { s with outq := [] } = .next t) :
    runDrained (i :: is) s = (runDrained is t).map (fun r => (r.1, t.outq ++ r.2)) := by
  simp only [runDrained, h]

/-- R104: the faults a command's outcome can be. -/
theorem outcome_fault {i : Instr} {s : State} {c : FaultCode} (e : outcomeOf i s = .fault c) :
    c ∈ faultsOf i := by
  cases i with
  | insertCode sym len =>
    simp only [outcomeOf, insertCode] at e
    repeat' split at e
    all_goals first | (cases e; done) | (cases e; simp [faultsOf])
  | _ =>
    simp only [outcomeOf, addCount, buildTree, readNode, genCodes, encodeByte, flushEncoder, startDecoder,
      decodeByte, endDecoder] at e
    repeat' split at e
    all_goals first | (cases e; done) | (cases e; simp [faultsOf])

end Sys2Proof.Laws
end

