-- ==== Sys2Proof/Laws/Encoding.lean ====
section
/-! SUPPORT. Laws of the encoding (R61 to R65): the fields of a written-out word, and that the rows of the opcode
map do not overlap. -/

namespace Sys2Proof.Laws

/-! ## Fields -/

@[simp] theorem fieldOp_wordN (op : Byte) : fieldOp (wordN op) = op := by
  ext i hi
  simp only [fieldOp, wordN, BitVec.getElem_extractLsb', BitVec.getLsbD_append]
  rw [if_neg (by omega), ← BitVec.getLsbD_eq_getElem]
  congr 1; omega

@[simp] theorem fieldOp_wordB (op b : Byte) : fieldOp (wordB op b) = op := by
  ext i hi
  simp only [fieldOp, wordB, BitVec.getElem_extractLsb', BitVec.getLsbD_append]
  rw [if_neg (by omega), if_neg (by omega), ← BitVec.getLsbD_eq_getElem]
  congr 1; omega

@[simp] theorem fieldOp_wordS (op len sym : Byte) : fieldOp (wordS op len sym) = op := by
  ext i hi
  simp only [fieldOp, wordS, BitVec.getElem_extractLsb', BitVec.getLsbD_append]
  rw [if_neg (by omega), if_neg (by omega), if_neg (by omega), ← BitVec.getLsbD_eq_getElem]
  congr 1; omega

@[simp] theorem fieldOp_wordI (op : Byte) (idx : Index) : fieldOp (wordI op idx) = op := by
  ext i hi
  simp only [fieldOp, wordI, BitVec.getElem_extractLsb', BitVec.getLsbD_append]
  rw [if_neg (by omega), if_neg (by omega), ← BitVec.getLsbD_eq_getElem]
  congr 1; omega

@[simp] theorem fieldByte_wordB (op b : Byte) : fieldByte (wordB op b) = b := by
  ext i hi
  simp only [fieldByte, wordB, BitVec.getElem_extractLsb', BitVec.getLsbD_append]
  rw [if_pos (by omega), ← BitVec.getLsbD_eq_getElem]
  congr 1; omega

@[simp] theorem fieldByte_wordS (op len sym : Byte) : fieldByte (wordS op len sym) = sym := by
  ext i hi
  simp only [fieldByte, wordS, BitVec.getElem_extractLsb', BitVec.getLsbD_append]
  rw [if_pos (by omega), ← BitVec.getLsbD_eq_getElem]
  congr 1; omega

@[simp] theorem fieldLen_wordS (op len sym : Byte) : fieldLen (wordS op len sym) = len := by
  ext i hi
  simp only [fieldLen, wordS, BitVec.getElem_extractLsb', BitVec.getLsbD_append]
  rw [if_neg (by omega), if_pos (by omega), ← BitVec.getLsbD_eq_getElem]
  congr 1; omega

@[simp] theorem fieldIdx_wordI (op : Byte) (idx : Index) : fieldIdx (wordI op idx) = idx := by
  ext i hi
  simp only [fieldIdx, wordI, BitVec.getElem_extractLsb', BitVec.getLsbD_append]
  rw [if_pos (by omega), ← BitVec.getLsbD_eq_getElem]
  congr 1; omega

theorem fieldOp_and (w m : Word) : fieldOp (w &&& m) = fieldOp w &&& fieldOp m := by
  ext i hi; simp [fieldOp]

/-! ## Masks -/

theorem getLsbD_ones : ∀ k, k < 8 → (255#8).getLsbD k = true := by decide

theorem wordN_admitted (op : Byte) : wordN op &&& 0xFFFFFFFF = wordN op := by
  have : (0xFFFFFFFF : Word) = BitVec.allOnes 32 := by decide
  rw [this, BitVec.and_allOnes]

theorem wordB_admitted (op b : Byte) : wordB op b &&& 0xFFFFFF00 = wordB op 0 := by
  have : (0xFFFFFF00 : Word) = BitVec.allOnes 8 ++ BitVec.allOnes 16 ++ 0#8 := by decide
  rw [this]
  apply BitVec.eq_of_getLsbD_eq
  intro i hi
  simp only [wordB, BitVec.getLsbD_and, BitVec.getLsbD_append]
  by_cases h : i < 8 <;> by_cases h2 : i - 8 < 16 <;> simp [h, h2] <;>
    exact fun _ => getLsbD_ones _ (by omega)

theorem wordS_admitted (op len sym : Byte) : wordS op len sym &&& 0xFFFF0000 = wordS op 0 0 := by
  have : (0xFFFF0000 : Word) = BitVec.allOnes 8 ++ BitVec.allOnes 8 ++ 0#8 ++ 0#8 := by decide
  rw [this]
  apply BitVec.eq_of_getLsbD_eq
  intro i hi
  simp only [wordS, BitVec.getLsbD_and, BitVec.getLsbD_append]
  by_cases h : i < 8 <;> by_cases h2 : i - 8 < 8 <;> by_cases h3 : i - 8 - 8 < 8 <;> simp [h, h2, h3] <;>
    exact fun _ => getLsbD_ones _ (by omega)

theorem wordI_admitted (op : Byte) (idx : Index) : wordI op idx &&& 0xFFFFFE00 = wordI op 0 := by
  have : (0xFFFFFE00 : Word) = BitVec.allOnes 8 ++ BitVec.allOnes 15 ++ 0#9 := by decide
  rw [this]
  apply BitVec.eq_of_getLsbD_eq
  intro i hi
  simp only [wordI, BitVec.getLsbD_and, BitVec.getLsbD_append]
  by_cases h : i < 9 <;> by_cases h2 : i - 9 < 15 <;> simp [h, h2] <;>
    exact fun _ => getLsbD_ones _ (by omega)

/-! ## A word under its mask -/

theorem wordN_of {w : Word} {op : Byte} (h : w &&& 0xFFFFFFFF = wordN op) : wordN op = w := by
  rw [show (0xFFFFFFFF : Word) = BitVec.allOnes 32 by decide, BitVec.and_allOnes] at h
  exact h.symm

/-- Above bit k the word is what its mask leaves of it. -/
theorem getLsbD_of_mask {w m p : Word} {k i : Nat} (hm : ∀ i, k ≤ i → i < 32 → m.getLsbD i = true)
    (h : w &&& m = p) (hk : k ≤ i) (hi : i < 32) : p.getLsbD i = w.getLsbD i := by
  rw [← h, BitVec.getLsbD_and, hm i hk hi, Bool.and_true]

theorem wordB_of {w : Word} {op : Byte} (h : w &&& 0xFFFFFF00 = wordB op 0) : wordB op (fieldByte w) = w := by
  apply BitVec.eq_of_getLsbD_eq
  intro i hi
  by_cases h8 : i < 8
  · simp only [wordB, BitVec.getLsbD_append, h8, if_true, fieldByte, BitVec.getLsbD_extractLsb', Nat.zero_add,
      decide_true, Bool.true_and]
  · rw [← getLsbD_of_mask (k := 8) (by decide) h (by omega) hi]
    simp only [wordB, BitVec.getLsbD_append, h8, if_false]

theorem wordS_of {w : Word} {op : Byte} (h : w &&& 0xFFFF0000 = wordS op 0 0) :
    wordS op (fieldLen w) (fieldByte w) = w := by
  apply BitVec.eq_of_getLsbD_eq
  intro i hi
  by_cases h8 : i < 8
  · simp only [wordS, BitVec.getLsbD_append, h8, if_true, fieldByte, BitVec.getLsbD_extractLsb', Nat.zero_add,
      decide_true, Bool.true_and]
  · by_cases h16 : i - 8 < 8
    · simp only [wordS, BitVec.getLsbD_append, h8, h16, if_false, if_true, fieldLen, BitVec.getLsbD_extractLsb',
        decide_true, Bool.true_and]
      congr 1; omega
    · rw [← getLsbD_of_mask (k := 16) (by decide) h (by omega) hi]
      simp only [wordS, BitVec.getLsbD_append, h8, h16, if_false]

theorem wordI_of {w : Word} {op : Byte} (h : w &&& 0xFFFFFE00 = wordI op 0) : wordI op (fieldIdx w) = w := by
  apply BitVec.eq_of_getLsbD_eq
  intro i hi
  by_cases h9 : i < 9
  · simp only [wordI, BitVec.getLsbD_append, h9, if_true, fieldIdx, BitVec.getLsbD_extractLsb', Nat.zero_add,
      decide_true, Bool.true_and]
  · rw [← getLsbD_of_mask (k := 9) (by decide) h (by omega) hi]
    simp only [wordI, BitVec.getLsbD_append, h9, if_false]

/-! ## No two rows overlap (R64) -/

/-- Every mask covers the opcode. -/
theorem opcodeMap_masks : ∀ r ∈ opcodeMap, fieldOp r.mask = 0xFF := by
  simp only [opcodeMap, List.cons_append, List.nil_append, List.forall_mem_cons]
  decide

/-- The opcodes of two rows differ. -/
theorem opcodeMap_ops : opcodeMap.Pairwise (fun a b => fieldOp a.pattern ≠ fieldOp b.pattern) := by
  have h : (opcodeMap.map (fun r => fieldOp r.pattern)).Nodup := by decide
  exact List.pairwise_map.1 h

theorem admits_op {r : Row} (hr : r ∈ opcodeMap) {w : Word} (h : r.admits w = true) :
    fieldOp w = fieldOp r.pattern := by
  have h1 : w &&& r.mask = r.pattern := by simpa [Row.admits] using h
  rw [← h1, fieldOp_and, opcodeMap_masks r hr]
  show fieldOp w = fieldOp w &&& BitVec.allOnes 8
  rw [BitVec.and_allOnes]

/-- The row that admits a word is the only one, and the one the decoder finds. -/
theorem find_row {r : Row} (hr : r ∈ opcodeMap) {w : Word} (h : r.admits w = true) :
    opcodeMap.find? (fun r => r.admits w) = some r := by
  have key : ∀ l : List Row, (∀ a ∈ l, a ∈ opcodeMap) →
      l.Pairwise (fun a b => fieldOp a.pattern ≠ fieldOp b.pattern) → r ∈ l →
      l.find? (fun r => r.admits w) = some r := by
    intro l
    induction l with
    | nil => intro _ _ hm; simp at hm
    | cons a l ih =>
      intro hsub hp hm
      rw [List.pairwise_cons] at hp
      by_cases ha : a.admits w = true
      · rcases List.mem_cons.1 hm with rfl | hm
        · rw [List.find?_cons_of_pos (by simpa using ha)]
        · have h1 := admits_op (hsub a (by simp)) ha
          have h2 := admits_op hr h
          exact absurd (h1.symm.trans h2) (hp.1 r hm)
      · rcases List.mem_cons.1 hm with rfl | hm
        · exact absurd h ha
        · rw [List.find?_cons_of_neg (by simpa using ha)]
          exact ih (fun a h => hsub a (List.mem_cons_of_mem _ h)) hp.2 hm
  exact key opcodeMap (fun _ h => h) opcodeMap_ops hr

/-- A word that a row admits decodes to that row's command. -/
theorem decode_of_row {r : Row} (hr : r ∈ opcodeMap) {w : Word} (h : r.admits w = true) :
    decode w = .instr (r.build w) := by
  unfold decode
  rw [find_row hr h]

/-- A word that decodes is admitted by some row. -/
theorem row_of_decode {w : Word} {i : Instr} (h : decode w = .instr i) :
    ∃ r ∈ opcodeMap, r.admits w = true ∧ i = r.build w := by
  unfold decode at h
  split at h
  · next r hr =>
    cases h
    exact ⟨r, List.mem_of_find?_eq_some hr, by simpa using List.find?_some hr, rfl⟩
  · cases h

end Sys2Proof.Laws
end

