-- ==== Sys2Proof/Laws/Insert.lean ====
section
/-! SUPPORT. How INSERT_CODE's loops (R89) grow a loaded tree: one node at a time, each under a node that had
no child there, so that old paths stay and each new node has one path. -/

namespace Sys2Proof.Laws

open Sys2Proof.Machine

/-- A tree in the first `cnt` entries whose children have greater indices, rooted at 0, every entry reached by
exactly one path. -/
structure Grow (n : NodeMem) (cnt : Nat) : Prop where
  pos : 0 < cnt
  bound : cnt ≤ 511
  leaf_links : ∀ i : Index, i.toNat < cnt → (nodeAt n i).leaf = true →
    ∀ b, (nodeAt n i).child b = Config.nil
  links : ∀ (i : Index) b, i.toNat < cnt → (nodeAt n i).child b ≠ Config.nil →
    i.toNat < ((nodeAt n i).child b).toNat ∧ ((nodeAt n i).child b).toNat < cnt
  reached : ∀ i : Index, i.toNat < cnt → ∃ p, follow n 0 p = some i
  unique : ∀ p q i, follow n 0 p = some i → follow n 0 q = some i → p = q

theorem Grow.follow_lt {n : NodeMem} {cnt : Nat} (g : Grow n cnt) {i j : Index} {p : List Bool}
    (hi : i.toNat < cnt) (h : follow n i p = some j) : j.toNat < cnt :=
  follow_mem (P := fun i => i.toNat < cnt) (fun i b hi hc => (g.links i b hi hc).2) hi h

/-! ## One new node -/

/-- N with a new entry at cnt, linked under cur by bit b. -/
def addChild (n : NodeMem) (cnt : Nat) (cur : Index) (b : Bool) (e : NodeEntry) : NodeMem :=
  setChild (setNode n cnt e) cur b (BitVec.ofNat 9 cnt)

theorem nodeAt_addChild (n : NodeMem) {cnt : Nat} {cur : Index} (b : Bool) (e : NodeEntry)
    (hc : cnt < 511) (hcur : cur.toNat < cnt) (j : Index) :
    nodeAt (addChild n cnt cur b e) j =
      if j.toNat = cnt then e
      else if j = cur then (nodeAt n cur).withChild b (BitVec.ofNat 9 cnt) else nodeAt n j := by
  unfold addChild setChild
  rw [nodeAt_setNode _ (by omega), nodeAt_setNode _ hc, nodeAt_setNode _ hc]
  by_cases h1 : j = cur
  · subst h1
    have : j.toNat ≠ cnt := by omega
    simp [this]
  · have h2 : j.toNat ≠ cur.toNat := fun h => h1 (BitVec.eq_of_toNat_eq h)
    simp [h1, h2]

section AddChild

variable {n : NodeMem} {cnt : Nat} {cur : Index} {b : Bool} {e : NodeEntry}

theorem nodeAt_addChild_other (hc : cnt < 511) (hcur : cur.toNat < cnt) {j : Index}
    (hj : j.toNat < cnt) (hne : j ≠ cur) : nodeAt (addChild n cnt cur b e) j = nodeAt n j := by
  rw [nodeAt_addChild n b e hc hcur, if_neg (by omega), if_neg hne]

theorem nodeAt_addChild_cur (hc : cnt < 511) (hcur : cur.toNat < cnt) :
    nodeAt (addChild n cnt cur b e) cur = (nodeAt n cur).withChild b (BitVec.ofNat 9 cnt) := by
  rw [nodeAt_addChild n b e hc hcur, if_neg (by omega), if_pos rfl]

theorem nodeAt_addChild_new (hc : cnt < 511) (hcur : cur.toNat < cnt) :
    nodeAt (addChild n cnt cur b e) (BitVec.ofNat 9 cnt) = e := by
  rw [nodeAt_addChild n b e hc hcur, if_pos (toNat_ofNat_index (by omega))]

/-- The paths after one new node: the old ones, and the path to its parent extended by its bit. -/
theorem follow_addChild (g : Grow n cnt) (hc : cnt < 511) (hcur : cur.toNat < cnt)
    (hnil : (nodeAt n cur).child b = Config.nil) (he : ∀ b, e.child b = Config.nil)
    {j : Index} (hj : j.toNat < cnt) (p : List Bool) (i : Index) :
    follow (addChild n cnt cur b e) j p = some i ↔
      follow n j p = some i ∨
        i = BitVec.ofNat 9 cnt ∧ ∃ p0, follow n j p0 = some cur ∧ p = p0 ++ [b] := by
  have hcn : (BitVec.ofNat 9 cnt : Index) ≠ Config.nil :=
    index_ne_nil_of_lt (by rw [toNat_ofNat_index (by omega)]; exact hc)
  induction p generalizing j with
  | nil => simp
  | cons c p ih =>
    by_cases hjc : j = cur ∧ c = b
    · obtain ⟨rfl, rfl⟩ := hjc
      rw [follow_cons, nodeAt_addChild_cur hc hcur, child_withChild, if_pos rfl, if_neg hcn,
        follow_cons, if_pos hnil]
      constructor
      · intro h
        have h2 := follow_of_childless (n := addChild n cnt j c e) (i := BitVec.ofNat 9 cnt)
          (by rw [nodeAt_addChild_new hc hcur]; exact he) h
        exact .inr ⟨h2.2, [], rfl, by simp [h2.1]⟩
      · rintro (h | ⟨rfl, p0, h, hp⟩)
        · cases h
        · cases p0 with
          | nil =>
            simp only [List.nil_append, List.cons.injEq, true_and] at hp
            subst hp; rfl
          | cons d p0 =>
            simp only [List.cons_append, List.cons.injEq] at hp
            obtain ⟨rfl, -⟩ := hp
            rw [follow_cons, if_pos hnil] at h
            cases h
    · have hchild : (nodeAt (addChild n cnt cur b e) j).child c = (nodeAt n j).child c := by
        by_cases hjcur : j = cur
        · subst hjcur
          have hcb : c ≠ b := fun h => hjc ⟨rfl, h⟩
          rw [nodeAt_addChild_cur hc hcur, child_withChild, if_neg hcb]
        · rw [nodeAt_addChild_other hc hcur hj hjcur]
      have hright : (∃ p0, follow n j p0 = some cur ∧ c :: p = p0 ++ [b]) ↔
          (nodeAt n j).child c ≠ Config.nil ∧
            ∃ p0, follow n ((nodeAt n j).child c) p0 = some cur ∧ p = p0 ++ [b] := by
        constructor
        · rintro ⟨p0, h, hp⟩
          cases p0 with
          | nil =>
            simp only [List.nil_append, List.cons.injEq] at hp
            simp only [follow_nil, Option.some.injEq] at h
            exact absurd ⟨h, hp.1⟩ hjc
          | cons d p0 =>
            simp only [List.cons_append, List.cons.injEq] at hp
            obtain ⟨rfl, rfl⟩ := hp
            rw [follow_cons] at h
            split at h
            · cases h
            · next hx => exact ⟨hx, p0, h, rfl⟩
        · rintro ⟨hx, p0, h, rfl⟩
          exact ⟨c :: p0, by rw [follow_cons, if_neg hx]; exact h, rfl⟩
      rw [follow_cons, follow_cons, hchild, hright]
      by_cases hx : (nodeAt n j).child c = Config.nil
      · simp [hx]
      · rw [if_neg hx, if_neg hx]
        refine (ih (g.links j c hj hx).2).trans ?_
        simp [hx]

/-- One new node keeps the shape. -/
theorem Grow.addChild (g : Grow n cnt) (hc : cnt < 511) (hcur : cur.toNat < cnt)
    (hint : (nodeAt n cur).leaf = false) (hnil : (nodeAt n cur).child b = Config.nil)
    (he : ∀ b, e.child b = Config.nil) : Grow (addChild n cnt cur b e) (cnt + 1) := by
  have hcn : (BitVec.ofNat 9 cnt : Index).toNat = cnt := toNat_ofNat_index (by omega)
  have key : ∀ p i, follow (Laws.addChild n cnt cur b e) 0 p = some i ↔ _ := fun p i =>
    follow_addChild g hc hcur hnil he (j := 0) (by simpa using g.pos) p i
  have hlt : ∀ p i, follow n 0 p = some i → i.toNat < cnt := fun p i h =>
    g.follow_lt (by simpa using g.pos) h
  constructor
  · omega
  · omega
  · intro i hi hl b'
    rw [nodeAt_addChild n b e hc hcur] at hl ⊢
    split at hl
    · next h => rw [if_pos h]; exact he b'
    · next h =>
      split at hl
      · rw [withChild_leaf, hint] at hl; cases hl
      · next h2 => rw [if_neg h, if_neg h2]; exact g.leaf_links i (by omega) hl b'
  · intro i b' hi hx
    rw [nodeAt_addChild n b e hc hcur] at hx ⊢
    by_cases h : i.toNat = cnt
    · rw [if_pos h] at hx; exact absurd (he b') hx
    · rw [if_neg h] at hx ⊢
      by_cases h2 : i = cur
      · rw [if_pos h2, child_withChild] at hx ⊢
        subst h2
        by_cases h3 : b' = b
        · rw [if_pos h3, hcn]; omega
        · rw [if_neg h3] at hx ⊢
          have := g.links i b' hcur hx
          omega
      · rw [if_neg h2] at hx ⊢
        have := g.links i b' (by omega) hx
        omega
  · intro i hi
    by_cases h : i.toNat = cnt
    · obtain ⟨p, hp⟩ := g.reached cur hcur
      refine ⟨p ++ [b], (key _ _).2 (.inr ⟨BitVec.eq_of_toNat_eq (by rw [hcn, h]), p, hp, rfl⟩)⟩
    · obtain ⟨p, hp⟩ := g.reached i (by omega)
      exact ⟨p, (key _ _).2 (.inl hp)⟩
  · intro p q i hp hq
    rcases (key _ _).1 hp with hp1 | ⟨hi, p0, hp1, hpe⟩ <;>
      rcases (key _ _).1 hq with hq1 | ⟨hj, q0, hq1, hqe⟩
    · exact g.unique p q i hp1 hq1
    · have := hlt p i hp1
      rw [hj, hcn] at this; omega
    · have := hlt q i hq1
      rw [hi, hcn] at this; omega
    · rw [hpe, hqe, g.unique p0 q0 cur hp1 hq1]

end AddChild

/-! ## The grafted path -/

/-- What R89's allocation loop leaves: `rest` new entries, internal but for the last, a leaf of `sym`; old
entries keep everything but the one new link; old paths stay and the whole code leads to the new leaf. -/
structure Grafted (sym : Byte) (n : NodeMem) (cnt : Nat) (cur : Index) (pre rest : List Bool)
    (r : NodeMem × Nat) : Prop where
  count : r.2 = cnt + rest.length
  grow : Grow r.1 r.2
  old : ∀ i : Index, i.toNat < cnt → i ≠ cur → nodeAt r.1 i = nodeAt n i
  parent : ∃ b, rest.head? = some b ∧
    nodeAt r.1 cur = (nodeAt n cur).withChild b (BitVec.ofNat 9 cnt)
  new_fields : ∀ i : Index, cnt ≤ i.toNat → i.toNat < r.2 →
    (nodeAt r.1 i).synth = false ∧ (nodeAt r.1 i).freq = 0 ∧
    ((nodeAt r.1 i).leaf = true ∧ i.toNat + 1 = r.2 ∧ (nodeAt r.1 i).sym = sym ∨
      (nodeAt r.1 i).leaf = false ∧ i.toNat + 1 ≠ r.2 ∧ (nodeAt r.1 i).sym = 0 ∧
        ∃ b, (nodeAt r.1 i).child b ≠ Config.nil)
  keeps : ∀ p i, follow n 0 p = some i → follow r.1 0 p = some i
  reaches : follow r.1 0 (pre ++ rest) = some (BitVec.ofNat 9 (r.2 - 1))
  paths : ∀ p i, follow r.1 0 p = some i →
    follow n 0 p = some i ∨ p.length ≤ pre.length + rest.length

theorem graft_spec (sym : Byte) {n : NodeMem} {cnt : Nat} {cur : Index} {pre rest : List Bool} {b : Bool}
    (g : Grow n cnt) (hroom : cnt + rest.length ≤ 511) (hcur : cur.toNat < cnt)
    (hint : (nodeAt n cur).leaf = false) (hb : rest.head? = some b)
    (hnil : (nodeAt n cur).child b = Config.nil) (hpre : follow n 0 pre = some cur) :
    Grafted sym n cnt cur pre rest (graft sym n cnt cur rest) := by
  induction rest generalizing n cnt cur pre b with
  | nil => cases hb
  | cons b0 rest ih =>
    simp only [List.head?_cons, Option.some.injEq] at hb
    subst hb
    have h0 : (0 : Index).toNat < cnt := by simpa using g.pos
    have hc : cnt < 511 := by simp only [List.length_cons] at hroom; omega
    have hcn : (BitVec.ofNat 9 cnt : Index).toNat = cnt := toNat_ofNat_index (by omega)
    have hcnil : (BitVec.ofNat 9 cnt : Index) ≠ Config.nil := index_ne_nil_of_lt (by omega)
    cases rest with
    | nil =>
      have he : ∀ b, (leafNode sym 0).child b = Config.nil := by intro b; cases b <;> rfl
      have key := fun p i => follow_addChild g hc hcur hnil he h0 p i
      show Grafted sym n cnt cur pre [b0] (addChild n cnt cur b0 (leafNode sym 0), cnt + 1)
      refine ⟨rfl, g.addChild hc hcur hint hnil he, ?_, ⟨b0, rfl, nodeAt_addChild_cur hc hcur⟩, ?_, ?_, ?_,
        ?_⟩
      · intro i hi hne; exact nodeAt_addChild_other hc hcur hi hne
      · intro i h1 h2
        have : i = BitVec.ofNat 9 cnt := BitVec.eq_of_toNat_eq (by rw [hcn]; omega)
        subst this
        simp only [nodeAt_addChild_new hc hcur]
        exact ⟨rfl, rfl, .inl ⟨rfl, by rw [hcn], rfl⟩⟩
      · intro p i h; exact (key p i).2 (.inl h)
      · exact (key _ _).2 (.inr ⟨rfl, pre, hpre, rfl⟩)
      · intro p i h
        rcases (key p i).1 h with h1 | ⟨-, p0, h1, hpe⟩
        · exact .inl h1
        · right
          rw [hpe, g.unique p0 pre cur h1 hpre]
          simp
    | cons b1 rest =>
      have he : ∀ b, (internalNode 0 Config.nil Config.nil).child b = Config.nil := by
        intro b; cases b <;> rfl
      have key := fun p i => follow_addChild g hc hcur hnil he h0 p i
      have g1 := g.addChild hc hcur hint hnil he
      have hnew := nodeAt_addChild_new (n := n) (b := b0)
        (e := internalNode 0 Config.nil Config.nil) hc hcur
      have hstep := (key _ _).2 (.inr ⟨rfl, pre, hpre, rfl⟩)
      have ih' := ih (b := b1) g1 (by simp only [List.length_cons] at hroom ⊢; omega)
        (cur := BitVec.ofNat 9 cnt) (by omega) (by rw [hnew]; rfl) rfl
        (by rw [hnew]; exact he b1) hstep
      show Grafted sym n cnt cur pre (b0 :: b1 :: rest)
        (graft sym (addChild n cnt cur b0 (internalNode 0 Config.nil Config.nil)) (cnt + 1)
          (BitVec.ofNat 9 cnt) (b1 :: rest))
      generalize graft sym (addChild n cnt cur b0 (internalNode 0 Config.nil Config.nil)) (cnt + 1)
          (BitVec.ofNat 9 cnt) (b1 :: rest) = r at ih'
      have hne : cur ≠ BitVec.ofNat 9 cnt := by
        intro h; rw [h, hcn] at hcur; omega
      have hcount := ih'.count
      refine ⟨by rw [hcount]; simp only [List.length_cons]; omega, ih'.grow, ?_, ?_, ?_, ?_, ?_, ?_⟩
      · intro i hi hic
        rw [ih'.old i (by omega) (by intro h; rw [h, hcn] at hi; omega)]
        exact nodeAt_addChild_other hc hcur hi hic
      · refine ⟨b0, rfl, ?_⟩
        rw [ih'.old cur (by omega) hne]
        exact nodeAt_addChild_cur hc hcur
      · intro i h1 h2
        by_cases h : i.toNat = cnt
        · have : i = BitVec.ofNat 9 cnt := BitVec.eq_of_toNat_eq (by rw [hcn, h])
          subst this
          obtain ⟨b2, hb2, hp⟩ := ih'.parent
          rw [hp, hnew]
          simp only [List.head?_cons, Option.some.injEq] at hb2
          subst hb2
          refine ⟨by rw [withChild_synth]; rfl, by rw [withChild_freq]; rfl, .inr ⟨?_, ?_, ?_, b1, ?_⟩⟩
          · rw [withChild_leaf]; rfl
          · rw [hcn, hcount]; simp only [List.length_cons]; omega
          · rw [withChild_sym]; rfl
          · rw [child_withChild, if_pos rfl]
            apply index_ne_nil_of_lt
            rw [toNat_ofNat_index (by simp only [List.length_cons] at hroom; omega)]
            simp only [List.length_cons] at hroom; omega
        · exact ih'.new_fields i (by omega) h2
      · intro p i h; exact ih'.keeps p i ((key p i).2 (.inl h))
      · have := ih'.reaches
        rwa [List.append_assoc] at this
      · intro p i h
        rcases ih'.paths p i h with h | h
        · rcases (key p i).1 h with h1 | ⟨-, p0, h1, hpe⟩
          · exact .inl h1
          · right
            rw [hpe, g.unique p0 pre cur h1 hpre]
            simp only [List.length_append, List.length_cons, List.length_nil]; omega
        · right
          simp only [List.length_append, List.length_cons, List.length_nil] at h ⊢
          omega

/-! ## The descent -/

/-- Where the descent stops, the code splits there: the first part leads to an internal node that has no edge
for the next bit. -/
theorem descend_stop {n : NodeMem} {i cur : Index} {q rest : List Bool}
    (hi : (nodeAt n i).leaf = false) (hq : q ≠ []) (h : descend n i q = .stop cur rest) :
    (nodeAt n cur).leaf = false ∧
    ∃ pre b, pre ++ rest = q ∧ follow n i pre = some cur ∧ rest.head? = some b ∧
      (nodeAt n cur).child b = Config.nil := by
  induction q generalizing i with
  | nil => exact absurd rfl hq
  | cons b q ih =>
    cases q with
    | nil =>
      simp only [descend] at h
      split at h
      · next hc => cases h; exact ⟨hi, [], b, rfl, rfl, rfl, hc⟩
      · cases h
    | cons b' q =>
      simp only [descend] at h
      split at h
      · next hc => cases h; exact ⟨hi, [], b, rfl, rfl, rfl, hc⟩
      · next hc =>
        split at h
        · cases h
        · next hl =>
          obtain ⟨h1, pre, b2, hp, hf, hh, hn⟩ := ih (by simpa using hl) (by simp) h
          refine ⟨h1, b :: pre, b2, by simp [hp], ?_, hh, hn⟩
          rw [follow_cons, if_neg hc]
          exact hf

/-- A conflict is a leaf on a proper first part of the code, or a node at the end of the whole code. -/
theorem descend_conflict {n : NodeMem} {i : Index} {q : List Bool} (hq : q ≠ []) :
    descend n i q = .conflict ↔
      (∃ p j, p ≠ [] ∧ p <+: q ∧ p ≠ q ∧ follow n i p = some j ∧ (nodeAt n j).leaf = true ∧
        ∀ p' j', p' ≠ [] → p' <+: p → p' ≠ p → follow n i p' = some j' → (nodeAt n j').leaf = false) ∨
      (∃ j, follow n i q = some j ∧
        ∀ p' j', p' ≠ [] → p' <+: q → p' ≠ q → follow n i p' = some j' → (nodeAt n j').leaf = false) := by
  induction q generalizing i with
  | nil => exact absurd rfl hq
  | cons b q ih =>
    cases q with
    | nil =>
      simp only [descend, follow_cons, follow_nil]
      by_cases hc : (nodeAt n i).child b = Config.nil
      · rw [if_pos hc]
        simp only [reduceCtorEq, false_iff, not_or, not_exists, not_and]
        refine ⟨?_, by intro j h; rw [if_pos hc] at h; cases h⟩
        intro p j hp hpre hne
        cases p with
        | nil => exact absurd rfl hp
        | cons c p =>
          obtain ⟨t, ht⟩ := hpre
          simp only [List.cons_append, List.cons.injEq, List.append_eq_nil_iff] at ht
          exact absurd (by simp [ht.1, ht.2.1]) hne
      · rw [if_neg hc]
        simp only [true_iff]
        right
        refine ⟨(nodeAt n i).child b, by rw [if_neg hc], ?_⟩
        intro p' j' hp hpre hne
        cases p' with
        | nil => exact absurd rfl hp
        | cons c p =>
          obtain ⟨t, ht⟩ := hpre
          simp only [List.cons_append, List.cons.injEq, List.append_eq_nil_iff] at ht
          exact absurd (by simp [ht.1, ht.2.1]) hne
    | cons b' q =>
      have one : ∀ j', follow n i [b] = some j' → (nodeAt n i).child b ≠ Config.nil ∧
          j' = (nodeAt n i).child b := by
        intro j' h
        rw [follow_cons] at h
        split at h
        · cases h
        · next hc => simp only [follow_nil, Option.some.injEq] at h; exact ⟨hc, h.symm⟩
      have hbpre : [b] <+: b :: b' :: q := ⟨b' :: q, rfl⟩
      simp only [descend]
      by_cases hc : (nodeAt n i).child b = Config.nil
      · rw [if_pos hc]
        simp only [reduceCtorEq, false_iff, not_or, not_exists, not_and]
        constructor
        · intro p j hp hpre _ hf
          cases p with
          | nil => exact absurd rfl hp
          | cons c p =>
            obtain ⟨t, ht⟩ := hpre
            simp only [List.cons_append, List.cons.injEq] at ht
            rw [follow_cons, ht.1, if_pos hc] at hf
            cases hf
        · intro j hf
          rw [follow_cons, if_pos hc] at hf
          cases hf
      · rw [if_neg hc]
        by_cases hl : (nodeAt n ((nodeAt n i).child b)).leaf = true
        · rw [if_pos hl]
          simp only [true_iff]
          left
          refine ⟨[b], (nodeAt n i).child b, by simp, hbpre, by simp, ?_, hl, ?_⟩
          · rw [follow_cons, if_neg hc]; rfl
          · intro p' j' hp hpre hne
            have hlen := hpre.length_le
            cases p' with
            | nil => exact absurd rfl hp
            | cons c p =>
              exact absurd (hpre.eq_of_length_le (by simp)) hne
        · rw [if_neg hl, ih (by simp)]
          have hl' : (nodeAt n ((nodeAt n i).child b)).leaf = false := by simpa using hl
          constructor
          · rintro (⟨p, j, hp, hpre, hne, hf, hlf, hmin⟩ | ⟨j, hf, hmin⟩)
            · left
              refine ⟨b :: p, j, by simp, List.cons_prefix_cons.2 ⟨rfl, hpre⟩, by simpa using hne, ?_, hlf, ?_⟩
              · rw [follow_cons, if_neg hc]; exact hf
              · intro p' j' hp' hpre' hne' hf'
                cases p' with
                | nil => exact absurd rfl hp'
                | cons c p' =>
                  obtain ⟨rfl, h2⟩ := List.cons_prefix_cons.1 hpre'
                  rw [follow_cons, if_neg hc] at hf'
                  by_cases hp0 : p' = []
                  · subst hp0
                    simp only [follow_nil, Option.some.injEq] at hf'
                    rw [← hf']; exact hl'
                  · exact hmin p' j' hp0 h2 (by simpa using hne') hf'
            · right
              refine ⟨j, by rw [follow_cons, if_neg hc]; exact hf, ?_⟩
              intro p' j' hp' hpre' hne' hf'
              cases p' with
              | nil => exact absurd rfl hp'
              | cons c p' =>
                obtain ⟨rfl, h2⟩ := List.cons_prefix_cons.1 hpre'
                rw [follow_cons, if_neg hc] at hf'
                by_cases hp0 : p' = []
                · subst hp0
                  simp only [follow_nil, Option.some.injEq] at hf'
                  rw [← hf']; exact hl'
                · exact hmin p' j' hp0 h2 (by simpa using hne') hf'
          · rintro (⟨p, j, hp, hpre, hne, hf, hlf, hmin⟩ | ⟨j, hf, hmin⟩)
            · left
              cases p with
              | nil => exact absurd rfl hp
              | cons c p =>
                obtain ⟨rfl, h2⟩ := List.cons_prefix_cons.1 hpre
                rw [follow_cons, if_neg hc] at hf
                by_cases hp0 : p = []
                · subst hp0
                  simp only [follow_nil, Option.some.injEq] at hf
                  rw [← hf, hl'] at hlf; cases hlf
                · refine ⟨p, j, hp0, h2, by simpa using hne, hf, hlf, ?_⟩
                  intro p' j' hp' hpre' hne' hf'
                  exact hmin (c :: p') j' (by simp) (List.cons_prefix_cons.2 ⟨rfl, hpre'⟩) (by simpa using hne')
                    (by rw [follow_cons, if_neg hc]; exact hf')
            · right
              rw [follow_cons, if_neg hc] at hf
              refine ⟨j, hf, ?_⟩
              intro p' j' hp' hpre' hne' hf'
              exact hmin (b :: p') j' (by simp) (List.cons_prefix_cons.2 ⟨rfl, hpre'⟩) (by simpa using hne')
                (by rw [follow_cons, if_neg hc]; exact hf')

end Sys2Proof.Laws
end

