-- ==== Sys2Proof/Laws/Inv.lean ====
section
/-! SUPPORT. How the commands keep the parts of the invariant (R43): each part depends on few fields, and each
outcome writes few. -/

namespace Sys2Proof.Machine

open Sys2Proof.Laws

/-! ## Each part depends only on its fields -/

theorem HistInv.congr {s t : State} (h : HistInv s) (h1 : t.freq = s.freq)
    (h2 : t.histTotal = s.histTotal) : HistInv t := by
  unfold HistInv at *; rw [h1, h2]; exact h

theorem EncInv.congr {s t : State} (h : EncInv s) (h1 : t.encAcc = s.encAcc)
    (h2 : t.encNpend = s.encNpend) : EncInv t := by
  unfold EncInv at *; rw [h1, h2]; exact h

theorem ErrorInv.congr {s t : State} (h : ErrorInv s) (h1 : t.fault = s.fault)
    (h2 : t.errCode = s.errCode) (h3 : t.errOp = s.errOp) : ErrorInv t :=
  ⟨by rw [h1, h2, h3]; exact h.clear, by rw [h1, h2]; exact h.recorded⟩

theorem TreeInv.congr {s t : State} (h : TreeInv s) (hn : t.node = s.node)
    (hc : t.nodeCount = s.nodeCount) (hl : t.leafCount = s.leafCount) (hr : t.root = s.root)
    (hs : t.treeSrc = s.treeSrc) : TreeInv t := by
  obtain ⟨h1, h2, h3, h4, h5, h6, h7, h8, h9, h10, h11, h12, h13, h14, h15⟩ := h
  constructor <;> simp only [Allocated, RealLeaf, hn, hc, hl, hr, hs] at * <;> assumption

theorem PathInv.congr {s t : State} (h : PathInv s) (hn : t.node = s.node)
    (hc : t.nodeCount = s.nodeCount) (hr : t.root = s.root) : PathInv t := by
  obtain ⟨h1, h2, h3⟩ := h
  constructor <;> simp only [Allocated, hn, hc, hr] at * <;> assumption

theorem CodeInv.congr {s t : State} (h : CodeInv s) (hn : t.node = s.node)
    (hc : t.nodeCount = s.nodeCount) (hr : t.root = s.root) (hs : t.treeSrc = s.treeSrc)
    (hk : t.code = s.code) (hm : t.codeMaxLen = s.codeMaxLen) : CodeInv t := by
  obtain ⟨h1, h2, h3, h4, h5⟩ := h
  constructor <;>
    simp only [Allocated, RealLeaf, CodePath, codeOf, codesValid, hn, hc, hr, hs, hk, hm] at * <;> assumption

theorem DecInv.congr {s t : State} (h : DecInv s) (hn : t.node = s.node)
    (hc : t.nodeCount = s.nodeCount) (hr : t.root = s.root) (h1 : t.decDone = s.decDone)
    (h2 : t.decRemain = s.decRemain) (h3 : t.decNode = s.decNode) (h4 : t.decActive = s.decActive) :
    DecInv t := by
  obtain ⟨g1, g2, g3, g4⟩ := h
  constructor <;> simp only [hn, hc, hr, h1, h2, h3, h4] at * <;> assumption

/-! ## Consequences of the tree's shape -/

section Tree

variable {s : State}

theorem TreeInv.child_allocated (h : TreeInv s) (i : Index) (b : Bool) (hi : Allocated s i)
    (hx : (nodeAt s.node i).child b ≠ Config.nil) : Allocated s ((nodeAt s.node i).child b) :=
  (h.links i b hi hx).1

theorem TreeInv.leaf_childless (h : TreeInv s) (i : Index) (hi : Allocated s i)
    (hl : (nodeAt s.node i).leaf = true) (b : Bool) : (nodeAt s.node i).child b = Config.nil := by
  have := h.leaf_links i hi hl
  cases b
  · exact this.1
  · exact this.2

theorem TreeInv.follow_allocated (h : TreeInv s) {i j : Index} {p : List Bool} (hi : Allocated s i)
    (hp : follow s.node i p = some j) : Allocated s j :=
  follow_mem (P := Allocated s) (fun i b hi hx => h.child_allocated i b hi hx) hi hp

theorem TreeInv.lt_511 (_ : TreeInv s) {i : Index} (hi : Allocated s i) : i.toNat < 511 := by
  have := s.nodeCount.isLt
  unfold Allocated at hi
  omega

/-- The walk of GEN_CODES ends in every tree of the invariant's shape (log 10). -/
theorem TreeInv.walk_ends (h : TreeInv s) (h0 : s.nodeCount ≠ 0) :
    ∃ lv, leafPaths s.node (Config.nodeCap + 1) s.root [] = some lv := by
  have hr := h.root_allocated h0
  refine leafPaths_isSome (P := Allocated s)
    (μ := fun i => if s.treeSrc = .built then i.toNat else 511 - i.toNat) ?_ _ hr ?_ _
  · intro i b hi hx
    obtain ⟨h1, h2, h3⟩ := h.links i b hi hx
    refine ⟨h1, ?_⟩
    have := h.lt_511 h1
    cases hs : s.treeSrc with
    | built => simp only [if_true]; exact h2 hs
    | loaded =>
      have := h3 hs
      simp only [reduceCtorEq, if_false]
      omega
  · have := h.lt_511 hr
    simp only [Config.nodeCap]
    split <;> omega

end Tree

/-! ## FREQ (I1) -/

theorem sum_set (l : List Word) (i : Nat) (h : i < l.length) (x : Word) :
    ((l.set i x).map BitVec.toNat).sum + l[i].toNat = (l.map BitVec.toNat).sum + x.toNat := by
  induction l generalizing i with
  | nil => simp at h
  | cons a l ih =>
    cases i with
    | zero => simp only [List.set_cons_zero, List.map_cons, List.sum_cons, List.getElem_cons_zero]; omega
    | succ i =>
      have := ih i (by simpa using h)
      simp only [List.set_cons_succ, List.map_cons, List.sum_cons, List.getElem_cons_succ]
      omega

theorem getElem_le_sum (l : List Word) (i : Nat) (h : i < l.length) :
    l[i].toNat ≤ (l.map BitVec.toNat).sum := by
  have := sum_set l i h 0
  have h0 : (0 : Word).toNat = 0 := rfl
  omega

/-- No FREQ entry exceeds HIST_TOTAL (R80, corner cases). -/
theorem HistInv.freq_le {s : State} (h : HistInv s) (b : Byte) :
    (freqAt s b).toNat ≤ s.histTotal.toNat := by
  unfold HistInv at h
  rw [h]
  have := getElem_le_sum s.freq.toList b.toNat (by simpa using b.isLt)
  simpa [freqAt] using this

/-- The histogram stays exact under an accepted count (R80, R81). -/
theorem addCount_hist {b : Byte} {n : Word} {s s' : State} {out : List Byte} (h : HistInv s)
    (e : addCount b n s = .ok s' out) : HistInv s' := by
  unfold addCount at e
  split at e
  · cases e
  · next hle =>
    cases e
    have hf := h.freq_le b
    unfold HistInv at *
    have hb : b.toNat < s.freq.toList.length := by simpa using b.isLt
    have := sum_set s.freq.toList b.toNat hb (freqAt s b + n)
    have hg : s.freq.toList[b.toNat] = freqAt s b := by simp [freqAt]
    rw [hg] at this
    simp only [Vector.toList_set]
    rw [BitVec.toNat_add] at this ⊢
    have h1 : (freqAt s b).toNat + n.toNat < 2 ^ 32 := by omega
    rw [Nat.mod_eq_of_lt h1] at this
    rw [Nat.mod_eq_of_lt (by omega)]
    omega

/-! ## The encoder's pending bits (R41) -/

theorem setPending_enc {r : List Bool} (s : State) (h : r.length < 8) : EncInv (setPending r s) := by
  unfold EncInv
  simp only [setPending_encAcc, setPending_encNpend, BitVec.toNat_ofNat]
  rw [Nat.mod_eq_of_lt (show r.length < 2 ^ 3 by omega)]
  exact lt_of_le_of_lt (Nat.mod_le _ _) (value_lt r)

/-! ## Cleared trees and codes -/

/-- No tree, no codes, and a cleared decoder satisfy the parts about them. -/
theorem cleared_tree {t : State} (h1 : t.nodeCount = 0) (h2 : t.leafCount = 0)
    (h3 : t.root = Config.nil) (h4 : t.treeSrc = .built) : TreeInv t ∧ PathInv t := by
  have hno : ∀ i, ¬ Allocated t i := by intro i hi; simp [Allocated, h1] at hi
  constructor
  · constructor
    case empty_iff => simp [h1, h3]
    case empty_src => exact fun _ => h4
    case leafCount_eq => simp [h1, h2]
    case built_count => intro _ h; exact absurd h1 h
    case loaded_root => rw [h4]; simp
    all_goals first
      | exact fun h => absurd h1 h
      | exact fun i hi => absurd hi (hno i)
      | exact fun i b hi => absurd hi (hno i)
      | exact fun _ i hi => absurd hi (hno i)
  · exact ⟨fun i hi => absurd hi (hno i), fun h => absurd h1 h, fun h => absurd h1 h⟩

/-- A table with every entry invalid satisfies I5 over a built tree or none. -/
theorem cleared_codes {t : State} (h1 : t.code = Vector.replicate 256 CodeEntry.invalid)
    (h2 : t.codeMaxLen = 0) (h3 : t.treeSrc = .built) : CodeInv t := by
  have hv : ∀ b, codeOf t b = CodeEntry.invalid := by intro b; simp [codeOf, h1]
  constructor
  · intro b _; rw [hv]; rfl
  · intro b h; rw [hv] at h; cases h
  · rintro (h | h)
    · rw [h3] at h; cases h
    · obtain ⟨e, he, hv2⟩ := List.any_eq_true.1 h
      rw [h1, Vector.toList_replicate] at he
      rw [List.eq_of_mem_replicate he] at hv2
      cases hv2
  · intro b h; rw [hv] at h; cases h
  · intro h; exact absurd h2 h

/-- A cleared decoder at the root satisfies I6 and I8. -/
theorem cleared_decoder {t : State} (h1 : t.decActive = false) (h2 : t.decDone = false)
    (h3 : t.nodeCount = 0 → t.decNode = Config.nil) : DecInv t := by
  constructor
  · intro h; rw [h2] at h; cases h
  · intro h; exact ⟨h3 h, by intro h4; rw [h1] at h4; cases h4⟩
  · intro h; rw [h1] at h; cases h
  · intro h; rw [h1] at h; cases h

end Sys2Proof.Machine
end

