-- ==== Sys2Proof/Laws/InvCommands.lean ====
section
/-! SUPPORT. The tree, code and decoder parts of the invariant after the commands that write them: GEN_CODES,
INSERT_CODE, BUILD_TREE, and the decoder's. -/

namespace Sys2Proof.Machine

open Sys2Proof.Laws

/-! ## GEN_CODES (R91) -/

/-- GEN_CODES's table over a tree of the invariant's shape: an entry is valid exactly for the symbol of a real
leaf, and is then that leaf's path. -/
theorem genCodes_table {s : State} (ht : TreeInv s) (hp : PathInv s) (h0 : s.nodeCount ≠ 0)
    {lv : List (NodeEntry × List Bool)} (hw : leafPaths s.node (Config.nodeCap + 1) s.root [] = some lv)
    (b : Byte) :
    ((codeTable lv)[b.toNat] = CodeEntry.invalid ∧
        ∀ i, Allocated s i → RealLeaf s i → (nodeAt s.node i).sym ≠ b) ∨
      ∃ i p, Allocated s i ∧ RealLeaf s i ∧ (nodeAt s.node i).sym = b ∧ follow s.node s.root p = some i ∧
        (nodeAt s.node i, p) ∈ lv ∧ (codeTable lv)[b.toNat] = ⟨true, p⟩ := by
  have hr := ht.root_allocated h0
  have hm := fun e q => mem_leafPaths (P := Allocated s) (fun i b hi hx => ht.child_allocated i b hi hx)
    (fun i hi hl b => ht.leaf_childless i hi hl b) hr hw e q
  rcases getElem_codeTable lv b with ⟨h1, h2⟩ | ⟨⟨e, q⟩, hx, h1, h2⟩
  · left
    refine ⟨h1, ?_⟩
    intro i hi hl
    obtain ⟨p, hp⟩ := hp.reached i hi
    exact h2 (nodeAt s.node i, p) ((hm _ _).2 ⟨p, i, rfl, hp, hl.1, hl.2, rfl⟩)
  · right
    obtain ⟨r, j, hq, hf, hl, hs, he⟩ := (hm _ _).1 hx
    simp only [List.nil_append] at hq
    subst hq; subst he
    exact ⟨j, q, ht.follow_allocated hr hf, ⟨hl, hs⟩, h1, hf, hx, h2⟩

/-- A tree with nodes has a real leaf below every node (R91: CODES_VALID becomes 1). -/
theorem TreeInv.exists_leaf {s : State} (ht : TreeInv s) {i : Index} (hi : Allocated s i) :
    ∃ p j, follow s.node i p = some j ∧ (nodeAt s.node j).leaf = true := by
  obtain ⟨k, hk⟩ : ∃ k, (if s.treeSrc = .built then i.toNat else 511 - i.toNat) = k := ⟨_, rfl⟩
  induction k using Nat.strong_induction_on generalizing i with
  | _ k ih =>
    by_cases hl : (nodeAt s.node i).leaf = true
    · exact ⟨[], i, rfl, hl⟩
    · obtain ⟨b, hb⟩ := ht.internal_child i hi (by simpa using hl)
      obtain ⟨h1, h2, h3⟩ := ht.links i b hi hb
      have hlt := ht.lt_511 h1
      obtain ⟨p, j, hp, hj⟩ := ih (if s.treeSrc = .built then ((nodeAt s.node i).child b).toNat
          else 511 - ((nodeAt s.node i).child b).toNat) (by
        cases hs : s.treeSrc with
        | built => simp only [hs, if_true] at hk ⊢; have := h2 hs; omega
        | loaded => simp only [hs, reduceCtorEq, if_false] at hk ⊢; have := h3 hs; omega) h1 rfl
      exact ⟨b :: p, j, by rw [follow_cons, if_neg hb]; exact hp, hj⟩

/-- GEN_CODES keeps I5. -/
theorem genCodes_code {s s' : State} {out : List Byte} (ht : TreeInv s) (hp : PathInv s)
    (e : genCodes s = .ok s' out) : CodeInv s' := by
  unfold genCodes at e
  split at e
  · cases e
  · next h0 =>
    split at e
    · cases e
    · next lv hw =>
      cases e
      have hb := genCodes_table ht hp h0 hw
      have hr := ht.root_allocated h0
      have hlen : ∀ x ∈ lv, x.2.length ≤ 255 := by
        intro x hx
        obtain ⟨r, j, hq, hf, -⟩ := (mem_leafPaths (P := Allocated s)
          (fun i b hi hx => ht.child_allocated i b hi hx)
          (fun i hi hl b => ht.leaf_childless i hi hl b) hr hw x.1 x.2).1 hx
        rw [hq]; exact hp.depth h0 _ _ hf
      obtain ⟨hm1, hm2⟩ := maxLength_spec lv
      have hmax : (BitVec.ofNat 8 (maxLength lv)).toNat = maxLength lv := by
        rw [BitVec.toNat_ofNat]
        apply Nat.mod_eq_of_lt
        rcases hm2 with h | ⟨x, hx, h⟩
        · rw [h]; decide
        · have := hlen x hx; omega
      constructor
      · intro b hv
        rcases hb b with ⟨h1, -⟩ | ⟨i, p, -, -, -, -, -, h1⟩
        · show (codeTable lv)[b.toNat].bits = []
          rw [h1]; rfl
        · simp only [codeOf, h1] at hv; cases hv
      · intro b hv
        refine ⟨h0, ?_⟩
        rcases hb b with ⟨h1, -⟩ | ⟨i, p, -, h2, h3, h4, -, h1⟩
        · simp only [codeOf, h1] at hv; cases hv
        · exact ⟨i, by simp only [codeOf, h1]; exact h4, h2, h3⟩
      · intro _ i hi hl
        rcases hb (nodeAt s.node i).sym with ⟨-, h2⟩ | ⟨j, p, -, -, -, -, -, h1⟩
        · exact absurd rfl (h2 i hi hl)
        · simp only [codeOf, h1]
      · intro b hv
        rcases hb b with ⟨h1, -⟩ | ⟨i, p, -, -, -, -, h5, h1⟩
        · simp only [codeOf, h1] at hv; cases hv
        · simp only [codeOf, h1, hmax]
          exact hm1 _ h5
      · intro hne
        simp only [hmax]
        rcases hm2 with h | ⟨⟨e, q⟩, hx, h⟩
        · exact absurd (by simp only [h]; rfl) hne
        · obtain ⟨r, j, hq, hf, hl, hs, he⟩ := (mem_leafPaths (P := Allocated s)
            (fun i b hi hx => ht.child_allocated i b hi hx)
            (fun i hi hl b => ht.leaf_childless i hi hl b) hr hw _ _).1 hx
          simp only [List.nil_append] at hq
          subst hq; subst he
          have hja := ht.follow_allocated hr hf
          rcases hb (nodeAt s.node j).sym with ⟨-, h2⟩ | ⟨i, p, hi, h2, h3, h4, -, h1⟩
          · exact absurd rfl (h2 j hja ⟨hl, hs⟩)
          · have := ht.leaf_syms i j hi hja h2 ⟨hl, hs⟩ h3
            subst this
            rw [hp.unique h0 _ _ _ h4 hf] at h1
            exact ⟨(nodeAt s.node i).sym, by simp only [codeOf, h1], by simp only [codeOf, h1]; exact h⟩

end Sys2Proof.Machine
end

