-- ==== Sys2Proof/Laws/InvBuild.lean ====
section
/-! SUPPORT. BUILD_TREE (R85) makes a tree that satisfies R43: the leaves of the histogram, the merge loop over
them, and the state it leaves. -/

namespace Sys2Proof.Laws

open Sys2Proof.Machine

/-! ## The leaves -/

/-- The leaves of a list of counts, the first symbol being k. -/
def countLeaves (l : List Word) (k : Nat) : List NodeEntry :=
  (l.zipIdx k).filterMap (fun p => if p.1 = 0 then none else some (leafNode (BitVec.ofNat 8 p.2) p.1))

theorem histogramLeaves_eq (s : State) : histogramLeaves s = countLeaves s.freq.toList 0 := rfl

theorem countLeaves_cons (f : Word) (l : List Word) (k : Nat) :
    countLeaves (f :: l) k =
      (if f = 0 then [] else [leafNode (BitVec.ofNat 8 k) f]) ++ countLeaves l (k + 1) := by
  unfold countLeaves
  rw [List.zipIdx_cons, List.filterMap_cons]
  by_cases h : f = 0
  · simp only [if_pos h, List.nil_append]
  · simp only [if_neg h, List.singleton_append]

theorem mem_countLeaves {l : List Word} {k : Nat} {e : NodeEntry} :
    e ∈ countLeaves l k ↔ ∃ (i : Nat) (h : i < l.length), l[i] ≠ 0 ∧ e = leafNode (BitVec.ofNat 8 (k + i)) l[i] := by
  induction l generalizing k with
  | nil => simp [countLeaves]
  | cons f l ih =>
    rw [countLeaves_cons, List.mem_append, ih]
    constructor
    · rintro (h | ⟨i, hi, h1, h2⟩)
      · split at h
        · simp at h
        · next hf => exact ⟨0, by simp, hf, by simpa using h⟩
      · exact ⟨i + 1, by simpa using hi, h1, by rw [h2]; simp only [List.getElem_cons_succ]; congr 2; omega⟩
    · rintro ⟨i, hi, h1, h2⟩
      cases i with
      | zero =>
        left
        simp only [List.getElem_cons_zero] at h1 h2
        rw [if_neg h1]; simpa using h2
      | succ i =>
        right
        exact ⟨i, by simpa using hi, h1, by rw [h2]; simp only [List.getElem_cons_succ]; congr 2; omega⟩

/-- One leaf for each count that is not 0. -/
theorem length_countLeaves (l : List Word) (k : Nat) :
    (countLeaves l k).length = l.countP (fun f => f != 0) := by
  induction l generalizing k with
  | nil => rfl
  | cons f l ih =>
    rw [countLeaves_cons, List.length_append, ih, List.countP_cons]
    by_cases h : f = 0
    · subst h; simp
    · rw [if_neg h, if_pos (by simpa using h), List.length_singleton, Nat.add_comm]

theorem length_countLeaves_le (l : List Word) (k : Nat) : (countLeaves l k).length ≤ l.length := by
  unfold countLeaves
  exact (List.length_filterMap_le _ _).trans (by simp)

theorem sum_countLeaves (l : List Word) (k : Nat) :
    ((countLeaves l k).map (fun e => e.freq.toNat)).sum = (l.map BitVec.toNat).sum := by
  induction l generalizing k with
  | nil => rfl
  | cons f l ih =>
    rw [countLeaves_cons, List.map_append, List.sum_append, ih]
    by_cases h : f = 0
    · subst h; simp
    · simp only [if_neg h, List.map_cons, List.map_nil, List.sum_cons, List.sum_nil, leafNode]; omega

theorem pairwise_countLeaves (l : List Word) (k : Nat) (h : k + l.length ≤ 256) :
    (countLeaves l k).Pairwise (fun a b => a.sym.toNat < b.sym.toNat) := by
  induction l generalizing k with
  | nil => simp [countLeaves]
  | cons f l ih =>
    simp only [List.length_cons] at h
    rw [countLeaves_cons]
    refine List.pairwise_append.2 ⟨by split <;> simp, ih (k + 1) (by omega), ?_⟩
    intro a ha b hb
    split at ha
    · simp at ha
    · obtain ⟨i, hi, -, rfl⟩ := mem_countLeaves.1 hb
      simp only [List.mem_singleton] at ha
      subst ha
      simp only [leafNode, BitVec.toNat_ofNat]
      omega

/-- What the list of leaves is: childless, real, at most 256, with the histogram's sum, and one leaf a
symbol in ascending order. -/
theorem histogramLeaves_spec (s : State) :
    (∀ e ∈ histogramLeaves s, e.leaf = true ∧ e.synth = false ∧ e.left = Config.nil ∧
      e.right = Config.nil) ∧
    (histogramLeaves s).length ≤ 256 ∧
    ((histogramLeaves s).map (fun e => e.freq.toNat)).sum = (s.freq.toList.map BitVec.toNat).sum ∧
    (histogramLeaves s).Pairwise (fun a b => a.sym.toNat < b.sym.toNat) := by
  rw [histogramLeaves_eq]
  refine ⟨?_, ?_, sum_countLeaves _ _, pairwise_countLeaves _ _ (by simp)⟩
  · intro e he
    obtain ⟨i, hi, -, rfl⟩ := mem_countLeaves.1 he
    exact ⟨rfl, rfl, rfl, rfl⟩
  · simpa using length_countLeaves_le s.freq.toList 0

/-- With the synthetic leaf added where one symbol stands alone: at least two leaves. -/
theorem startNodes_spec {s : State} (h : histogramLeaves s ≠ []) :
    Childless (startNodes (histogramLeaves s)) ∧
    2 ≤ (startNodes (histogramLeaves s)).length ∧ (startNodes (histogramLeaves s)).length ≤ 256 ∧
    ((startNodes (histogramLeaves s)).map (fun e => e.freq.toNat)).sum =
      (s.freq.toList.map BitVec.toNat).sum ∧
    (startNodes (histogramLeaves s)).Pairwise
      (fun a b => a.synth = false → b.synth = false → a.sym ≠ b.sym) ∧
    ∀ (i : Nat) (h : i < (startNodes (histogramLeaves s)).length),
      (startNodes (histogramLeaves s))[i].synth = true →
        (startNodes (histogramLeaves s))[i].sym = 0 ∧ (startNodes (histogramLeaves s))[i].freq = 0 ∧ i = 1 := by
  obtain ⟨h1, h2, h3, h4⟩ := histogramLeaves_spec s
  have hpos := List.length_pos_iff.2 h
  have h5 : (histogramLeaves s).Pairwise (fun a b => a.synth = false → b.synth = false → a.sym ≠ b.sym) :=
    h4.imp (fun hab _ _ e => by rw [e] at hab; omega)
  unfold startNodes
  split
  · next hone =>
    refine ⟨?_, by simp; omega, by simp; omega, ?_, ?_, ?_⟩
    · intro e he
      rcases List.mem_append.1 he with he | he
      · exact ⟨(h1 e he).1, (h1 e he).2.2⟩
      · simp only [List.mem_singleton] at he
        subst he; exact ⟨rfl, rfl, rfl⟩
    · rw [List.map_append, List.sum_append, h3]; simp [synthNode]
    · refine List.pairwise_append.2 ⟨h5, by simp, ?_⟩
      intro a _ b hb _ hs
      simp only [List.mem_singleton] at hb
      subst hb; cases hs
    · intro i hi hs
      by_cases hlt : i < (histogramLeaves s).length
      · rw [List.getElem_append_left hlt, (h1 _ (List.getElem_mem hlt)).2.1] at hs; cases hs
      · have hi1 : i = 1 := by simp only [List.length_append, List.length_singleton] at hi; omega
        subst hi1
        rw [List.getElem_append_right (by omega)]
        simp [synthNode]
  · next hone =>
    refine ⟨fun e he => ⟨(h1 e he).1, (h1 e he).2.2⟩, by omega, h2, h3, h5, ?_⟩
    intro i hi hs
    rw [(h1 _ (List.getElem_mem hi)).2.1] at hs; cases hs

/-! ## The nodes -/

/-- The merge loop over the histogram's leaves ends with one tree, rooted at its last node. -/
theorem huffmanNodes_forest {s : State} (hh : HistInv s) (h : histogramLeaves s ≠ []) :
    ∃ k, Forest s.node (startNodes (histogramLeaves s)) s.histTotal.toNat
        (huffmanNodes (histogramLeaves s)) [k] ∧
      (huffmanNodes (histogramLeaves s)).length + 1 = 2 * (startNodes (histogramLeaves s)).length ∧
      k.idx + 1 = (huffmanNodes (histogramLeaves s)).length := by
  obtain ⟨hc, h2, h256, hsum, -, -⟩ := startNodes_spec h
  have f0 := start_forest s.node hc h256
  rw [hsum, ← (show s.histTotal.toNat = _ from hh)] at f0
  obtain ⟨k, f⟩ := mergeLoop_forest hc h256 s.histTotal.isLt
    ((startNodes (histogramLeaves s)).length - 1) f0 (by simp [startQueue]; omega)
  refine ⟨k, f, ?_, ?_⟩
  · exact f.size
  · obtain ⟨hk, -⟩ := f.keys k (by simp)
    have hn := f.length_le h256 (by simp)
    show k.idx + 1 = (mergeLoop ((startNodes (histogramLeaves s)).length - 1)
      (startNodes (histogramLeaves s)) (startQueue (startNodes (histogramLeaves s)))).length
    generalize mergeLoop ((startNodes (histogramLeaves s)).length - 1)
      (startNodes (histogramLeaves s)) (startQueue (startNodes (histogramLeaves s))) = n at *
    have hlast : (BitVec.ofNat 9 (n.length - 1) : Index).toNat = n.length - 1 :=
      toNat_ofNat_index (by omega)
    obtain ⟨k', hk', p, hp⟩ := f.cover (BitVec.ofNat 9 (n.length - 1)) (by omega)
    simp only [List.mem_singleton] at hk'
    subst hk'
    have hki : (BitVec.ofNat 9 k'.idx : Index).toNat = k'.idx := toNat_ofNat_index (by omega)
    have := f.follow_le hc h256 (by simp) (by omega) hp
    omega

end Sys2Proof.Laws

namespace Sys2Proof.Machine

open Sys2Proof.Laws

/-- The state BUILD_TREE leaves with a histogram that is not empty (R85). -/
def withBuiltTree (n : List NodeEntry) (leaves : Nat) (s : State) : State :=
  clearDecoder (BitVec.ofNat 9 (n.length - 1)) (clearCodes
    { s with
      node := writeNodes s.node n
      nodeCount := BitVec.ofNat 9 n.length
      leafCount := BitVec.ofNat 9 leaves
      root := BitVec.ofNat 9 (n.length - 1)
      treeSrc := .built })

theorem buildTree_ok (s : State) :
    (histogramLeaves s = [] ∧ buildTree s = .ok (clearTree s) []) ∨
    (histogramLeaves s ≠ [] ∧ buildTree s = .ok (withBuiltTree (huffmanNodes (histogramLeaves s))
      (startNodes (histogramLeaves s)).length s) []) := by
  unfold buildTree
  by_cases h : histogramLeaves s = []
  · left; exact ⟨h, by simp [h]⟩
  · right
    refine ⟨h, ?_⟩
    have : (histogramLeaves s).isEmpty = false := by simpa using h
    dsimp only
    rw [this]
    rfl

section Built

variable {s : State} {lv n : List NodeEntry} {k : Key} {total : Nat}

/-- The tree part after BUILD_TREE. -/
theorem built_tree (f : Forest s.node lv total n [k]) (hc : Childless lv) (h2 : 2 ≤ lv.length)
    (h256 : lv.length ≤ 256) (hsize : n.length + 1 = 2 * lv.length)
    (hsyms : lv.Pairwise (fun a b => a.synth = false → b.synth = false → a.sym ≠ b.sym))
    (hsynth : ∀ (i : Nat) (h : i < lv.length), lv[i].synth = true → lv[i].sym = 0 ∧ lv[i].freq = 0 ∧ i = 1) :
    TreeInv (withBuiltTree n lv.length s) := by
  have hn511 : n.length ≤ 511 := by omega
  have hcount : (BitVec.ofNat 9 n.length : Index).toNat = n.length := toNat_ofNat_index (by omega)
  have hroot : (BitVec.ofNat 9 (n.length - 1) : Index).toNat = n.length - 1 := toNat_ofNat_index (by omega)
  have hleaf9 : (BitVec.ofNat 9 lv.length : Index).toNat = lv.length := toNat_ofNat_index (by omega)
  have hall : ∀ i, Allocated (withBuiltTree n lv.length s) i ↔ i.toNat < n.length := by
    intro i
    show i.toNat < (BitVec.ofNat 9 n.length : Index).toNat ↔ _
    rw [hcount]
  have hnode : (withBuiltTree n lv.length s).node = writeNodes s.node n := rfl
  have hat : ∀ i : Index, (h : i.toNat < n.length) → nodeAt (writeNodes s.node n) i = n[i.toNat] :=
    fun i h => f.nodeAt_eq h256 (by simp) i h
  have hleafmem : ∀ i : Index, (h : i.toNat < lv.length) →
      nodeAt (writeNodes s.node n) i = lv[i.toNat] := by
    intro i h
    rw [hat i (by omega), f.getElem_leaf h]
  have hisleaf : ∀ i : Index, i.toNat < n.length →
      ((nodeAt (writeNodes s.node n) i).leaf = true ↔ i.toNat < lv.length) := by
    intro i hi
    constructor
    · intro h
      by_contra h3
      rw [hat i hi, (f.inner i.toNat (by omega) hi).1] at h
      cases h
    · intro h
      rw [hleafmem i h]
      exact (hc _ (List.getElem_mem h)).1
  have hinner : ∀ i : Index, (hi : i.toNat < n.length) → (nodeAt (writeNodes s.node n) i).leaf = false →
      lv.length ≤ i.toNat := by
    intro i hi hl
    by_contra h
    rw [(hisleaf i hi).2 (by omega)] at hl
    cases hl
  have hne : (BitVec.ofNat 9 n.length : Index) ≠ 0 := by
    intro h; rw [h] at hcount; simp at hcount; omega
  have hrootinner : (nodeAt (writeNodes s.node n) (BitVec.ofNat 9 (n.length - 1))).leaf = false := by
    by_contra h
    have := (hisleaf (BitVec.ofNat 9 (n.length - 1)) (by omega)).1 (by simpa using h)
    omega
  constructor
  case empty_iff =>
    constructor
    · intro h; exact absurd h hne
    · intro h
      have h' : (BitVec.ofNat 9 (n.length - 1) : Index) = Config.nil := h
      rw [h'] at hroot
      simp at hroot
      omega
  case empty_src => intro _; rfl
  case root_allocated =>
    intro _
    rw [hall]
    show (BitVec.ofNat 9 (n.length - 1) : Index).toNat < _
    omega
  case root_internal => intro _; exact hrootinner
  case leaf_links =>
    intro i hi hl
    rw [hall] at hi
    rw [hnode] at hl ⊢
    rw [hleafmem i ((hisleaf i hi).1 hl)]
    exact (hc _ (List.getElem_mem _)).2
  case links =>
    intro i b hi hx
    rw [hall] at hi
    rw [hnode] at hx ⊢
    have := f.child_lt hc h256 (by simp) i b hi hx
    refine ⟨by rw [hall]; omega, fun _ => this, fun h => by cases h⟩
  case internal_child =>
    intro i hi hl
    rw [hall] at hi
    rw [hnode] at hl ⊢
    obtain ⟨-, -, -, h1, -⟩ := f.inner i.toNat (hinner i hi hl) hi
    refine ⟨false, ?_⟩
    rw [hat i hi]
    exact index_ne_nil_of_lt (by simp only [child_false]; omega)
  case internal_fields =>
    intro i hi hl
    rw [hall] at hi
    rw [hnode] at hl ⊢
    obtain ⟨-, h1, h3, -⟩ := f.inner i.toNat (hinner i hi hl) hi
    rw [hat i hi]
    exact ⟨h1, h3⟩
  case synth_fields =>
    intro i hi hs
    rw [hall] at hi
    rw [hnode] at hs ⊢
    by_cases h : i.toNat < lv.length
    · rw [hleafmem i h] at hs ⊢
      obtain ⟨h1, h3, h4⟩ := hsynth i.toNat h hs
      exact ⟨h1, h3, rfl, BitVec.eq_of_toNat_eq (by simpa using h4)⟩
    · rw [hat i hi, (f.inner i.toNat (by omega) hi).2.1] at hs
      cases hs
  case loaded_freq => intro h; cases h
  case leaf_syms =>
    intro i j hi hj hri hrj hs
    rw [hall] at hi hj
    unfold RealLeaf at hri hrj
    rw [hnode] at hri hrj hs
    have hi2 := (hisleaf i hi).1 hri.1
    have hj2 := (hisleaf j hj).1 hrj.1
    rw [hleafmem i hi2] at hri hs
    rw [hleafmem j hj2] at hrj hs
    have hpw := List.pairwise_iff_getElem.1 hsyms
    rcases Nat.lt_trichotomy i.toNat j.toNat with h | h | h
    · exact absurd hs (hpw _ _ hi2 hj2 h hri.2 hrj.2)
    · exact BitVec.eq_of_toNat_eq h
    · exact absurd hs.symm (hpw _ _ hj2 hi2 h hrj.2 hri.2)
  case leafCount_eq =>
    show (BitVec.ofNat 9 lv.length : Index).toNat =
      (List.range (BitVec.ofNat 9 n.length : Index).toNat).countP
        (fun i => (nodeAt (writeNodes s.node n) (BitVec.ofNat 9 i)).leaf)
    rw [hleaf9, hcount]
    have h1 : (List.range n.length).countP
        (fun i => (nodeAt (writeNodes s.node n) (BitVec.ofNat 9 i)).leaf) =
        (List.range n.length).countP (fun i => decide (i < lv.length)) := by
      apply List.countP_congr
      intro i hi
      have hi : i < n.length := by simpa using hi
      have hv : (BitVec.ofNat 9 i : Index).toNat = i := toNat_ofNat_index (by omega)
      rw [hisleaf _ (by omega), hv]
      simp
    have h3 : ∀ m, (List.range m).countP (fun i => decide (i < lv.length)) = min m lv.length := by
      intro m
      induction m with
      | zero => simp
      | succ m ih =>
        rw [List.range_succ, List.countP_append, ih]
        by_cases h : m < lv.length
        · simp [h]; omega
        · simp [h]; omega
    rw [h1, h3]
    omega
  case built_count =>
    intro _ _
    show 2 ≤ (BitVec.ofNat 9 lv.length : Index).toNat ∧
      (BitVec.ofNat 9 n.length : Index).toNat + 1 = 2 * (BitVec.ofNat 9 lv.length : Index).toNat ∧
      (BitVec.ofNat 9 (n.length - 1) : Index).toNat + 1 = (BitVec.ofNat 9 n.length : Index).toNat
    rw [hleaf9, hcount, hroot]
    omega
  case built_internal =>
    intro _ i hi hl
    rw [hall] at hi
    rw [hnode] at hl ⊢
    obtain ⟨-, -, -, h1, h3, h4⟩ := f.inner i.toNat (hinner i hi hl) hi
    rw [hat i hi, hat _ (show n[i.toNat].left.toNat < n.length by omega),
      hat _ (show n[i.toNat].right.toNat < n.length by omega)]
    exact ⟨index_ne_nil_of_lt (by omega), index_ne_nil_of_lt (by omega), h4⟩
  case loaded_root => intro h; cases h

/-- The path part after BUILD_TREE. -/
theorem built_path (f : Forest s.node lv total n [k]) (h256 : lv.length ≤ 256)
    (hsize : n.length + 1 = 2 * lv.length) (hk : k.idx + 1 = n.length) :
    PathInv (withBuiltTree n lv.length s) := by
  have hcount : (BitVec.ofNat 9 n.length : Index).toNat = n.length := toNat_ofNat_index (by omega)
  have hroot : (withBuiltTree n lv.length s).root = BitVec.ofNat 9 k.idx := by
    show BitVec.ofNat 9 (n.length - 1) = _
    congr 1; omega
  constructor
  · intro i hi
    have hi2 : i.toNat < (BitVec.ofNat 9 n.length : Index).toNat := hi
    obtain ⟨k', hk', p, hp⟩ := f.cover i (by omega)
    simp only [List.mem_singleton] at hk'
    subst hk'
    exact ⟨p, by rw [hroot]; exact hp⟩
  · intro _ p q i hp hq
    rw [hroot] at hp hq
    exact (f.unique k (by simp) k (by simp) p q i hp hq).2
  · intro _ p i hp
    rw [hroot] at hp
    obtain ⟨m, hm, hd⟩ := f.depth
    have := hd k (by simp) p i hp
    simp only [List.map_cons, List.map_nil, List.sum_cons, List.sum_nil] at hm
    simp only [Config.maxCodeLen]
    omega

end Built

/-- BUILD_TREE keeps the tree, path, code and decoder parts. -/
theorem buildTree_parts {s s' : State} {out : List Byte} (hh : HistInv s)
    (e : buildTree s = .ok s' out) : TreeInv s' ∧ PathInv s' ∧ CodeInv s' ∧ DecInv s' := by
  rcases buildTree_ok s with ⟨-, h⟩ | ⟨h0, h⟩
  · rw [h] at e
    cases e
    obtain ⟨h1, h2⟩ := cleared_tree (t := clearTree s) rfl rfl rfl rfl
    exact ⟨h1, h2, cleared_codes rfl rfl rfl, cleared_decoder rfl rfl (fun _ => rfl)⟩
  · rw [h] at e
    cases e
    obtain ⟨hc, h2, h256, -, h5, h6⟩ := startNodes_spec h0
    obtain ⟨k, f, hsize, hk⟩ := huffmanNodes_forest hh h0
    refine ⟨built_tree f hc h2 h256 hsize h5 h6, built_path f h256 hsize hk,
      cleared_codes rfl rfl rfl, cleared_decoder rfl rfl ?_⟩
    intro h
    have h' : (BitVec.ofNat 9 (huffmanNodes (histogramLeaves s)).length : Index) = 0 := h
    have := toNat_ofNat_index (k := (huffmanNodes (histogramLeaves s)).length) (by omega)
    rw [h'] at this
    simp at this
    omega

end Sys2Proof.Machine
end

