-- ==== Sys2Proof/Laws/Greedy.lean ====
section
/-! SUPPORT. Which nodes BUILD_TREE merges (R84, R85): at every round the two least keys among the nodes that are
no child yet. -/

namespace Sys2Proof.Laws

open Sys2Proof.Machine

/-- key(i) in a list of nodes (R84), with FREQ 0 beyond the list. -/
def keyAt (n : List NodeEntry) (i : Nat) : Key := ⟨(n[i]?.map (fun e => e.freq.toNat)).getD 0, i⟩

theorem keyAt_eq {n : List NodeEntry} {i : Nat} (h : i < n.length) : keyAt n i = ⟨n[i].freq.toNat, i⟩ := by
  simp [keyAt, h]

theorem keyAt_append {n : List NodeEntry} (m : List NodeEntry) {i : Nat} (h : i < n.length) :
    keyAt (n ++ m) i = keyAt n i := by
  simp only [keyAt, List.getElem?_append_left h]

theorem keyAt_last (n : List NodeEntry) (e : NodeEntry) : keyAt (n ++ [e]) n.length = ⟨e.freq.toNat, n.length⟩ := by
  simp [keyAt]

/-- A key that is not above and has another index is below. -/
theorem less_of_not_less {a b : Key} (h : b.less a = false) (hi : a.idx ≠ b.idx) : a.less b = true := by
  rw [← Bool.not_eq_true, Key.less_iff] at h
  rw [Key.less_iff]
  omega

theorem freq_le_of_not_less {a b : Key} (h : b.less a = false) : a.freq ≤ b.freq := by
  rw [← Bool.not_eq_true, Key.less_iff] at h
  omega

/-- Node z is no child of an internal node of index below `bound` in N; the first `leaves` nodes are leaves. -/
def NoChildBelow (leaves : Nat) (n : List NodeEntry) (bound z : Nat) : Prop :=
  ∀ j e, leaves ≤ j → j < bound → n[j]? = some e → e.left.toNat ≠ z ∧ e.right.toNat ≠ z

/-- How the internal nodes of N came about with the queue Q: each from the two least keys of its round. -/
structure Merged (leaves : Nat) (n : List NodeEntry) (q : List Key) : Prop where
  ordered : ∀ i e, leaves ≤ i → n[i]? = some e →
    (keyAt n e.left.toNat).less (keyAt n e.right.toNat) = true
  least : ∀ i e, leaves ≤ i → n[i]? = some e → ∀ z, z < i → NoChildBelow leaves n (i + 1) z →
    (keyAt n e.right.toNat).less (keyAt n z) = true
  waiting : ∀ z, z < n.length → NoChildBelow leaves n n.length z → keyAt n z ∈ q
  bound : ∀ i e, leaves ≤ i → n[i]? = some e → ∀ k ∈ q,
    (keyAt n e.left.toNat).freq ≤ k.freq ∧ (keyAt n e.right.toNat).freq ≤ k.freq
  sorted : ∀ i j e e', leaves ≤ i → i ≤ j → n[i]? = some e → n[j]? = some e' →
    e.freq.toNat ≤ e'.freq.toNat

theorem Merged.perm {leaves : Nat} {n : List NodeEntry} {q q' : List Key} (g : Merged leaves n q)
    (h : q.Perm q') : Merged leaves n q' :=
  ⟨g.ordered, g.least, fun z hz hc => h.mem_iff.1 (g.waiting z hz hc),
    fun i e hi he k hk => g.bound i e hi he k (h.mem_iff.2 hk), g.sorted⟩

/-- One round of the merge loop, x and y being the two least keys. -/
theorem Merged.merge {base : NodeMem} {lv n : List NodeEntry} {total : Nat} {x y : Key} {q2 : List Key}
    (g : Merged lv.length n (x :: y :: q2)) (f : Forest base lv total n (x :: y :: q2))
    (hlv : lv.length ≤ 256) (ht : total < 2 ^ 32)
    (hx : ∀ z ∈ y :: q2, z.less x = false) (hy : ∀ z ∈ q2, z.less y = false) :
    Merged lv.length
      (n ++ [internalNode (BitVec.ofNat 32 x.freq + BitVec.ofNat 32 y.freq)
        (BitVec.ofNat 9 x.idx) (BitVec.ofNat 9 y.idx)])
      (⟨(BitVec.ofNat 32 x.freq + BitVec.ofNat 32 y.freq : Word).toNat, n.length⟩ :: q2) := by
  set e := internalNode (BitVec.ofNat 32 x.freq + BitVec.ofNat 32 y.freq)
    (BitVec.ofNat 9 x.idx) (BitVec.ofNat 9 y.idx) with he
  have hn511 := f.length_le hlv (by simp)
  have key : ∀ k ∈ x :: y :: q2, k.idx < n.length ∧ keyAt n k.idx = k := by
    intro k hk
    obtain ⟨h, hf⟩ := f.keys k hk
    exact ⟨h, by rw [keyAt_eq h, hf]⟩
  obtain ⟨hxn, hxk⟩ := key x (by simp)
  obtain ⟨hyn, hyk⟩ := key y (by simp)
  have hsum : x.freq + y.freq + (q2.map Key.freq).sum = total := by
    have := f.total_eq
    simp only [List.map_cons, List.sum_cons] at this
    omega
  have hfreq : (BitVec.ofNat 32 x.freq + BitVec.ofNat 32 y.freq : Word).toNat = x.freq + y.freq := by
    rw [BitVec.toNat_add, BitVec.toNat_ofNat, BitVec.toNat_ofNat]
    omega
  have hnd := f.nodup
  simp only [List.map_cons, List.nodup_cons, List.mem_cons, not_or] at hnd
  have hl : e.left.toNat = x.idx := toNat_ofNat_index (by omega)
  have hr : e.right.toNat = y.idx := toNat_ofNat_index (by omega)
  have hef : e.freq.toNat = x.freq + y.freq := hfreq
  have hxy := freq_le_of_not_less (hx y (by simp))
  -- an internal node of the new list is an old one, with old children, or the new one
  have split : ∀ i e', lv.length ≤ i → (n ++ [e])[i]? = some e' →
      (i < n.length ∧ n[i]? = some e' ∧ e'.left.toNat < n.length ∧ e'.right.toNat < n.length ∧
        e'.freq.toNat = (keyAt n e'.left.toNat).freq + (keyAt n e'.right.toNat).freq) ∨
      (i = n.length ∧ e' = e) := by
    intro i e' hi h
    rcases Nat.lt_trichotomy i n.length with h1 | h1 | h1
    · left
      rw [List.getElem?_append_left h1] at h
      obtain ⟨_, h5⟩ := List.getElem?_eq_some_iff.1 h
      obtain ⟨-, -, -, h2, h3, h4⟩ := f.inner i hi h1
      refine ⟨h1, h, ?_⟩
      subst h5
      refine ⟨by omega, by omega, ?_⟩
      rw [keyAt_eq (by omega), keyAt_eq (by omega)]
      exact h4
    · right
      subst h1
      simp at h
      exact ⟨rfl, h.symm⟩
    · obtain ⟨h2, -⟩ := List.getElem?_eq_some_iff.1 h
      simp only [List.length_append, List.length_singleton] at h2
      omega
  have old : ∀ b z, b ≤ n.length → NoChildBelow lv.length (n ++ [e]) b z → NoChildBelow lv.length n b z := by
    intro b z hb h j e' hj hjb hje
    exact h j e' hj hjb (by rw [List.getElem?_append_left (by omega)]; exact hje)
  have hin : ∀ z, z < n.length → NoChildBelow lv.length (n ++ [e]) (n.length + 1) z → keyAt n z ∈ q2 := by
    intro z hz h
    have h1 := g.waiting z hz (old _ _ (Nat.le_refl _) (fun j e' hj hjb => h j e' hj (by omega)))
    have h2 := h n.length e f.lv_le (by omega) (by simp)
    rw [hl, hr] at h2
    simp only [List.mem_cons] at h1
    rcases h1 with h1 | h1 | h1
    · exact absurd (congrArg Key.idx h1).symm h2.1
    · exact absurd (congrArg Key.idx h1).symm h2.2
    · exact h1
  refine ⟨?_, ?_, ?_, ?_, ?_⟩
  · intro i e' hi h
    rcases split i e' hi h with ⟨h1, h2, h3, h4, -⟩ | ⟨-, rfl⟩
    · rw [keyAt_append _ h3, keyAt_append _ h4]
      exact g.ordered i e' hi h2
    · rw [hl, hr, keyAt_append _ hxn, keyAt_append _ hyn, hxk, hyk]
      exact less_of_not_less (hx y (by simp)) hnd.1.1
  · intro i e' hi h z hz hc
    rcases split i e' hi h with ⟨h1, h2, -, h4, -⟩ | ⟨h1, rfl⟩
    · rw [keyAt_append _ h4, keyAt_append _ (by omega)]
      exact g.least i e' hi h2 z hz (old _ _ (by omega) hc)
    · rw [h1] at hz hc
      have hm := hin z hz hc
      rw [hr, keyAt_append _ hyn, keyAt_append _ hz, hyk]
      refine less_of_not_less (hy _ hm) ?_
      intro h3
      exact hnd.2.1 (by rw [h3]; exact List.mem_map_of_mem hm)
  · intro z hz hc
    simp only [List.length_append, List.length_singleton] at hz hc
    by_cases h : z < n.length
    · rw [keyAt_append _ h]
      exact List.mem_cons_of_mem _ (hin z h hc)
    · have h1 : z = n.length := by omega
      rw [h1, keyAt_last]
      exact List.mem_cons_self
  · intro i e' hi h k hk
    rcases split i e' hi h with ⟨h1, h2, h3, h4, -⟩ | ⟨-, rfl⟩
    · rw [keyAt_append _ h3, keyAt_append _ h4]
      rcases List.mem_cons.1 hk with rfl | hk
      · have := g.bound i e' hi h2 x (by simp)
        dsimp only
        omega
      · exact g.bound i e' hi h2 k (by simp [hk])
    · rw [hl, hr, keyAt_append _ hxn, keyAt_append _ hyn, hxk, hyk]
      rcases List.mem_cons.1 hk with rfl | hk
      · dsimp only
        omega
      · have := freq_le_of_not_less (hy k hk)
        omega
  · intro i j e1 e2 hi hij h1 h2
    rcases split i e1 hi h1 with ⟨-, h3, -, -, h4⟩ | ⟨h3, rfl⟩
    · rcases split j e2 (by omega) h2 with ⟨-, h5, -⟩ | ⟨-, rfl⟩
      · exact g.sorted i j e1 e2 hi hij h3 h5
      · have hb := g.bound i e1 hi h3 x (by simp)
        have hb' := g.bound i e1 hi h3 y (by simp)
        omega
    · rcases split j e2 (by omega) h2 with ⟨h5, -⟩ | ⟨-, rfl⟩
      · omega
      · exact Nat.le_refl _

/-- The whole merge loop merges least keys only. -/
theorem mergeLoop_merged {base : NodeMem} {lv : List NodeEntry} {total : Nat} (hc : Childless lv)
    (hlv : lv.length ≤ 256) (ht : total < 2 ^ 32) (rounds : Nat) {n : List NodeEntry} {q : List Key}
    (g : Merged lv.length n q) (f : Forest base lv total n q) (hq : q.length = rounds + 1) :
    ∃ k, Merged lv.length (mergeLoop rounds n q) [k] := by
  induction rounds generalizing n q with
  | zero =>
    obtain ⟨k, rfl⟩ := List.length_eq_one_iff.1 hq
    exact ⟨k, g⟩
  | succ r ih =>
    obtain ⟨x, q1, h1⟩ := extractMin_isSome (q := q) (by rintro rfl; simp at hq)
    have p1 := extractMin_perm h1
    have hl1 : q1.length = r + 1 := by
      have := p1.length_eq
      simp only [List.length_cons] at this
      omega
    obtain ⟨y, q2, h2⟩ := extractMin_isSome (q := q1) (by rintro rfl; simp at hl1)
    have p2 := extractMin_perm h2
    have hl2 : q2.length = r := by
      have := p2.length_eq
      simp only [List.length_cons] at this
      omega
    have p := p1.trans (p2.cons x)
    have hx : ∀ z ∈ y :: q2, z.less x = false := fun z hz =>
      (extractMin_spec h1).2.2 z (p.mem_iff.2 (List.mem_cons_of_mem _ hz))
    have hy : ∀ z ∈ q2, z.less y = false := fun z hz =>
      (extractMin_spec h2).2.2 z (p2.mem_iff.2 (List.mem_cons_of_mem _ hz))
    have pq := (List.perm_append_singleton (⟨(BitVec.ofNat 32 x.freq + BitVec.ofNat 32 y.freq : Word).toNat,
      n.length⟩ : Key) q2).symm
    have g3 := ((g.perm p).merge (f.perm p) hlv ht hx hy).perm pq
    have f3 := ((f.perm p).merge hc hlv ht).perm pq
    obtain ⟨k, hk⟩ := ih g3 f3 (by simp [hl2])
    refine ⟨k, ?_⟩
    simp only [mergeLoop, h1, h2]
    exact hk

/-- The leaves alone: nothing is merged yet, and every leaf waits in the queue. -/
theorem start_merged (lv : List NodeEntry) : Merged lv.length lv (startQueue lv) := by
  have none : ∀ (P : Prop) i (e : NodeEntry), lv.length ≤ i → lv[i]? = some e → P := by
    intro P i e hi h
    rw [List.getElem?_eq_none hi] at h
    cases h
  refine ⟨fun i e hi h => none _ i e hi h, fun i e hi h => none _ i e hi h, ?_,
    fun i e hi h => none _ i e hi h, fun i j e e' hi hij h => none _ i e hi h⟩
  intro z hz _
  rw [keyAt_eq hz]
  refine List.mem_map.2 ⟨(lv[z], z), ?_, rfl⟩
  exact List.mem_zipIdx_iff_getElem?.2 (by simp [hz])

/-- BUILD_TREE's nodes: every internal one is made of the two least keys of its round. -/
theorem huffmanNodes_merged {s : State} (hh : HistInv s) (h : histogramLeaves s ≠ []) :
    ∃ k, Merged (startNodes (histogramLeaves s)).length (huffmanNodes (histogramLeaves s)) [k] := by
  obtain ⟨hc, h2, h256, hsum, -, -⟩ := startNodes_spec h
  have f0 := start_forest s.node hc h256
  rw [hsum, ← (show s.histTotal.toNat = _ from hh)] at f0
  exact mergeLoop_merged hc h256 s.histTotal.isLt _ (start_merged _) f0 (by simp [startQueue]; omega)

end Sys2Proof.Laws
end

