-- ==== Sys2Proof/Laws/InvInsert.lean ====
section
/-! SUPPORT. INSERT_CODE (R89) keeps the tree, path and code parts of the invariant, and its code leads to its
leaf. -/

namespace Sys2Proof.Laws

open Sys2Proof.Machine

section Graft

variable {n : NodeMem} {cnt : Nat} {cur : Index} {pre rest : List Bool} {sym : Byte}
  {r : NodeMem × Nat}

theorem Grafted.same_fields (g : Grafted sym n cnt cur pre rest r) (i : Index) (hi : i.toNat < cnt) :
    (nodeAt r.1 i).leaf = (nodeAt n i).leaf ∧ (nodeAt r.1 i).synth = (nodeAt n i).synth ∧
      (nodeAt r.1 i).sym = (nodeAt n i).sym ∧ (nodeAt r.1 i).freq = (nodeAt n i).freq := by
  by_cases h : i = cur
  · obtain ⟨b, -, hp⟩ := g.parent
    subst h
    rw [hp]
    simp
  · rw [g.old i hi h]; simp

/-- The leaves after a graft are the old ones and the last new entry. -/
theorem Grafted.leaf_iff (g : Grafted sym n cnt cur pre rest r) (i : Index) (hi : i.toNat < r.2) :
    (nodeAt r.1 i).leaf = true ↔
      (i.toNat < cnt ∧ (nodeAt n i).leaf = true) ∨ (cnt ≤ i.toNat ∧ i.toNat + 1 = r.2) := by
  by_cases h : i.toNat < cnt
  · rw [(g.same_fields i h).1]
    constructor
    · intro hl; exact .inl ⟨h, hl⟩
    · rintro (⟨-, hl⟩ | ⟨h2, -⟩)
      · exact hl
      · omega
  · obtain ⟨-, -, h2⟩ := g.new_fields i (by omega) hi
    constructor
    · intro hl
      rcases h2 with ⟨-, h3, -⟩ | ⟨h3, -⟩
      · exact .inr ⟨by omega, h3⟩
      · rw [h3] at hl; cases hl
    · rintro (⟨h3, -⟩ | ⟨-, h3⟩)
      · exact absurd h3 h
      · rcases h2 with ⟨h4, -⟩ | ⟨-, h4, -⟩
        · exact h4
        · exact absurd h3 h4

/-- One more leaf: the count of R31 after a graft. -/
theorem Grafted.leafCount (g : Grafted sym n cnt cur pre rest r) (hrest : rest ≠ []) :
    (List.range r.2).countP (fun i => (nodeAt r.1 (BitVec.ofNat 9 i)).leaf) =
      (List.range cnt).countP (fun i => (nodeAt n (BitVec.ofNat 9 i)).leaf) + 1 := by
  have hb := g.grow.bound
  have hlen : 0 < rest.length := List.length_pos_iff.2 hrest
  have hcount := g.count
  have hval : ∀ i, i < r.2 → (BitVec.ofNat 9 i : Index).toNat = i := fun i hi =>
    toNat_ofNat_index (by omega)
  obtain ⟨m, hm⟩ : ∃ m, r.2 = cnt + m + 1 := ⟨rest.length - 1, by omega⟩
  have hlast : (nodeAt r.1 (BitVec.ofNat 9 (cnt + m))).leaf = true :=
    (g.leaf_iff _ (by rw [hval _ (by omega)]; omega)).2
      (.inr (by rw [hval _ (by omega)]; omega))
  have hmid : ∀ k, k ≤ m → (List.range (cnt + k)).countP
      (fun i => (nodeAt r.1 (BitVec.ofNat 9 i)).leaf) =
      (List.range cnt).countP (fun i => (nodeAt n (BitVec.ofNat 9 i)).leaf) := by
    intro k hk
    induction k with
    | zero =>
      apply List.countP_congr
      intro i hi
      have hi : i < cnt := by simpa using hi
      rw [(g.same_fields (BitVec.ofNat 9 i) (by rw [hval _ (by omega)]; exact hi)).1]
    | succ k ih =>
      rw [← Nat.add_assoc, List.range_succ, List.countP_append, ih (by omega)]
      have : ¬ (nodeAt r.1 (BitVec.ofNat 9 (cnt + k))).leaf = true := by
        rw [g.leaf_iff _ (by rw [hval _ (by omega)]; omega), hval _ (by omega)]
        omega
      simp [this]
  rw [hm, List.range_succ, List.countP_append, hmid m le_rfl]
  simp [hlast]

end Graft

end Sys2Proof.Laws

namespace Sys2Proof.Machine

open Sys2Proof.Laws

/-- What INSERT_CODE relies on in the memory it grafts onto: a loaded tree of `cnt` nodes in `n` whose leaves
are the valid codes; `cur` alone may be an internal node without a child. -/
structure LoadedBase (s : State) (n : NodeMem) (cnt : Nat) (cur : Index) : Prop where
  grow : Grow n cnt
  fields : ∀ i : Index, i.toNat < cnt → (nodeAt n i).synth = false ∧ (nodeAt n i).freq = 0 ∧
    ((nodeAt n i).leaf = false → (nodeAt n i).sym = 0)
  child : ∀ i : Index, i.toNat < cnt → (nodeAt n i).leaf = false → i ≠ cur →
    ∃ b, (nodeAt n i).child b ≠ Config.nil
  leaf_valid : ∀ i : Index, i.toNat < cnt → (nodeAt n i).leaf = true →
    (codeOf s (nodeAt n i).sym).valid = true
  leaf_syms : ∀ i j : Index, i.toNat < cnt → j.toNat < cnt → (nodeAt n i).leaf = true →
    (nodeAt n j).leaf = true → (nodeAt n i).sym = (nodeAt n j).sym → i = j
  codes : ∀ b, (codeOf s b).valid = true →
    ∃ i, follow n 0 (codeOf s b).bits = some i ∧ (nodeAt n i).leaf = true ∧ (nodeAt n i).sym = b
  depth : ∀ p i, follow n 0 p = some i → p.length ≤ 255
  leafCount : s.leafCount.toNat = (List.range cnt).countP (fun i => (nodeAt n (BitVec.ofNat 9 i)).leaf)
  root_internal : (nodeAt n 0).leaf = false

section Inserted

variable {s : State} {n : NodeMem} {cnt : Nat} {cur : Index} {pre rest : List Bool} {sym : Byte}
  {r : NodeMem × Nat}

/-- INSERT_CODE's commit keeps the tree part. -/
theorem inserted_tree (hb : LoadedBase s n cnt cur) (g : Grafted sym n cnt cur pre rest r)
    (hrest : rest ≠ []) (hnew : (codeOf s sym).valid = false) (q : List Bool) :
    TreeInv (withLoadedCode sym q r.1 r.2 s) := by
  have hbound := g.grow.bound
  have hcount := g.count
  have hlen : 0 < rest.length := List.length_pos_iff.2 hrest
  have hpos := hb.grow.pos
  have hr2 : (BitVec.ofNat 9 r.2 : Index).toNat = r.2 := toNat_ofNat_index (by omega)
  have h00 : (0 : Index).toNat = 0 := rfl
  have hall : ∀ i, Allocated (withLoadedCode sym q r.1 r.2 s) i ↔ i.toNat < r.2 := by
    intro i; simp only [Allocated, withLoadedCode_nodeCount, hr2]
  have hne : (BitVec.ofNat 9 r.2 : Index) ≠ 0 := by
    intro h; rw [h] at hr2; simp at hr2; omega
  have hfields : ∀ i : Index, i.toNat < r.2 →
      (nodeAt r.1 i).synth = false ∧ (nodeAt r.1 i).freq = 0 ∧
        ((nodeAt r.1 i).leaf = false → (nodeAt r.1 i).sym = 0) := by
    intro i hi
    by_cases h : i.toNat < cnt
    · obtain ⟨h1, h2, h3, h4⟩ := g.same_fields i h
      rw [h1, h2, h3, h4]
      exact hb.fields i h
    · obtain ⟨h1, h2, h3⟩ := g.new_fields i (by omega) hi
      refine ⟨h1, h2, ?_⟩
      intro hl
      rcases h3 with ⟨h3, -⟩ | ⟨-, -, h3, -⟩
      · rw [h3] at hl; cases hl
      · exact h3
  have hnewsym : ∀ i : Index, cnt ≤ i.toNat → i.toNat + 1 = r.2 → (nodeAt r.1 i).sym = sym := by
    intro i h1 h2
    obtain ⟨-, -, h3⟩ := g.new_fields i h1 (by omega)
    rcases h3 with ⟨-, -, h3⟩ | ⟨-, h3, -⟩
    · exact h3
    · exact absurd h2 h3
  have hold : ∀ i : Index, i.toNat < cnt → (nodeAt n i).leaf = true → (nodeAt n i).sym ≠ sym := by
    intro i hi hl h
    have := hb.leaf_valid i hi hl
    rw [h, hnew] at this; cases this
  have hroot : (nodeAt r.1 0).leaf = false := by
    rw [(g.same_fields 0 (by rw [h00]; exact hpos)).1]; exact hb.root_internal
  constructor
  case empty_iff =>
    simp only [withLoadedCode_nodeCount, withLoadedCode_root]
    constructor
    · intro h; exact absurd h hne
    · intro h; exact absurd h (by decide)
  case empty_src => intro h; exact absurd h hne
  case root_allocated =>
    intro _
    rw [hall]
    simp only [withLoadedCode_root, h00]; omega
  case root_internal => intro _; exact hroot
  case leaf_links =>
    intro i hi hl
    rw [hall] at hi
    exact ⟨g.grow.leaf_links i hi hl false, g.grow.leaf_links i hi hl true⟩
  case links =>
    intro i b hi hx
    rw [hall] at hi
    obtain ⟨h1, h2⟩ := g.grow.links i b hi hx
    refine ⟨by rw [hall]; exact h2, ?_, fun _ => h1⟩
    intro h; cases h
  case internal_child =>
    intro i hi hl
    rw [hall] at hi
    simp only [withLoadedCode_node] at hl ⊢
    by_cases h : i.toNat < cnt
    · by_cases hc : i = cur
      · obtain ⟨b, -, hp⟩ := g.parent
        refine ⟨b, ?_⟩
        rw [hc, hp, child_withChild, if_pos rfl]
        apply index_ne_nil_of_lt
        rw [toNat_ofNat_index (by omega)]; omega
      · rw [g.old i h hc] at hl ⊢
        exact hb.child i h hl hc
    · obtain ⟨-, -, h3⟩ := g.new_fields i (by omega) hi
      rcases h3 with ⟨h3, -⟩ | ⟨-, -, -, h3⟩
      · rw [h3] at hl; cases hl
      · exact h3
  case internal_fields =>
    intro i hi hl
    rw [hall] at hi
    exact ⟨(hfields i hi).1, (hfields i hi).2.2 hl⟩
  case synth_fields =>
    intro i hi hs
    rw [hall] at hi
    have := (hfields i hi).1
    simp only [withLoadedCode_node] at hs
    rw [this] at hs; cases hs
  case loaded_freq =>
    intro _ i hi
    rw [hall] at hi
    exact (hfields i hi).2.1
  case leaf_syms =>
    intro i j hi hj hli hlj hs
    rw [hall] at hi hj
    simp only [withLoadedCode_node] at hs
    rcases (g.leaf_iff i hi).1 hli.1 with ⟨hi1, hi2⟩ | ⟨hi1, hi2⟩ <;>
      rcases (g.leaf_iff j hj).1 hlj.1 with ⟨hj1, hj2⟩ | ⟨hj1, hj2⟩
    · rw [(g.same_fields i hi1).2.2.1, (g.same_fields j hj1).2.2.1] at hs
      exact hb.leaf_syms i j hi1 hj1 hi2 hj2 hs
    · rw [(g.same_fields i hi1).2.2.1, hnewsym j hj1 hj2] at hs
      exact absurd hs (hold i hi1 hi2)
    · rw [(g.same_fields j hj1).2.2.1, hnewsym i hi1 hi2] at hs
      exact absurd hs.symm (hold j hj1 hj2)
    · exact BitVec.eq_of_toNat_eq (by omega)
  case leafCount_eq =>
    simp only [withLoadedCode_leafCount, withLoadedCode_nodeCount, withLoadedCode_node, hr2]
    rw [g.leafCount hrest, ← hb.leafCount, BitVec.toNat_add]
    have : s.leafCount.toNat ≤ cnt := by
      rw [hb.leafCount]
      refine le_trans (List.countP_le_length) ?_
      simp
    have h1 : (1 : Index).toNat = 1 := rfl
    rw [h1]
    apply Nat.mod_eq_of_lt
    omega
  case built_count => intro h; cases h
  case built_internal => intro h; cases h
  case loaded_root => intro _; rfl

/-- INSERT_CODE's commit keeps the path part. -/
theorem inserted_path (hb : LoadedBase s n cnt cur) (g : Grafted sym n cnt cur pre rest r)
    (hq : (pre ++ rest).length ≤ 255) (q : List Bool) :
    PathInv (withLoadedCode sym q r.1 r.2 s) := by
  have hbound := g.grow.bound
  have hr2 : (BitVec.ofNat 9 r.2 : Index).toNat = r.2 := toNat_ofNat_index (by omega)
  constructor
  · intro i hi
    simp only [Allocated, withLoadedCode_nodeCount, hr2] at hi
    exact g.grow.reached i hi
  · intro _ p q i hp hq
    exact g.grow.unique p q i hp hq
  · intro _ p i hp
    rcases g.paths p i hp with h | h
    · exact hb.depth p i h
    · rw [List.length_append] at hq
      exact le_trans h hq

/-- INSERT_CODE's commit keeps the code part. -/
theorem inserted_code (hb : LoadedBase s n cnt cur) (hc : CodeInv s)
    (g : Grafted sym n cnt cur pre rest r) (hrest : rest ≠ [])
    (hnewcode : (codeOf s sym).valid = false) (hq : (pre ++ rest).length ≤ 255) :
    CodeInv (withLoadedCode sym (pre ++ rest) r.1 r.2 s) := by
  have hbound := g.grow.bound
  have hcount := g.count
  have hlen : 0 < rest.length := List.length_pos_iff.2 hrest
  have hr2 : (BitVec.ofNat 9 r.2 : Index).toNat = r.2 := toNat_ofNat_index (by omega)
  have hlast : (BitVec.ofNat 9 (r.2 - 1) : Index).toNat = r.2 - 1 := toNat_ofNat_index (by omega)
  have hne : (BitVec.ofNat 9 r.2 : Index) ≠ 0 := by
    intro h; rw [h] at hr2; simp at hr2; omega
  have hcode : ∀ b, codeOf (withLoadedCode sym (pre ++ rest) r.1 r.2 s) b =
      if b = sym then ⟨true, pre ++ rest⟩ else codeOf s b := by
    intro b
    simp only [codeOf, withLoadedCode_code]
    by_cases h : b = sym
    · subst h; simp
    · rw [if_neg h, Vector.getElem_set_ne]
      intro h2; exact h (BitVec.eq_of_toNat_eq h2).symm
  have hmax : (BitVec.ofNat 8 (max s.codeMaxLen.toNat (pre ++ rest).length)).toNat =
      max s.codeMaxLen.toNat (pre ++ rest).length := by
    rw [BitVec.toNat_ofNat]
    apply Nat.mod_eq_of_lt
    have := s.codeMaxLen.isLt
    omega
  have hnew := g.new_fields (BitVec.ofNat 9 (r.2 - 1)) (by omega) (by omega)
  have hnewleaf : (nodeAt r.1 (BitVec.ofNat 9 (r.2 - 1))).leaf = true ∧
      (nodeAt r.1 (BitVec.ofNat 9 (r.2 - 1))).sym = sym := by
    rcases hnew.2.2 with ⟨h1, -, h2⟩ | ⟨-, h1, -⟩
    · exact ⟨h1, h2⟩
    · omega
  constructor
  · intro b hv
    rw [hcode] at hv ⊢
    split at hv
    · cases hv
    · next h => rw [if_neg h]; exact hc.invalid_empty b hv
  · intro b hv
    rw [hcode] at hv ⊢
    refine ⟨hne, ?_⟩
    split at hv
    · next h =>
      rw [if_pos h]
      exact ⟨_, g.reaches, ⟨hnewleaf.1, hnew.1⟩, by rw [h]; exact hnewleaf.2⟩
    · next h =>
      rw [if_neg h]
      obtain ⟨i, h1, h2, h3⟩ := hb.codes b hv
      have hi := hb.grow.follow_lt (by simpa using hb.grow.pos) h1
      obtain ⟨e1, e2, e3, -⟩ := g.same_fields i hi
      exact ⟨i, g.keeps _ _ h1, ⟨by rw [withLoadedCode_node, e1]; exact h2,
        by rw [withLoadedCode_node, e2]; exact (hb.fields i hi).1⟩, by rw [withLoadedCode_node, e3]; exact h3⟩
  · intro _ i hi hl
    simp only [Allocated, withLoadedCode_nodeCount, hr2] at hi
    rw [hcode]
    split
    · rfl
    · next h =>
      rcases (g.leaf_iff i hi).1 hl.1 with ⟨h1, h2⟩ | ⟨h1, h2⟩
      · rw [withLoadedCode_node, (g.same_fields i h1).2.2.1]
        exact hb.leaf_valid i h1 h2
      · have : i = BitVec.ofNat 9 (r.2 - 1) := BitVec.eq_of_toNat_eq (by omega)
        rw [withLoadedCode_node, this] at h
        exact absurd hnewleaf.2 h
  · intro b hv
    rw [hcode] at hv ⊢
    simp only [withLoadedCode_codeMaxLen, hmax]
    split at hv
    · next h => rw [if_pos h]; exact le_max_right _ _
    · next h => rw [if_neg h]; exact le_trans (hc.maxLen_bound b hv) (le_max_left _ _)
  · intro _
    simp only [withLoadedCode_codeMaxLen, hmax]
    by_cases h : s.codeMaxLen.toNat ≤ (pre ++ rest).length
    · exact ⟨sym, by rw [hcode, if_pos rfl], by rw [hcode, if_pos rfl, max_eq_right h]⟩
    · have h0 : s.codeMaxLen ≠ 0 := by
        intro h2; rw [h2] at h; simp at h
      obtain ⟨b, hb1, hb2⟩ := hc.maxLen_attained h0
      have hbs : b ≠ sym := by
        rintro rfl
        rw [hnewcode] at hb1; cases hb1
      exact ⟨b, by rw [hcode, if_neg hbs]; exact hb1, by rw [hcode, if_neg hbs, hb2, max_eq_left (by omega)]⟩

end Inserted

/-! ## The command -/

@[simp] theorem length_codeOperand (len : Byte) (s : State) : (codeOperand len s).length = len.toNat := by
  simp [codeOperand]

/-- The memory a first code is grafted onto (R89): one internal node. -/
theorem loadedBase_first {s : State} (ht : TreeInv s) (hc : CodeInv s) (h0 : s.nodeCount = 0) :
    LoadedBase s (setNode s.node 0 (internalNode 0 Config.nil Config.nil)) 1 0 := by
  have hn : nodeAt (setNode s.node 0 (internalNode 0 Config.nil Config.nil)) 0 =
      internalNode 0 Config.nil Config.nil := by
    rw [nodeAt_setNode _ (by decide)]; simp
  have hi0 : ∀ i : Index, i.toNat < 1 → i = 0 := fun i hi => BitVec.eq_of_toNat_eq (by simp; omega)
  have hchild : ∀ b, (internalNode 0 Config.nil Config.nil).child b = Config.nil := by
    intro b; cases b <;> rfl
  have hpath : ∀ p i, follow (setNode s.node 0 (internalNode 0 Config.nil Config.nil)) 0 p = some i →
      p = [] ∧ i = 0 := fun p i h => follow_of_childless (by rw [hn]; exact hchild) h
  have hinv : ∀ b, (codeOf s b).valid = true → False := fun b hv => (hc.valid_path b hv).1 h0
  refine ⟨⟨by omega, by omega, ?_, ?_, ?_, ?_⟩, ?_, ?_, ?_, ?_, ?_, ?_, ?_, by rw [hn]; rfl⟩
  · intro i hi hl; rw [hi0 i hi, hn] at hl; cases hl
  · intro i b hi hx; rw [hi0 i hi, hn] at hx; exact absurd (hchild b) hx
  · intro i hi; exact ⟨[], by rw [hi0 i hi]; rfl⟩
  · intro p q i hp hq; rw [(hpath p i hp).1, (hpath q i hq).1]
  · intro i hi; rw [hi0 i hi, hn]; exact ⟨rfl, rfl, fun _ => rfl⟩
  · intro i hi _ hne; exact absurd (hi0 i hi) hne
  · intro i hi hl; rw [hi0 i hi, hn] at hl; cases hl
  · intro i j hi _ hl; rw [hi0 i hi, hn] at hl; cases hl
  · intro b hv; exact (hinv b hv).elim
  · intro p i hp; rw [(hpath p i hp).1]; simp
  · have hl := ht.leafCount_eq
    rw [h0] at hl
    simp only [BitVec.toNat_zero, List.range_zero, List.countP_nil, BitVec.ofNat_eq_ofNat] at hl
    rw [hl]
    have h1 : (List.range 1) = [0] := rfl
    rw [h1, List.countP_singleton]
    have : (BitVec.ofNat 9 0 : Index) = 0 := rfl
    rw [this, hn]
    rfl

/-- A loaded tree is a memory a further code can be grafted onto. -/
theorem loadedBase_next {s : State} (ht : TreeInv s) (hp : PathInv s) (hc : CodeInv s)
    (h0 : s.nodeCount ≠ 0) (hs : s.treeSrc = .loaded) (cur : Index) :
    LoadedBase s s.node s.nodeCount.toNat cur := by
  have hroot := ht.loaded_root hs
  have hlt := s.nodeCount.isLt
  have hsynth : ∀ i, Allocated s i → (nodeAt s.node i).synth = false := by
    intro i hi
    by_contra h
    have := (ht.synth_fields i hi (by simpa using h)).2.2.1
    rw [hs] at this; cases this
  have hreal : ∀ i, Allocated s i → (nodeAt s.node i).leaf = true → RealLeaf s i :=
    fun i hi hl => ⟨hl, hsynth i hi⟩
  refine ⟨⟨?_, by omega, ?_, ?_, ?_, ?_⟩, ?_, ?_, ?_, ?_, ?_, ?_, ht.leafCount_eq, ?_⟩
  · have : s.nodeCount.toNat ≠ 0 := fun h => h0 (BitVec.eq_of_toNat_eq (by simpa using h))
    omega
  · intro i hi hl b; exact ht.leaf_childless i hi hl b
  · intro i b hi hx
    obtain ⟨h1, -, h3⟩ := ht.links i b hi hx
    exact ⟨h3 hs, h1⟩
  · intro i hi; rw [← hroot]; exact hp.reached i hi
  · intro p q i; rw [← hroot]; exact hp.unique h0 p q i
  · intro i hi
    exact ⟨hsynth i hi, ht.loaded_freq hs i hi, fun hl => (ht.internal_fields i hi hl).2⟩
  · intro i hi hl _; exact ht.internal_child i hi hl
  · intro i hi hl; exact hc.all_valid (.inl hs) i hi (hreal i hi hl)
  · intro i j hi hj hli hlj h; exact ht.leaf_syms i j hi hj (hreal i hi hli) (hreal j hj hlj) h
  · intro b hv
    obtain ⟨i, h1, h2, h3⟩ := (hc.valid_path b hv).2
    exact ⟨i, by rw [← hroot]; exact h1, h2.1, h3⟩
  · intro p i h; rw [← hroot] at h; exact hp.depth h0 p i h
  · rw [← hroot]; exact ht.root_internal h0

/-- What an accepted INSERT_CODE did: it grafted the code's bits onto a base, as a new code. -/
theorem insertCode_ok {s s' : State} {sym len : Byte} {out : List Byte} (ht : TreeInv s) (hp : PathInv s)
    (hc : CodeInv s) (e : insertCode sym len s = .ok s' out) :
    out = [] ∧ (codeOf s sym).valid = false ∧
    ∃ n cnt cur pre rest r, LoadedBase s n cnt cur ∧ Grafted sym n cnt cur pre rest r ∧ rest ≠ [] ∧
      pre ++ rest = codeOperand len s ∧ s' = withLoadedCode sym (codeOperand len s) r.1 r.2 s := by
  unfold insertCode at e
  dsimp only at e
  split at e
  · cases e
  next hsrc =>
  split at e
  · cases e
  next hlen =>
  have hlen0 : 0 < len.toNat := by
    rcases Nat.eq_zero_or_pos len.toNat with h | h
    · exact absurd (BitVec.eq_of_toNat_eq (by simpa using h)) hlen
    · exact h
  have hlen2 := len.isLt
  split at e
  · cases e
  next hval =>
  have hval2 : (codeOf s sym).valid = false := by simpa [codeOf] using hval
  split at e
  · next h0 =>
    have h0' : s.nodeCount = 0 := BitVec.eq_of_toNat_eq (by simpa using h0)
    by_cases hroom : s.nodeCount.toNat + (len.toNat + 1) > Config.nodeCap
    · rw [if_pos hroom] at e; cases e
    rw [if_neg hroom] at e
    simp only [Config.nodeCap] at hroom
    cases e
    have hb := loadedBase_first ht hc h0'
    have hne : codeOperand len s ≠ [] := by
      intro h; have := congrArg List.length h; simp at this; omega
    obtain ⟨b, hb0⟩ : ∃ b, (codeOperand len s).head? = some b := by
      cases h : codeOperand len s with
      | nil => exact absurd h hne
      | cons b q => exact ⟨b, rfl⟩
    have hn0 : nodeAt (setNode s.node 0 (internalNode 0 Config.nil Config.nil)) 0 =
        internalNode 0 Config.nil Config.nil := by
      rw [nodeAt_setNode _ (by decide)]; simp
    exact ⟨rfl, hval2, _, 1, 0, [], _, _, hb,
      graft_spec sym hb.grow (by simp; omega) (by simp) hb.root_internal hb0
        (by rw [hn0]; cases b <;> rfl) rfl, hne, rfl, rfl⟩
  · next h0 =>
    have h0' : s.nodeCount ≠ 0 := by
      intro h; rw [h] at h0; exact h0 rfl
    have hs : s.treeSrc = .loaded := by
      cases h : s.treeSrc with
      | loaded => rfl
      | built => exact absurd ⟨h0, h⟩ hsrc
    split at e
    · cases e
    next cur rest hd =>
    by_cases hroom : s.nodeCount.toNat + rest.length > Config.nodeCap
    · rw [if_pos hroom] at e; cases e
    rw [if_neg hroom] at e
    simp only [Config.nodeCap] at hroom
    cases e
    have hne : codeOperand len s ≠ [] := by
      intro h; have := congrArg List.length h; simp at this; omega
    have hb := loadedBase_next ht hp hc h0' hs cur
    obtain ⟨h1, pre, b, h2, h3, h4, h5⟩ := descend_stop (ht.root_internal h0') hne hd
    rw [ht.loaded_root hs] at h3
    have hne2 : rest ≠ [] := by rintro rfl; cases h4
    exact ⟨rfl, hval2, _, _, cur, pre, rest, _, hb,
      graft_spec sym hb.grow (by omega) (hb.grow.follow_lt (by simpa using hb.grow.pos) h3) h1 h4 h5 h3,
      hne2, h2, rfl⟩

/-- An accepted INSERT_CODE keeps the tree, path, code and decoder parts. -/
theorem insertCode_parts {s s' : State} {sym len : Byte} {out : List Byte} (ht : TreeInv s)
    (hp : PathInv s) (hc : CodeInv s) (e : insertCode sym len s = .ok s' out) :
    TreeInv s' ∧ PathInv s' ∧ CodeInv s' ∧ DecInv s' := by
  obtain ⟨-, hv, n, cnt, cur, pre, rest, r, hb, g, hne, hq, rfl⟩ := insertCode_ok ht hp hc e
  have hlen : (pre ++ rest).length ≤ 255 := by
    rw [hq, length_codeOperand]; have := len.isLt; omega
  have htree := inserted_tree hb g hne hv (codeOperand len s)
  refine ⟨htree, inserted_path hb g hlen _, ?_, ?_⟩
  · rw [← hq]; exact inserted_code hb hc g hne hv hlen
  · refine cleared_decoder rfl rfl ?_
    intro h
    have := htree.empty_iff.1 h
    simp only [withLoadedCode_root] at this
    exact absurd this (by decide)

end Sys2Proof.Machine
end

