-- ==== Sys2Proof/Laws/InvOutcome.lean ====
section
/-! SUPPORT. Every outcome of a command keeps the parts of the invariant that its state decides (R43): the
decoder's commands, then all commands together. -/

namespace Sys2Proof.Machine

open Sys2Proof.Laws

/-! ## The decoder -/

/-- DEC_START puts the walker at the root (R98). -/
theorem startDecoder_dec {s s' : State} {out : List Byte} (ht : TreeInv s)
    (e : startDecoder s = .ok s' out) : DecInv s' := by
  unfold startDecoder at e
  dsimp only at e
  split at e
  · cases e
  next h =>
  cases e
  constructor
  · intro h1
    simpa using h1
  · intro h0
    refine ⟨ht.empty_iff.1 h0, fun _ => ?_⟩
    by_contra h1
    exact h ⟨h1, h0⟩
  · intro _ _; rfl
  · intro _ h0
    exact ⟨ht.root_internal h0, [], rfl⟩

/-- The bit loop keeps the walker on an internal node that a path from the root reaches (R99, I8). -/
theorem walkBits_walker {n : NodeMem} {root cur cur' : Index} {bs : List Bool} {out out' : List Byte}
    (hr : (nodeAt n root).leaf = false) (hc : (nodeAt n cur).leaf = false)
    (hp : ∃ p, follow n root p = some cur) (h : walkBits n root bs cur out = some (cur', out')) :
    (nodeAt n cur').leaf = false ∧ ∃ p, follow n root p = some cur' := by
  induction bs generalizing cur out with
  | nil => cases h; exact ⟨hc, hp⟩
  | cons b bs ih =>
    simp only [walkBits] at h
    split at h
    · cases h
    next hx =>
    split at h
    · split at h
      · cases h
      · exact ih hr ⟨[], rfl⟩ h
    · next hl =>
      obtain ⟨p, hp⟩ := hp
      refine ih (by simpa using hl) ⟨p ++ [b], ?_⟩ h
      rw [follow_append, hp]
      simp [follow_cons, hx]

/-- DEC_BYTE keeps I6 and I8 (R99). -/
theorem decodeByte_dec {s s' : State} {b : Byte} {out : List Byte} (ht : TreeInv s) (hd : DecInv s)
    (e : decodeByte b s = .ok s' out) : DecInv s' := by
  unfold decodeByte at e
  dsimp only at e
  split at e
  swap
  · cases e
  next ha =>
  split at e
  · cases e
  next hr =>
  have h0 : s.nodeCount ≠ 0 := fun h => hr ((hd.no_tree h).2 ha)
  split at e
  · cases e
  next cur o hw =>
  split at e
  · cases e
  next hu =>
  cases e
  obtain ⟨hcl, hcp⟩ := hd.walker ha h0
  have hwk := walkBits_walker (ht.root_internal h0) hcl hcp hw
  constructor
  · intro h; simpa using h
  · intro h; exact absurd h h0
  · intro _ h
    by_contra h1
    exact hu ⟨h, h1⟩
  · intro _ _; exact hwk

/-- DEC_END ends the decode and nothing else (R100). -/
theorem endDecoder_dec {s s' : State} {out : List Byte} (hd : DecInv s)
    (e : endDecoder s = .ok s' out) : DecInv s' := by
  unfold endDecoder at e
  split at e
  · split at e
    · cases e
      refine ⟨hd.done, fun h => ⟨(hd.no_tree h).1, by intro h1; cases h1⟩, ?_, ?_⟩ <;> intro h <;> cases h
    · cases e
  · cases e

/-! ## All commands -/

/-- The parts of the invariant that a command's outcome must keep. -/
structure EngineInv (s : State) : Prop where
  hist : HistInv s
  enc : EncInv s
  tree : TreeInv s
  path : PathInv s
  code : CodeInv s
  dec : DecInv s

theorem Inv.engine {s : State} (h : Inv s) : EngineInv s :=
  ⟨h.hist, h.enc, h.tree, h.path, h.code, h.dec⟩

/-- The engine parts depend on none of: the register file's host side, the latch, the queue, the fault and the
model's own fields. -/
theorem EngineInv.congr {s t : State} (h : EngineInv s) (h1 : t.freq = s.freq)
    (h2 : t.histTotal = s.histTotal) (h3 : t.encAcc = s.encAcc) (h4 : t.encNpend = s.encNpend)
    (h5 : t.node = s.node) (h6 : t.nodeCount = s.nodeCount) (h7 : t.leafCount = s.leafCount)
    (h8 : t.root = s.root) (h9 : t.treeSrc = s.treeSrc) (h10 : t.code = s.code)
    (h11 : t.codeMaxLen = s.codeMaxLen) (h12 : t.decDone = s.decDone) (h13 : t.decRemain = s.decRemain)
    (h14 : t.decNode = s.decNode) (h15 : t.decActive = s.decActive) : EngineInv t :=
  ⟨h.hist.congr h1 h2, h.enc.congr h3 h4, h.tree.congr h5 h6 h7 h8 h9, h.path.congr h5 h6 h8,
    h.code.congr h5 h6 h8 h9 h10 h11, h.dec.congr h5 h6 h8 h12 h13 h14 h15⟩

/-- An empty histogram has the sum 0. -/
theorem zero_hist {t : State} (h1 : t.freq = Vector.replicate 256 0) (h2 : t.histTotal = 0) : HistInv t := by
  have h : ∀ k, ((List.replicate k (0 : Word)).map BitVec.toNat).sum = 0 := by
    intro k
    induction k with
    | zero => rfl
    | succ k ih => rw [List.replicate_succ, List.map_cons, List.sum_cons, ih]; rfl
  unfold HistInv
  rw [h1, h2, Vector.toList_replicate, h]
  rfl

/-- A state with the engine's reset values satisfies them (R120, R77). -/
theorem cleared_engine {t : State} (h1 : t.freq = Vector.replicate 256 0) (h2 : t.histTotal = 0)
    (h3 : t.encAcc = 0) (h5 : t.nodeCount = 0) (h6 : t.leafCount = 0)
    (h7 : t.root = Config.nil) (h8 : t.treeSrc = .built)
    (h9 : t.code = Vector.replicate 256 CodeEntry.invalid) (h10 : t.codeMaxLen = 0)
    (h11 : t.decActive = false) (h12 : t.decDone = false) (h13 : t.decNode = Config.nil) :
    EngineInv t := by
  obtain ⟨ht, hp⟩ := cleared_tree h5 h6 h7 h8
  refine ⟨?_, ?_, ht, hp, cleared_codes h9 h10 h8, cleared_decoder h11 h12 (fun _ => h13)⟩
  · exact zero_hist h1 h2
  · unfold EncInv
    rw [h3]
    exact Nat.two_pow_pos _

/-- Every accepted outcome keeps the engine parts. -/
theorem outcome_engine {i : Instr} {s s' : State} {out : List Byte} (h : EngineInv s)
    (e : outcomeOf i s = .ok s' out) : EngineInv s' := by
  cases i with
  | nop => cases e; exact h
  | clear => cases e; apply cleared_engine <;> rfl
  | histClear =>
    cases e
    refine ⟨?_, h.enc.congr rfl rfl, h.tree.congr rfl rfl rfl rfl rfl, h.path.congr rfl rfl rfl,
      h.code.congr rfl rfl rfl rfl rfl rfl, h.dec.congr rfl rfl rfl rfl rfl rfl rfl⟩
    exact zero_hist rfl rfl
  | histByte b =>
    have hh := addCount_hist h.hist e
    simp only [outcomeOf, addCount] at e
    split at e
    · cases e
    cases e
    exact ⟨hh, h.enc.congr rfl rfl, h.tree.congr rfl rfl rfl rfl rfl, h.path.congr rfl rfl rfl,
      h.code.congr rfl rfl rfl rfl rfl rfl, h.dec.congr rfl rfl rfl rfl rfl rfl rfl⟩
  | histAcc b =>
    have hh := addCount_hist h.hist e
    simp only [outcomeOf, addCount] at e
    split at e
    · cases e
    cases e
    exact ⟨hh, h.enc.congr rfl rfl, h.tree.congr rfl rfl rfl rfl rfl, h.path.congr rfl rfl rfl,
      h.code.congr rfl rfl rfl rfl rfl rfl, h.dec.congr rfl rfl rfl rfl rfl rfl rfl⟩
  | rdFreq b => cases e; apply h.congr <;> rfl
  | buildTree =>
    obtain ⟨h1, h2, h3, h4⟩ := buildTree_parts h.hist e
    rcases buildTree_ok s with ⟨-, h⟩ | ⟨h0, h⟩ <;> rw [outcomeOf, h] at e <;> cases e <;>
      exact ⟨by apply (EngineInv.hist ‹_›).congr <;> rfl, by apply (EngineInv.enc ‹_›).congr <;> rfl, h1, h2, h3, h4⟩
  | treeClear =>
    cases e
    obtain ⟨h1, h2⟩ := cleared_tree (t := clearTree s) rfl rfl rfl rfl
    exact ⟨h.hist.congr rfl rfl, h.enc.congr rfl rfl, h1, h2, cleared_codes rfl rfl rfl,
      cleared_decoder rfl rfl (fun _ => rfl)⟩
  | insertCode sym len =>
    obtain ⟨h1, h2, h3, h4⟩ := insertCode_parts h.tree h.path h.code e
    obtain ⟨-, -, n, cnt, cur, pre, rest, r, -, -, -, -, rfl⟩ := insertCode_ok h.tree h.path h.code e
    exact ⟨h.hist.congr rfl rfl, h.enc.congr rfl rfl, h1, h2, h3, h4⟩
  | rdNode idx =>
    simp only [outcomeOf, readNode] at e
    split at e <;> cases e <;> apply h.congr <;> rfl
  | genCodes =>
    have hc := genCodes_code h.tree h.path e
    simp only [outcomeOf, genCodes] at e
    split at e
    · cases e
    split at e
    · cases e
    cases e
    exact ⟨h.hist.congr rfl rfl, h.enc.congr rfl rfl, h.tree.congr rfl rfl rfl rfl rfl,
      h.path.congr rfl rfl rfl, hc, h.dec.congr rfl rfl rfl rfl rfl rfl rfl⟩
  | rdCode b => cases e; apply h.congr <;> rfl
  | encStart =>
    cases e
    refine ⟨h.hist.congr rfl rfl, ?_, h.tree.congr rfl rfl rfl rfl rfl, h.path.congr rfl rfl rfl,
      h.code.congr rfl rfl rfl rfl rfl rfl, h.dec.congr rfl rfl rfl rfl rfl rfl rfl⟩
    unfold EncInv; exact Nat.two_pow_pos _
  | encByte b =>
    simp only [outcomeOf, encodeByte] at e
    split at e
    · cases e
      exact ⟨h.hist.congr rfl rfl, setPending_enc _ (length_leftover_lt _),
        h.tree.congr rfl rfl rfl rfl rfl, h.path.congr rfl rfl rfl, h.code.congr rfl rfl rfl rfl rfl rfl,
        h.dec.congr rfl rfl rfl rfl rfl rfl rfl⟩
    · cases e
  | encFlush =>
    simp only [outcomeOf, flushEncoder] at e
    split at e
    · cases e; exact h
    · cases e
      refine ⟨h.hist.congr rfl rfl, ?_, h.tree.congr rfl rfl rfl rfl rfl, h.path.congr rfl rfl rfl,
        h.code.congr rfl rfl rfl rfl rfl rfl, h.dec.congr rfl rfl rfl rfl rfl rfl rfl⟩
      unfold EncInv; exact Nat.two_pow_pos _
  | decStart =>
    have hd := startDecoder_dec h.tree e
    simp only [outcomeOf, startDecoder] at e
    split at e
    · cases e
    cases e
    exact ⟨h.hist.congr rfl rfl, h.enc.congr rfl rfl, h.tree.congr rfl rfl rfl rfl rfl,
      h.path.congr rfl rfl rfl, h.code.congr rfl rfl rfl rfl rfl rfl, hd⟩
  | decByte b =>
    have hd := decodeByte_dec h.tree h.dec e
    simp only [outcomeOf, decodeByte] at e
    split at e
    swap
    · cases e
    split at e
    · cases e
    split at e
    · cases e
    split at e
    · cases e
    cases e
    exact ⟨h.hist.congr rfl rfl, h.enc.congr rfl rfl, h.tree.congr rfl rfl rfl rfl rfl,
      h.path.congr rfl rfl rfl, h.code.congr rfl rfl rfl rfl rfl rfl, hd⟩
  | decEnd =>
    have hd := endDecoder_dec h.dec e
    simp only [outcomeOf, endDecoder] at e
    split at e
    · split at e
      · cases e
        exact ⟨h.hist.congr rfl rfl, h.enc.congr rfl rfl, h.tree.congr rfl rfl rfl rfl rfl,
          h.path.congr rfl rfl rfl, h.code.congr rfl rfl rfl rfl rfl rfl, hd⟩
      · cases e
    · cases e

end Sys2Proof.Machine
end

