-- ==== Sys2Proof/Laws/PerInstr.lean ====
section
/-! SUPPORT. The family RoundTrip of LAWS.json, one lemma per command: its word decodes back to it (R66). -/

namespace Sys2Proof.Laws.RoundTrip

/-- The decoder gives back the command its encoding was written for, with every operand. -/
def Statement (i : Instr) : Prop := decode (encode i) = .instr i

theorem nop : Statement .nop := by unfold Statement; decide
theorem clear : Statement .clear := by unfold Statement; decide
theorem histClear : Statement .histClear := by unfold Statement; decide
theorem buildTree : Statement .buildTree := by unfold Statement; decide
theorem treeClear : Statement .treeClear := by unfold Statement; decide
theorem genCodes : Statement .genCodes := by unfold Statement; decide
theorem encStart : Statement .encStart := by unfold Statement; decide
theorem encFlush : Statement .encFlush := by unfold Statement; decide
theorem decStart : Statement .decStart := by unfold Statement; decide
theorem decEnd : Statement .decEnd := by unfold Statement; decide

/-- A row of format B and its word. -/
theorem byte_row {m : Mnemonic} {op : Byte} {f : Byte → Instr}
    (hr : Row.mk m (wordB op 0) 0xFFFFFF00 (fun w => f (fieldByte w)) ∈ opcodeMap) (b : Byte) :
    decode (wordB op b) = .instr (f b) := by
  rw [decode_of_row hr (by simp only [Row.admits, wordB_admitted, beq_self_eq_true])]
  simp

theorem histByte (b : Byte) : Statement (.histByte b) :=
  byte_row (m := .histByte) (op := 0x03) (f := .histByte) (by simp [opcodeMap, wordB]) b
theorem histAcc (b : Byte) : Statement (.histAcc b) :=
  byte_row (m := .histAcc) (op := 0x04) (f := .histAcc) (by simp [opcodeMap, wordB]) b
theorem rdFreq (b : Byte) : Statement (.rdFreq b) :=
  byte_row (m := .rdFreq) (op := 0x05) (f := .rdFreq) (by simp [opcodeMap, wordB]) b
theorem rdCode (b : Byte) : Statement (.rdCode b) :=
  byte_row (m := .rdCode) (op := 0x21) (f := .rdCode) (by simp [opcodeMap, wordB]) b
theorem encByte (b : Byte) : Statement (.encByte b) :=
  byte_row (m := .encByte) (op := 0x31) (f := .encByte) (by simp [opcodeMap, wordB]) b
theorem decByte (b : Byte) : Statement (.decByte b) :=
  byte_row (m := .decByte) (op := 0x41) (f := .decByte) (by simp [opcodeMap, wordB]) b

theorem insertCode (sym len : Byte) : Statement (.insertCode sym len) := by
  have hr : Row.mk .insertCode (wordS 0x12 0 0) 0xFFFF0000
      (fun w => .insertCode (fieldByte w) (fieldLen w)) ∈ opcodeMap := by simp [opcodeMap, wordS]
  unfold Statement encode
  rw [decode_of_row hr (by simp only [Row.admits, wordS_admitted, beq_self_eq_true])]
  simp

theorem rdNode (idx : Index) : Statement (.rdNode idx) := by
  have hr : Row.mk .rdNode (wordI 0x13 0) 0xFFFFFE00 (fun w => .rdNode (fieldIdx w)) ∈ opcodeMap := by
    simp [opcodeMap, wordI]
  unfold Statement encode
  rw [decode_of_row hr (by simp only [Row.admits, wordI_admitted, beq_self_eq_true])]
  simp

end Sys2Proof.Laws.RoundTrip
end

