-- ==== Sys2Proof/Laws/Registers.lean ====
section
/-! SUPPORT. What the register words hold (R21 to R34), and a concatenation as a number. -/

namespace Sys2Proof.Laws

open Sys2Proof.Machine

/-- A concatenation of bit vectors as a number. -/
theorem toNat_append_add {m n : Nat} (x : BitVec m) (y : BitVec n) :
    (x ++ y).toNat = x.toNat * 2 ^ n + y.toNat := by
  rw [BitVec.toNat_append, ← Nat.shiftLeft_add_eq_or_of_lt y.isLt, Nat.shiftLeft_eq]

/-! ## STATUS, bit by bit (R23) -/

theorem status_busy (s : State) : (statusWord s).getLsbD 0 = s.busy := by
  simp only [statusWord, BitVec.getLsbD_append, BitVec.getLsbD_ofBool]; simp
theorem status_fault (s : State) : (statusWord s).getLsbD 1 = s.fault := by
  simp only [statusWord, BitVec.getLsbD_append, BitVec.getLsbD_ofBool]; simp
theorem status_treeValid (s : State) : (statusWord s).getLsbD 2 = (s.nodeCount != 0) := by
  simp only [statusWord, BitVec.getLsbD_append, BitVec.getLsbD_ofBool]; simp
theorem status_codesValid (s : State) : (statusWord s).getLsbD 3 = codesValid s := by
  simp only [statusWord, BitVec.getLsbD_append, BitVec.getLsbD_ofBool]; simp
theorem status_treeLoaded (s : State) : (statusWord s).getLsbD 4 = s.treeSrc.bit := by
  simp only [statusWord, BitVec.getLsbD_append, BitVec.getLsbD_ofBool]; simp
theorem status_histEmpty (s : State) : (statusWord s).getLsbD 5 = (histDistinct s == 0) := by
  simp only [statusWord, BitVec.getLsbD_append, BitVec.getLsbD_ofBool]; simp
theorem status_decActive (s : State) : (statusWord s).getLsbD 6 = s.decActive := by
  simp only [statusWord, BitVec.getLsbD_append, BitVec.getLsbD_ofBool]; simp
theorem status_decDone (s : State) : (statusWord s).getLsbD 7 = s.decDone := by
  simp only [statusWord, BitVec.getLsbD_append, BitVec.getLsbD_ofBool]; simp
theorem status_outEmpty (s : State) : (statusWord s).getLsbD 8 = s.outq.isEmpty := by
  simp only [statusWord, BitVec.getLsbD_append, BitVec.getLsbD_ofBool]; simp
theorem status_outFull (s : State) : (statusWord s).getLsbD 9 = (s.outq.length == 64) := by
  simp only [statusWord, BitVec.getLsbD_append, BitVec.getLsbD_ofBool]; simp [Config.outqDepth]
theorem status_irq (s : State) : (statusWord s).getLsbD 10 = irq s := by
  simp only [statusWord, BitVec.getLsbD_append, BitVec.getLsbD_ofBool]; simp
theorem status_zero (s : State) (k : Nat) (h : 11 ≤ k) : (statusWord s).getLsbD k = false := by
  by_cases hk : k < 32
  · simp only [statusWord, BitVec.append_assoc, BitVec.cast_eq]
    rw [BitVec.getLsbD_append, if_neg (by omega)]
    simp
  · exact BitVec.getLsbD_of_ge _ _ (by omega)

/-- CODES_VALID is set exactly when some entry is valid. -/
theorem codesValid_iff (s : State) : codesValid s = true ↔ ∃ b : Byte, (s.code[b.toNat]).valid = true := by
  unfold codesValid
  rw [List.any_eq_true]
  constructor
  · rintro ⟨e, he, hv⟩
    obtain ⟨i, hi, rfl⟩ := List.getElem_of_mem he
    simp only [Vector.length_toList] at hi
    refine ⟨BitVec.ofNat 8 i, ?_⟩
    simpa [Nat.mod_eq_of_lt hi] using hv
  · rintro ⟨b, hv⟩
    exact ⟨_, Vector.mem_toList_iff.2 (Vector.getElem_mem b.isLt), hv⟩

/-- HIST_DISTINCT is 0 exactly when no symbol is present. -/
theorem histDistinct_eq_zero (s : State) : histDistinct s = 0 ↔ ∀ b : Byte, s.freq[b.toNat] = 0 := by
  unfold histDistinct
  rw [List.countP_eq_zero]
  constructor
  · intro h b
    have := h _ (Vector.mem_toList_iff.2 (Vector.getElem_mem b.isLt))
    simpa using this
  · intro h f hf
    obtain ⟨i, hi, rfl⟩ := List.getElem_of_mem hf
    simp only [Vector.length_toList] at hi
    have := h (BitVec.ofNat 8 i)
    simp only [BitVec.toNat_ofNat, Nat.mod_eq_of_lt hi] at this
    simp [this]

/-- HIST_DISTINCT as a count over the symbols. -/
theorem histDistinct_eq (s : State) : histDistinct s =
    (List.range 256).countP (fun k => s.freq[(BitVec.ofNat 8 k).toNat] != 0) := by
  have h : s.freq.toList = (List.range 256).map (fun k => s.freq[(BitVec.ofNat 8 k).toNat]) := by
    apply List.ext_getElem (by simp)
    intro i h1 h2
    simp only [Vector.length_toList] at h1
    simp [Nat.mod_eq_of_lt h1]
  unfold histDistinct
  rw [h, List.countP_map]
  rfl

end Sys2Proof.Laws
end

