-- ==== Sys2Proof/Laws/Streams.lean ====
section
/-! SUPPORT. The decoder's walk (R99) and a code's words (R53): what each gives, once. -/

namespace Sys2Proof.Laws

open Sys2Proof.Machine

/-- Bit j of word k of a code (R53). -/
theorem codeWord_getLsbD (q : List Bool) (k j : Nat) (hj : j < 32) :
    (codeWord q k).getLsbD (31 - j) = q.getD (32 * k + j) false := by
  rw [codeWord, BitVec.getLsbD_ofNat]
  have h := testBit_value ((List.range 32).map (fun i => q.getD (32 * k + i) false)) j (by simpa using hj)
  simp only [List.length_map, List.length_range] at h
  rw [show 31 - j = 32 - 1 - j by omega, h]
  simp only [List.getElem_map, List.getElem_range, Bool.and_eq_right_iff_imp, decide_eq_true_eq]
  omega

/-! ## The walk -/

section Walk

variable {n : NodeMem} {root : Index}

/-- The symbols already emitted only stand before the others. -/
theorem walkBits_out (n : NodeMem) (root : Index) (bs : List Bool) (cur : Index) (out : List Byte) :
    walkBits n root bs cur out = (walkBits n root bs cur []).map (fun r => (r.1, out ++ r.2)) := by
  induction bs generalizing cur out with
  | nil => simp [walkBits]
  | cons b bs ih =>
    simp only [walkBits]
    split
    · rfl
    · split
      · split
        · rfl
        · rw [ih, ih _ ([] ++ _)]
          cases walkBits n root bs root [] <;> simp
      · rw [ih]

/-- A walk over two parts is the walk over the second from where the first ends. -/
theorem walkBits_append (n : NodeMem) (root : Index) (a b : List Bool) (cur : Index) (out : List Byte) :
    walkBits n root (a ++ b) cur out =
      (walkBits n root a cur out).bind (fun r => walkBits n root b r.1 r.2) := by
  induction a generalizing cur out with
  | nil => rfl
  | cons c a ih =>
    simp only [List.cons_append, walkBits]
    split
    · rfl
    · split
      · split
        · rfl
        · exact ih _ _
      · exact ih _ _

/-- A walk emits at most one symbol a bit (R99: at most 8 a byte). -/
theorem walkBits_length {bs : List Bool} {cur cur' : Index} {out out' : List Byte}
    (h : walkBits n root bs cur out = some (cur', out')) : out'.length ≤ out.length + bs.length := by
  induction bs generalizing cur out with
  | nil => cases h; simp
  | cons b bs ih =>
    simp only [walkBits] at h
    split at h
    · cases h
    split at h
    · split at h
      · cases h
      · have := ih h
        simp only [List.length_append, List.length_cons, List.length_nil] at this ⊢
        omega
    · have := ih h
      simp only [List.length_cons]
      omega

/-- The walk over the rest of a code emits its symbol and ends at the root. -/
theorem walkBits_code {s : State} (ht : TreeInv s) {cur j : Index} {r : List Bool} (hc : Allocated s cur)
    (hr : r ≠ []) (hf : follow s.node cur r = some j) (hj : RealLeaf s j) :
    walkBits s.node s.root r cur [] = some (s.root, [(nodeAt s.node j).sym]) := by
  induction r generalizing cur with
  | nil => exact absurd rfl hr
  | cons b r ih =>
    rw [follow_cons] at hf
    simp only [walkBits]
    split at hf
    · cases hf
    next hx =>
    rw [if_neg hx]
    have ha := ht.child_allocated cur b hc hx
    by_cases hr0 : r = []
    · subst hr0
      simp only [follow_nil, Option.some.injEq] at hf
      rw [hf, if_pos hj.1, hj.2]
      simp [walkBits]
    · have : ¬ (nodeAt s.node ((nodeAt s.node cur).child b)).leaf = true := by
        intro hl
        exact hr0 (follow_of_childless (ht.leaf_childless _ ha hl) hf).1
      rw [if_neg this]
      exact ih ha hr0 hf

/-- The walk over codes, one after the other, emits their symbols and ends at the root (R101). -/
theorem walkBits_codes {s : State} (ht : TreeInv s) (x : List Byte) (code : Byte → List Bool)
    (h : ∀ b ∈ x, s.nodeCount ≠ 0 ∧ CodePath s (code b) b) :
    walkBits s.node s.root (x.flatMap code) s.root [] = some (s.root, x) := by
  induction x with
  | nil => rfl
  | cons b x ih =>
    obtain ⟨h0, i, hf, hl, hs⟩ := h b (by simp)
    have hne : code b ≠ [] := by
      intro hn
      rw [hn] at hf
      simp only [follow_nil, Option.some.injEq] at hf
      have := ht.root_internal h0
      rw [hf, hl.1] at this; cases this
    rw [List.flatMap_cons, walkBits_append, walkBits_code ht (ht.root_allocated h0) hne hf hl]
    simp only [Option.bind_some]
    rw [walkBits_out, ih (fun c hc => h c (by simp [hc])), hs]
    rfl

/-- The walk of the model is `Walk`. -/
theorem walkBits_iff {bs : List Bool} {cur last : Index} {out : List Byte} :
    walkBits n root bs cur [] = some (last, out) ↔ Walk n root cur bs last out := by
  induction bs generalizing cur last out with
  | nil =>
    simp only [walkBits, Option.some.injEq, Prod.mk.injEq]
    constructor
    · rintro ⟨rfl, rfl⟩; exact .stop _
    · intro h; cases h; exact ⟨rfl, rfl⟩
  | cons b bs ih =>
    simp only [walkBits]
    split
    · next hx =>
      refine ⟨fun h => (by cases h), fun h => ?_⟩
      cases h <;> exact absurd hx ‹_›
    · next hx =>
      split
      · next hl =>
        split
        · next hs =>
          refine ⟨fun h => (by cases h), fun h => ?_⟩
          cases h with
          | inner _ _ _ _ _ _ h2 => rw [hl] at h2; cases h2
          | symbol _ _ _ _ _ _ _ h3 => rw [hs] at h3; cases h3
        · next hs =>
          rw [walkBits_out]
          constructor
          · intro h
            cases hw : walkBits n root bs root [] with
            | none => rw [hw] at h; cases h
            | some r =>
              rw [hw] at h
              simp only [Option.map_some, List.nil_append, Option.some.injEq, Prod.mk.injEq] at h
              rw [← h.1, ← h.2]
              show Walk n root cur (b :: bs) r.1 (_ :: r.2)
              exact .symbol _ _ _ _ _ hx hl (by simpa using hs) (ih.1 hw)
          · intro h
            cases h with
            | inner _ _ _ _ _ _ h2 => rw [hl] at h2; cases h2
            | symbol _ _ _ _ _ _ _ _ h4 => rw [ih.2 h4]; rfl
      · next hl =>
        rw [ih]
        constructor
        · intro h; exact .inner _ _ _ _ _ hx (by simpa using hl) h
        · intro h
          cases h with
          | inner _ _ _ _ _ _ _ h3 => exact h3
          | symbol _ _ _ _ _ _ h2 => exact absurd h2 hl

end Walk

end Sys2Proof.Laws
end

