-- ==== Sys2Proof/Machine/HostOps.lean ====
section
/-! DEFINITION. The host program notation and its pseudo-operations (R67, R68) as lists of events. The
host's own program and its buffer H are not state of the machine (R17). R68 repeats an access until the machine
answers: the number of rounds is an argument of `hostWait` and `hostDrain`, and `hostCommand` fixes none before
the completion (DESIGN CHOICE, log 15). No step uses these definitions. -/

namespace Sys2Proof.Machine

/-- `W reg, v` (R67). -/
def hostWrite (r : Reg) (v : Word) : List Event := [.access (.write r.offset 4 v)]

/-- `R reg` (R67). -/
def hostRead (r : Reg) : List Event := [.access (.read r.offset 4)]

/-- `WAIT` (R68): `polls` reads of STATUS, then the engine's turn, then the read that finds BUSY = 0. -/
def hostWait (polls : Nat) : List Event :=
  (List.replicate polls (hostRead .status)).flatten ++ [.engine] ++ hostRead .status

/-- `C cmd` (R68): the CMD write, then WAIT. DESIGN CHOICE (log 15): no STATUS read of this WAIT finds BUSY = 1, that
is, the command completes before the first one; Latency, and so the number of such reads, is open (R8, R135). The
pseudo-operations below are made of it and take the same choice. -/
def hostCommand (i : Instr) : List Event := hostWrite .cmd (encode i) ++ hostWait 0

/-- `DRAIN` (R68) of n bytes: the last OUT_LEVEL read finds 0. -/
def hostDrain (n : Nat) : List Event :=
  (List.replicate n (hostRead .outLevel ++ hostRead .outData)).flatten ++ hostRead .outLevel

/-- `HIST_STR` (R68). -/
def hostHistStr (x : List Byte) : List Event := x.flatMap (fun b => hostCommand (.histByte b))

/-- `ENC_STR` (R68). -/
def hostEncStr (x : List Byte) : List Event := x.flatMap (fun b => hostCommand (.encByte b))

/-- `LOAD_CODE sym, len, q` (R68): the eight words of R53, then INSERT_CODE. -/
def hostLoadCode (sym : Byte) (q : List Bool) : List Event :=
  (List.finRange 8).flatMap (fun i => hostWrite (.arg i) (codeWord q i.val)) ++
    hostCommand (.insertCode sym (BitVec.ofNat 8 q.length))

/-- `DEC_BYTES n, b0, ..., bm` (R68). -/
def hostDecBytes (n : Long) (y : List Byte) : List Event :=
  hostWrite (.arg 0) (n.extractLsb' 0 32) ++ hostWrite (.arg 1) (n.extractLsb' 32 32) ++
    hostCommand .decStart ++ y.flatMap (fun b => hostCommand (.decByte b)) ++ hostCommand .decEnd

end Sys2Proof.Machine
end

