-- ==== Sys2Proof/Tests/Slice0.lean ====
section
/-! SUPPORT. The model's own tests. Every expected value is taken from the spec: the encodings from R61 and R63,
the results from spec/95_test_vectors.md, whose vector each docstring names. Then a witness for the hypotheses of
each obligation that has some. -/

set_option Elab.async false

namespace Sys2Proof.Tests

open Sys2Proof.Machine Sys2Proof.Laws

/-! ## WellFormed (R66): one refused line for each check -/

theorem test_wf_byte_too_large : (⟨.histByte, [256]⟩ : Source).wellFormed = false := by decide
theorem test_wf_symbol_too_large : (⟨.insertCode, [256, 1]⟩ : Source).wellFormed = false := by decide
theorem test_wf_length_too_large : (⟨.insertCode, [0x61, 256]⟩ : Source).wellFormed = false := by decide
theorem test_wf_index_too_large : (⟨.rdNode, [512]⟩ : Source).wellFormed = false := by decide
theorem test_wf_operand_too_many : (⟨.nop, [0]⟩ : Source).wellFormed = false := by decide
theorem test_wf_byte_missing : (⟨.encByte, []⟩ : Source).wellFormed = false := by decide
theorem test_wf_length_missing : (⟨.insertCode, [0x61]⟩ : Source).wellFormed = false := by decide
theorem test_wf_index_twice : (⟨.rdNode, [0, 0]⟩ : Source).wellFormed = false := by decide
theorem test_wf_refused_lines_do_not_assemble : (⟨.rdNode, [512]⟩ : Source).assemble = none := by decide
theorem test_wf_largest_operands : (⟨.insertCode, [0xFF, 255]⟩ : Source).assemble = some (.insertCode 0xFF 255) ∧
    (⟨.rdNode, [511]⟩ : Source).assemble = some (.rdNode 511) := by decide

/-! ## Decoding: words written out from the pattern strings of R61 and the OP column of R63 -/

theorem test_decode_control :
    decode 0b00000000_00000000_00000000_00000000 = .instr .nop ∧
    decode 0b00000001_00000000_00000000_00000000 = .instr .clear := by decide
theorem test_decode_histogram :
    decode 0b00000010_00000000_00000000_00000000 = .instr .histClear ∧
    decode 0b00000011_00000000_00000000_01100001 = .instr (.histByte 0x61) ∧
    decode 0b00000100_00000000_00000000_01000001 = .instr (.histAcc 0x41) ∧
    decode 0b00000101_00000000_00000000_01110010 = .instr (.rdFreq 0x72) := by decide
theorem test_decode_tree :
    decode 0b00010000_00000000_00000000_00000000 = .instr .buildTree ∧
    decode 0b00010001_00000000_00000000_00000000 = .instr .treeClear ∧
    decode 0b00010010_00000000_00001100_00010000 = .instr (.insertCode 0x10 12) ∧
    decode 0b00010011_00000000_00000001_11111111 = .instr (.rdNode 511) := by decide
theorem test_decode_codegen :
    decode 0b00100000_00000000_00000000_00000000 = .instr .genCodes ∧
    decode 0b00100001_00000000_00000000_01100010 = .instr (.rdCode 0x62) := by decide
theorem test_decode_encoder :
    decode 0b00110000_00000000_00000000_00000000 = .instr .encStart ∧
    decode 0b00110001_00000000_00000000_01100001 = .instr (.encByte 0x61) ∧
    decode 0b00110010_00000000_00000000_00000000 = .instr .encFlush := by decide
theorem test_decode_decoder :
    decode 0b01000000_00000000_00000000_00000000 = .instr .decStart ∧
    decode 0b01000001_00000000_00000000_11011100 = .instr (.decByte 0xDC) ∧
    decode 0b01000010_00000000_00000000_00000000 = .instr .decEnd := by decide
/-- R65's own examples, and the ends of its opcode ranges. -/
theorem test_decode_illegal :
    decode 0x00000001 = .illegal .reservedBits ∧ decode 0x03000161 = .illegal .reservedBits ∧
    decode 0x13000200 = .illegal .reservedBits ∧ decode 0x12010C10 = .illegal .reservedBits ∧
    decode 0x06000000 = .illegal .unassignedOpcode ∧ decode 0x0F000000 = .illegal .unassignedOpcode ∧
    decode 0x43000000 = .illegal .unassignedOpcode ∧ decode 0xFF000000 = .illegal .unassignedOpcode := by decide
theorem test_opcode_rows_disjoint :
    opcodeMap.Pairwise (fun a b => (a.pattern ^^^ b.pattern) &&& a.mask &&& b.mask ≠ 0) := by decide

/-! ## States for the tests -/

/-- The state an execution leaves. -/
def ran (i : Instr) (s : State) : State :=
  match exec i s with
  | .next t => t
  | _ => s

/-- The state after an accepted command with room. -/
def ok (i : Instr) (s : State) : State :=
  match outcomeOf i s with
  | .ok s' out => commitOk s' out
  | _ => s

/-- The latched arguments are the words of a code (R53). -/
def withCode (q : List Bool) (s : State) : State :=
  { s with lArg := Vector.ofFn (fun k => codeWord q k.val) }

/-- `LOAD_CODE` (R68), completed. -/
def loaded (sym : Byte) (q : List Bool) (s : State) : State :=
  ok (.insertCode sym (BitVec.ofNat 8 q.length)) (withCode q s)

/-- Reset but for a histogram. -/
def counted (l : List (Byte × Word)) : State :=
  { State.reset with
    freq := l.foldl (fun f x => f.set x.1.toNat x.2) (Vector.replicate 256 0)
    histTotal := l.foldl (fun n x => n + x.2) 0 }

/-- The histogram of "abracadabra" (S1). -/
def abraHist : State := counted [(0x61, 5), (0x62, 2), (0x63, 1), (0x64, 1), (0x72, 2)]
/-- Its tree (T1). -/
def abraTree : State := ok .buildTree abraHist
/-- Its codes (G1). -/
def abraCodes : State := ok .genCodes abraTree
/-- One symbol (T6). -/
def oneTree : State := ok .buildTree (counted [(0x61, 4)])
/-- Two loaded codes, `00` and `10` (5 nodes). -/
@[irreducible] def twoLoaded : State := loaded 0x63 [true, false] (loaded 0x62 [false, false] State.reset)
/-- A decode of 23 bits on the tree of T1 (D1, step 0). -/
def decoding : State :=
  { abraTree with decRemain := 23, decNode := 8, decActive := true }
/-- Seven pending bits, 0x6E (E1, row 11). -/
def pending : State := { State.reset with encAcc := 0x6E, encNpend := 7, encBitcnt := 23 }

/-! ## One step of each command -/

/-- K1. -/
theorem test_nop : (statusWord (ran .nop State.reset), (ran .nop State.reset).flags) = (0x120, 1) := by
  decide +kernel
/-- K8, K9: NOP keeps a fault; CLEAR leaves it and keeps FLAGS. -/
theorem test_nop_in_fault : (ran .nop { State.reset with fault := true, errCode := 1, errOp := 0x50 }).fault = true := by
  decide +kernel
theorem test_clear :
    let t := ran .clear { abraCodes with fault := true, errCode := 1, errOp := 0x50, flags := 3, outq := [1] }
    (statusWord t, errorWord t, t.flags) = (0x120, 0, 3) := by decide +kernel
/-- H7. -/
theorem test_hist_clear :
    let t := ran .histClear abraTree
    (freqAt t 0x61, t.histTotal, t.nodeCount) = (0, 0, 9) := by decide +kernel
/-- H1. -/
theorem test_hist_byte :
    let t := ran (.histByte 0xFF) State.reset
    (freqAt t 0xFF, t.histTotal, statusWord t) = (1, 1, 0x100) := by decide +kernel
/-- H4. -/
theorem test_hist_byte_overflow :
    let t := ran (.histByte 0x42) { counted [(0x41, 0xFFFFFFFF)] with lCmd := 0x03000042 }
    (errorWord t, freqAt t 0x42) = (0x0303, 0) := by decide +kernel
/-- H3. -/
theorem test_hist_acc :
    let t := ran (.histAcc 0x41) { State.reset with lArg := State.reset.lArg.set 0 0xFFFFFFFF }
    (freqAt t 0x41, t.histTotal) = (0xFFFFFFFF, 0xFFFFFFFF) := by decide +kernel
/-- H5. -/
theorem test_hist_acc_overflow :
    let t := ran (.histAcc 0x41)
      { counted [(0x42, 1)] with lArg := State.reset.lArg.set 0 0xFFFFFFFF, lCmd := 0x04000041 }
    (errorWord t, t.histTotal) = (0x0403, 1) := by decide +kernel
/-- H6. -/
theorem test_rd_freq : (ran (.rdFreq 0x72) abraHist).res = #v[2, 0, 0, 0, 0, 0, 0, 0, 0] := by decide +kernel
/-- T7: at FREQ 2, leaf 2 beats node 3. -/
theorem test_build_tree_tie :
    let t := ran .buildTree (counted [(0x41, 1), (0x42, 1), (0x43, 2)])
    (nodeAt t.node 3, nodeAt t.node 4, t.root) = (internalNode 2 0 1, internalNode 4 2 3, 4) := by decide +kernel
/-- T6: the synthetic leaf is node 1 and the left child. -/
theorem test_build_tree_one_symbol :
    let t := ran .buildTree (counted [(0x61, 4)])
    (nodeAt t.node 1, nodeAt t.node 2, t.nodeCount, t.leafCount) = (synthNode, internalNode 4 1 0, 3, 2) := by
  decide +kernel
/-- T9. -/
theorem test_tree_clear :
    let t := ran .treeClear abraTree
    (t.nodeCount, t.root, t.histTotal) = (0, 0x1FF, 11) := by decide +kernel
/-- T11, its second and third codes `10` and `11` after `0`. -/
theorem test_insert_code :
    let t := loaded 0x63 [true, true] (loaded 0x62 [true, false] (loaded 0x61 [false] State.reset))
    (nodeAt t.node 0, nodeAt t.node 2, nodeAt t.node 4, t.nodeCount, t.leafCount) =
      (internalNode 0 1 2, internalNode 0 3 4, leafNode 0x63 0, 5, 3) := by decide +kernel
/-- T12: `1` begins `10`. -/
theorem test_insert_code_bad :
    let t := ran (.insertCode 0x64 1) { withCode [true] twoLoaded with lCmd := 0x12000164 }
    (errorWord t, t.nodeCount) = (0x1209, 5) := by decide +kernel
/-- T2: RD_NODE 0 and RD_NODE 9. -/
theorem test_rd_node :
    (ran (.rdNode 0) abraTree).res = #v[0xC0000061, 5, 0x01FF01FF, 0, 0, 0, 0, 0, 0] := by decide +kernel
theorem test_rd_node_unallocated :
    (ran (.rdNode 9) abraTree).res = Vector.replicate 9 0 := by decide +kernel
/-- G1. -/
theorem test_gen_codes :
    let t := ran .genCodes abraTree
    (codeOf t 0x62, codeOf t 0x61, t.codeMaxLen, t.cost) = (⟨true, [true, true, false]⟩, ⟨true, [false]⟩, 3, 23) := by
  decide +kernel
/-- G8. -/
theorem test_gen_codes_no_tree : errorWord (ran .genCodes { State.reset with lCmd := 0x20000000 }) = 0x2002 := by
  decide +kernel
/-- G2. -/
theorem test_rd_code :
    (ran (.rdCode 0x62) abraCodes).res = #v[0x80000003, 0xC0000000, 0, 0, 0, 0, 0, 0, 0] := by decide +kernel
/-- E8. -/
theorem test_enc_start :
    let t := ran .encStart pending
    (encPendingWord t, t.encBitcnt, t.outq) = (0, 0, []) := by decide +kernel
/-- E1, row 4: 7 pending bits 0x37 and the code `0`. -/
theorem test_enc_byte :
    let t := ran (.encByte 0x61) { abraCodes with encAcc := 0x37, encNpend := 7, encBitcnt := 7 }
    (t.outq, encPendingWord t, t.encBitcnt) = ([0x6E], 0, 8) := by decide +kernel
/-- E2. -/
theorem test_enc_byte_no_code : errorWord (ran (.encByte 0x7A) { abraCodes with lCmd := 0x3100007A }) = 0x3104 := by
  decide +kernel
/-- E1, row 12. -/
theorem test_enc_flush :
    let t := ran .encFlush pending
    (t.outq, encPendingWord t, t.encBitcnt) = ([0xDC], 0, 23) := by decide +kernel
/-- D1, step 0. -/
theorem test_dec_start :
    let t := ran .decStart { abraTree with lArg := abraTree.lArg.set 0 23 }
    (t.decRemain, t.decNode, t.decActive, t.decDone) = (23, 8, true, false) := by decide +kernel
/-- D9. -/
theorem test_dec_start_no_tree :
    errorWord (ran .decStart { State.reset with lArg := State.reset.lArg.set 0 5, lCmd := 0x40000000 }) = 0x4002 := by
  decide +kernel
/-- D1, step 3: seven bits of 0xDC are payload. -/
theorem test_dec_byte :
    let t := ran (.decByte 0xDC) { decoding with decRemain := 7, decSymcnt := 8 }
    (t.outq, t.decRemain, t.decNode, t.decSymcnt, t.decDone) = ([0x62, 0x72, 0x61], 0, 8, 11, true) := by decide +kernel
/-- D3: five bits end inside a code; nothing is pushed. -/
theorem test_dec_byte_underflow :
    let t := ran (.decByte 0xDC) { decoding with decRemain := 5, lCmd := 0x410000DC }
    (errorWord t, t.decRemain, t.outq) = (0x4106, 5, []) := by decide +kernel
/-- D4. -/
theorem test_dec_end_truncated :
    errorWord (ran .decEnd { decoding with decRemain := 7, lCmd := 0x42000000 }) = 0x4207 := by decide +kernel
/-- D8. -/
theorem test_dec_end :
    let t := ran .decEnd { State.reset with decActive := true, decDone := true }
    (t.fault, t.decActive, t.decDone) = (false, false, true) := by decide +kernel

/-! ## Whole steps -/

/-- The bus access as a step. -/
def accessed (a : Access) (s : State) : State :=
  match step { s with events := [.access a] } with
  | .next t => t
  | _ => s

/-- M3: a byte read at offset 0. -/
theorem test_byte_access : (accessed (.read 0 1) State.reset).resp = some ⟨false, some 0⟩ := by decide +kernel
/-- M7. -/
theorem test_read_empty_queue :
    let t := accessed (.read 0x64 4) State.reset
    (t.resp, t.flags) = (some ⟨true, some 0⟩, 4) := by decide +kernel
/-- M8. -/
theorem test_read_queue :
    let t := accessed (.read 0x64 4) { State.reset with outq := [0x6E] }
    (t.resp, t.outq) = (some ⟨true, some 0x16E⟩, []) := by decide +kernel
/-- K10: a second CMD write before the completion is dropped. -/
theorem test_command_dropped :
    let t := accessed (.write 0x1C 4 0) { State.reset with busy := true, lCmd := 0x10000000 }
    (t.flags, t.lCmd) = (2, 0x10000000) := by decide +kernel
/-- M12. -/
theorem test_soft_reset :
    let t := accessed (.write 0x18 4 1) { State.reset with ie := 8, fault := true, errCode := 1, errOp := 0x50 }
    (statusWord t, t.ie, irq t) = (0x120, 0, false) := by decide +kernel
/-- The word placed by `withFetchWord` runs at once: H1's command. -/
theorem test_placed_word :
    (match step (State.reset.withFetchWord 32 0x030000FF) with
      | .next t => (freqAt t 0xFF, t.busy)
      | _ => (0, true)) = (1, false) := by decide +kernel
/-- K2: an illegal word faults. -/
theorem test_illegal_word :
    (match step (State.reset.withFetchWord 32 0x00000001) with
      | .next t => errorWord t
      | _ => 0) = 0x0001 := by decide +kernel

/-! ## States of the invariant -/

/-- A state with the engine parts, room in the queue, no fault and no reset satisfies the invariant. -/
theorem inv_of {s : State} (e : EngineInv s) (q : s.outq.length ≤ 64)
    (f : s.fault = false ∧ s.errCode = 0 ∧ s.errOp = 0) (r : s.rstAsserted = false) : Machine.Inv s := by
  obtain ⟨f, c⟩ := f
  exact ⟨e.hist, q, e.enc, ⟨fun _ => c, fun h => (by rw [f] at h; cases h)⟩, ⟨fun h => (by rw [f] at h; cases h), fun h => (by rw [r] at h; cases h)⟩, e.tree, e.path,
    e.code, e.dec⟩

theorem ok_engine {s : State} (h : EngineInv s) (i : Instr) : EngineInv (ok i s) := by
  unfold ok
  split
  · next s' out e =>
    exact (outcome_engine h e).congr rfl rfl rfl rfl rfl rfl rfl rfl rfl rfl rfl rfl rfl rfl rfl
  · exact h

theorem loaded_engine {s : State} (h : EngineInv s) (sym : Byte) (q : List Bool) : EngineInv (loaded sym q s) :=
  ok_engine (s := withCode q s) (h.congr rfl rfl rfl rfl rfl rfl rfl rfl rfl rfl rfl rfl rfl rfl rfl) _

/-- No tree, no codes, no pending bits and an idle decoder, over any exact histogram. -/
theorem counted_engine {l : List (Byte × Word)} (h : HistInv (counted l)) : EngineInv (counted l) := by
  obtain ⟨h1, h2⟩ := cleared_tree (t := counted l) rfl rfl rfl rfl
  exact ⟨h, Nat.zero_lt_one, h1, h2, cleared_codes rfl rfl rfl, cleared_decoder rfl rfl (fun _ => rfl)⟩

theorem reset_engine : EngineInv State.reset := by
  apply cleared_engine <;> rfl

theorem abraHist_exact : HistInv abraHist := by unfold HistInv; decide +kernel
theorem abraTree_engine : EngineInv abraTree := ok_engine (counted_engine abraHist_exact) _
theorem abraCodes_engine : EngineInv abraCodes := ok_engine abraTree_engine _
theorem twoLoaded_engine : EngineInv twoLoaded := by
  unfold twoLoaded
  exact loaded_engine (loaded_engine reset_engine _ _) _ _

theorem reset_inv : Machine.Inv State.reset := inv_of reset_engine (by decide) ⟨rfl, rfl, rfl⟩ rfl
theorem abraTree_inv : Machine.Inv abraTree :=
  inv_of abraTree_engine (by decide +kernel) (by decide +kernel) (by decide +kernel)
theorem abraCodes_inv : Machine.Inv abraCodes :=
  inv_of abraCodes_engine (by decide +kernel) (by decide +kernel) (by decide +kernel)
theorem twoLoaded_inv : Machine.Inv twoLoaded :=
  inv_of twoLoaded_engine (by decide +kernel) (by decide +kernel) (by decide +kernel)

/-- Reset with a full queue and one pending bit: ENC_FLUSH holds. -/
def fullQueue : State :=
  { State.reset with outq := List.replicate 64 0, encNpend := 1, busy := true, lCmd := 0x32000000 }

theorem fullQueue_inv : Machine.Inv fullQueue :=
  inv_of (by apply cleared_engine <;> rfl) (by decide) ⟨rfl, rfl, rfl⟩ rfl

/-- No command's word is 0x03000100. -/
theorem reserved_word_unencoded (i : Instr) : encode i ≠ 0x03000100 := by
  intro h
  have h2 := congrArg decode h
  rw [show decode 0x03000100 = .illegal .reservedBits by decide] at h2
  have h3 : RoundTrip.Statement i := by
    cases i
    · exact RoundTrip.nop
    · exact RoundTrip.clear
    · exact RoundTrip.histClear
    · exact RoundTrip.histByte _
    · exact RoundTrip.histAcc _
    · exact RoundTrip.rdFreq _
    · exact RoundTrip.buildTree
    · exact RoundTrip.treeClear
    · exact RoundTrip.insertCode _ _
    · exact RoundTrip.rdNode _
    · exact RoundTrip.genCodes
    · exact RoundTrip.rdCode _
    · exact RoundTrip.encStart
    · exact RoundTrip.encByte _
    · exact RoundTrip.encFlush
    · exact RoundTrip.decStart
    · exact RoundTrip.decByte _
    · exact RoundTrip.decEnd
  unfold RoundTrip.Statement at h3
  rw [h2] at h3
  cases h3

/-! ## The largest loaded trees (T16, T17): by the laws of INSERT_CODE's loops, not by evaluation -/

/-- How many nodes R89's loop adds. -/
theorem graft_count (sym : Byte) (q : List Bool) (n : NodeMem) (cnt : Nat) (cur : Index) :
    (graft sym n cnt cur q).2 = cnt + q.length := by
  induction q generalizing n cnt cur with
  | nil => rfl
  | cons b q ih =>
    cases q with
    | nil => rfl
    | cons b' q => simp only [graft, ih, List.length_cons]; omega

theorem withCode_operand (q : List Bool) (s : State) (h : q.length ≤ 255) :
    codeOperand (BitVec.ofNat 8 q.length) (withCode q s) = q := by
  have hl : (BitVec.ofNat 8 q.length).toNat = q.length := by
    rw [BitVec.toNat_ofNat]; exact Nat.mod_eq_of_lt (by omega)
  apply List.ext_getElem
  · rw [length_codeOperand, hl]
  · intro i h1 h2
    simp only [codeOperand, List.getElem_map, List.getElem_range, codeBit, withCode]
    rw [dif_pos (by omega)]
    simp only [Vector.getElem_ofFn]
    rw [codeWord_getLsbD _ _ _ (by omega), show 32 * (i / 32) + i % 32 = i by omega]
    simp [h2]

/-- `twoLoaded` and the code `01` followed by z, which leaves it at node 1. -/
def bigTree (z : List Bool) : State := loaded 0x61 (false :: true :: z) twoLoaded

theorem twoLoaded_facts : twoLoaded.nodeCount = 5 ∧ twoLoaded.treeSrc = .loaded ∧ twoLoaded.root = 0 ∧
    (codeOf twoLoaded 0x61).valid = false ∧ (codeOf twoLoaded 0x64).valid = false ∧
    nodeAt twoLoaded.node 0 = internalNode 0 1 3 ∧ nodeAt twoLoaded.node 1 = internalNode 0 2 Config.nil ∧
    nodeAt twoLoaded.node 3 = internalNode 0 4 Config.nil := by decide +kernel

theorem twoLoaded_host : (twoLoaded.fault = false ∧ twoLoaded.errCode = 0 ∧ twoLoaded.errOp = 0) ∧
    twoLoaded.rstAsserted = false ∧ twoLoaded.outq = [] := by
  decide +kernel

theorem twoLoaded_codes : ∀ b, (codeOf twoLoaded b).valid = true →
    codeOf twoLoaded b = ⟨true, [false, false]⟩ ∨ codeOf twoLoaded b = ⟨true, [true, false]⟩ := by
  decide +kernel

section Big

variable (z : List Bool) (hz : z.length ≤ 253)

/-- What R89's loop leaves for the code. -/
def bigNodes : NodeMem × Nat := graft 0x61 twoLoaded.node 5 1 (true :: z)

include hz in
/-- The insertion of the long code is accepted. -/
theorem bigTree_eq : bigTree z = commitOk (withLoadedCode 0x61 (false :: true :: z)
    (bigNodes z).1 (bigNodes z).2 (withCode (false :: true :: z) twoLoaded)) [] := by
  obtain ⟨h1, h2, h3, h4, -, h5, h6, -⟩ := twoLoaded_facts
  have hlen : (BitVec.ofNat 8 (false :: true :: z).length) ≠ 0 := by
    intro h
    have := congrArg BitVec.toNat h
    rw [BitVec.toNat_ofNat, List.length_cons, List.length_cons] at this
    change _ = 0 at this
    omega
  have hd : descend twoLoaded.node 0 (false :: true :: z) = .stop 1 (true :: z) := by
    have e1 : (internalNode 0 1 3).child false = 1 := rfl
    have e2 : (internalNode 0 2 Config.nil).child true = Config.nil := rfl
    have e3 : (internalNode 0 2 Config.nil).leaf = false := rfl
    cases z <;> simp only [descend, h5, e1, h6, e2, e3] <;> rfl
  have e : outcomeOf (.insertCode 0x61 (BitVec.ofNat 8 (false :: true :: z).length))
      (withCode (false :: true :: z) twoLoaded) =
      .ok (withLoadedCode 0x61 (false :: true :: z) (bigNodes z).1 (bigNodes z).2
        (withCode (false :: true :: z) twoLoaded)) [] := by
    simp only [outcomeOf, insertCode, withCode_operand (false :: true :: z) twoLoaded (by simp; omega)]
    rw [if_neg (by rintro ⟨-, h⟩; rw [show (withCode (false :: true :: z) twoLoaded).treeSrc = _ from h2] at h; cases h),
      if_neg hlen,
      if_neg (by rw [show ((withCode (false :: true :: z) twoLoaded).code[(0x61 : Byte).toNat]).valid = _ from h4]; decide),
      if_neg (by rw [show (withCode (false :: true :: z) twoLoaded).nodeCount = _ from h1]; decide)]
    simp only [show (withCode (false :: true :: z) twoLoaded).root = _ from h3,
      show (withCode (false :: true :: z) twoLoaded).node = twoLoaded.node from rfl,
      show (withCode (false :: true :: z) twoLoaded).nodeCount = _ from h1, hd]
    rw [if_neg]
    · rfl
    · simp [Config.nodeCap]; omega
  unfold bigTree loaded ok
  rw [e]

include hz in
theorem bigTree_grafted : Grafted 0x61 twoLoaded.node 5 1 [false] (true :: z) (bigNodes z) := by
  obtain ⟨h1, h2, h3, h4, -, h5, h6, -⟩ := twoLoaded_facts
  have e := twoLoaded_engine
  have hb := loadedBase_next e.tree e.path e.code (by rw [h1]; decide) h2 1
  rw [h1] at hb
  refine graft_spec 0x61 hb.grow (by simp; omega) (by decide) (by rw [h6]; rfl) rfl (by rw [h6]; rfl) ?_
  rw [follow_cons, h5, if_neg (by decide)]
  rfl

include hz in
theorem bigTree_facts : (bigTree z).nodeCount.toNat = 6 + z.length ∧ (bigTree z).treeSrc = .loaded ∧
    (bigTree z).root = 0 ∧ ((bigTree z).fault = false ∧ (bigTree z).errCode = 0 ∧ (bigTree z).errOp = 0) ∧
    (bigTree z).rstAsserted = false ∧ (bigTree z).outq = [] ∧
    nodeAt (bigTree z).node 0 = internalNode 0 1 3 ∧ nodeAt (bigTree z).node 3 = internalNode 0 4 Config.nil ∧
    (∀ b, codeOf (bigTree z) b = if b = 0x61 then ⟨true, false :: true :: z⟩ else codeOf twoLoaded b) := by
  obtain ⟨-, -, -, -, -, h5, -, h7⟩ := twoLoaded_facts
  obtain ⟨k1, k2, k3⟩ := twoLoaded_host
  have g := bigTree_grafted z hz
  rw [bigTree_eq z hz]
  refine ⟨?_, rfl, rfl, k1, k2, ?_, ?_, ?_, ?_⟩
  · show (BitVec.ofNat 9 (bigNodes z).2).toNat = _
    rw [bigNodes, graft_count, BitVec.toNat_ofNat, List.length_cons]
    omega
  · show twoLoaded.outq ++ [] = []
    rw [k3]; rfl
  · exact (g.old 0 (by decide) (by decide)).trans h5
  · exact (g.old 3 (by decide) (by decide)).trans h7
  · intro b
    show (twoLoaded.code.set (0x61 : Byte).toNat ⟨true, false :: true :: z⟩)[b.toNat] = _
    by_cases hb : b = 0x61
    · subst hb; rw [if_pos rfl]; exact Vector.getElem_set_self _
    · rw [if_neg hb]
      exact Vector.getElem_set_ne _ _ (fun h => hb (BitVec.eq_of_toNat_eq h.symm))

include hz in
theorem bigTree_inv : Machine.Inv (bigTree z) := by
  obtain ⟨-, -, -, h1, h2, h3, -⟩ := bigTree_facts z hz
  exact inv_of (loaded_engine twoLoaded_engine _ _) (by rw [h3]; decide) h1 h2

include hz in
/-- A code of `11` and y conflicts with none of the three and needs one node for each bit from its second on. -/
theorem bigTree_room (y : List Bool) :
    (∀ b, (codeOf (bigTree z) b).valid = true → ¬ Conflict (codeOf (bigTree z) b).bits (true :: true :: y)) ∧
    nodesNeeded (bigTree z) (true :: true :: y) = y.length + 1 := by
  obtain ⟨h1, -, h3, -, -, -, h5, h6, h7⟩ := bigTree_facts z hz
  constructor
  · intro b hv
    rw [h7] at hv ⊢
    split at hv
    · next hb =>
      rw [if_pos hb]
      rintro (h | h) <;> simp at h
    · next hb =>
      rw [if_neg hb]
      rcases twoLoaded_codes b hv with h | h <;> rw [h] <;> rintro (h | h) <;> simp at h
  · unfold nodesNeeded
    have e1 : (internalNode 0 1 3).child true = 3 := rfl
    have e2 : (internalNode 0 4 Config.nil).child true = Config.nil := rfl
    rw [if_neg (by intro h; rw [h] at h1; simp at h1; omega), h3]
    simp only [edgesAlong, h5, e1, h6, e2]
    rw [if_neg (by decide)]
    simp

end Big

/-! ## Witnesses: states and operands that meet the hypotheses of each obligation, clause by clause -/

/-- A command in flight, with no event pending. -/
def inFlight (w : Word) : State := { State.reset with busy := true, lCmd := w }

theorem witness_StepRunsTheLatchedCommand :
    (inFlight 0x03000061).events = [] ∧ (inFlight 0x03000061).busy = true ∧
    decode (inFlight 0x03000061).lCmd = .instr (.histByte 0x61) := by decide +kernel
theorem witness_StepRunsTheLatchedCommand_turn :
    let s := { inFlight 0x13000000 with events := [.engine, .rstAssert] }
    s.events = .engine :: [.rstAssert] ∧ s.busy = true ∧ decode s.lCmd = .instr (.rdNode 0) := by decide +kernel
theorem witness_IllegalWordFaults : (inFlight 0x03000100).events = [] ∧ (inFlight 0x03000100).busy = true ∧
    ∀ i, encode i ≠ (inFlight 0x03000100).lCmd := ⟨rfl, rfl, reserved_word_unencoded⟩
theorem witness_StepPerformsTheNextEvent :
    { State.reset with events := [.access (.read 0x08 4)] }.events = .access (.read 0x08 4) :: [] ∧
    { State.reset with events := [.rstAssert] }.events = .rstAssert :: [] ∧
    { State.reset with events := [.rstRelease] }.events = .rstRelease :: [] ∧
    { State.reset with events := [.engine] }.events = .engine :: [] ∧
    State.reset.busy = false ∧ State.reset.events = [] := by decide +kernel
theorem witness_PlacedWordRunsNext : decodeTableWord 32 0x120001FF = some (.insertCode 0xFF 1) := by decide
theorem witness_CommandWriteIssuesOrDrops :
    State.reset.rstAsserted = false ∧
    ¬ (State.reset.busy = true ∨ (State.reset.fault = true ∧ (0x03000061 : Word) ≠ 0x00000000 ∧
      (0x03000061 : Word) ≠ 0x01000000)) ∧
    (inFlight 0).busy = true ∧
    ({ State.reset with fault := true }.fault = true ∧ (0x01000001 : Word) ≠ 0x00000000 ∧
      (0x01000001 : Word) ≠ 0x01000000) ∧
    ¬ ({ State.reset with fault := true }.busy = true ∨ ({ State.reset with fault := true }.fault = true ∧
      (0x01000000 : Word) ≠ 0x00000000 ∧ (0x01000000 : Word) ≠ 0x01000000)) := by decide +kernel
theorem witness_OnlyOutputCommandsHold : Machine.Inv fullQueue ∧ fullQueue.busy = true ∧
    exec .encFlush fullQueue = .next fullQueue := ⟨fullQueue_inv, rfl, rfl⟩
/-- 32 bytes queued is the most that leaves room for every command. -/
theorem witness_EveryCommandCompletesWithRoom :
    Machine.Inv { State.reset with outq := List.replicate 32 0 } ∧ (List.replicate 32 (0 : Byte)).length ≤ 32 :=
  ⟨inv_of (by apply cleared_engine <;> rfl) (by decide) ⟨rfl, rfl, rfl⟩ rfl, by decide⟩
theorem witness_FaultsArePreciseAndListed :
    State.reset.fault = false ∧ exec .decEnd State.reset = .next (ran .decEnd State.reset) ∧
    (ran .decEnd State.reset).fault = true := ⟨rfl, rfl, rfl⟩

/-- The state a step leaves. -/
def stepped (s : State) : State :=
  match step s with
  | .next t => t
  | _ => s

/-- A fault, nothing in flight. -/
def faulted : State := { State.reset with fault := true, errCode := 1, errOp := 0x50 }

theorem witness_FaultStaysUntilCleared :
    let a := { faulted with busy := true, lCmd := 0x01000000 }
    let b := { faulted with events := [.access (.write 0x18 4 1)] }
    let c := { faulted with events := [.rstAssert] }
    (a.fault = true ∧ step a = .next (stepped a) ∧ (stepped a).fault = false) ∧
    (b.fault = true ∧ step b = .next (stepped b) ∧ (stepped b).fault = false) ∧
    (c.fault = true ∧ step c = .next (stepped c) ∧ (stepped c).fault = false) :=
  ⟨⟨rfl, rfl, rfl⟩, ⟨rfl, rfl, rfl⟩, ⟨rfl, rfl, rfl⟩⟩
/-- A pop in the fault state. -/
theorem witness_FaultFreezesTheEngine :
    let a := { faulted with outq := [1, 2], events := [.access (.read 0x64 4)] }
    LatchInv a ∧ a.fault = true ∧ step a = .next (stepped a) ∧ (stepped a).fault = true ∧ a.outq = 1 :: (stepped a).outq :=
  ⟨⟨fun _ h => (by cases h), fun h => (by cases h)⟩, rfl, rfl, rfl, rfl⟩
theorem witness_NopOnlyCompletes : State.reset.busy = false ∧ faulted.busy = false ∧
    fieldOp 0x00FFFFFF = 0x00 ∧ (0x00FFFFFF : Word) ≠ 0x00000000 := by decide +kernel
theorem witness_ClearRestoresEngineResetValues : faulted.busy = false ∧ (inFlight 0).busy = true := ⟨rfl, rfl⟩

/-! ### Histogram -/

theorem witness_HistByteCountsOne :
    (counted [(0x41, 0xFFFFFFFF)]).histTotal.toNat = 2 ^ 32 - 1 ∧
    (counted [(0x41, 0xFFFFFFFE)]).histTotal.toNat ≠ 2 ^ 32 - 1 ∧ HistInv (counted [(0x41, 0xFFFFFFFE)]) := by
  unfold HistInv; decide +kernel
/-- The sum just past, and just at, 2^32 - 1. -/
theorem witness_HistAccAddsTheLatchedCount :
    let a := { counted [(0x42, 1)] with lArg := State.reset.lArg.set 0 0xFFFFFFFF }
    let b := { counted [(0x42, 1)] with lArg := State.reset.lArg.set 0 0xFFFFFFFE }
    a.histTotal.toNat + a.lArg[0].toNat > 2 ^ 32 - 1 ∧ b.histTotal.toNat + b.lArg[0].toNat ≤ 2 ^ 32 - 1 ∧
    HistInv b := by
  unfold HistInv; decide +kernel
theorem witness_HistogramCountsItsInput : [0x61, 0x62, 0x61#8].length ≤ 2 ^ 32 - 1 := by decide

/-! ### Tree -/

theorem witness_BuildTreeOfNothingIsNoTree : ∀ b, freqAt State.reset b = 0 := by decide +kernel
theorem witness_BuildTreeCountsNodes : (∃ b, freqAt (counted [(0x61, 4)]) b ≠ 0) ∧ ∃ b, freqAt abraHist b ≠ 0 :=
  ⟨⟨0x61, by decide +kernel⟩, ⟨0x61, by decide +kernel⟩⟩
/-- One symbol, and five. -/
theorem witness_BuiltTreeIsStrictBinary :
    (HistInv (counted [(0x61, 4)]) ∧ ∃ b, freqAt (counted [(0x61, 4)]) b ≠ 0) ∧
    HistInv abraHist ∧ ∃ b, freqAt abraHist b ≠ 0 :=
  ⟨⟨by unfold HistInv; decide +kernel, 0x61, by decide +kernel⟩, abraHist_exact, 0x61, by decide +kernel⟩
theorem witness_ExtractMinTakesTheLeastKey :
    ([⟨2, 0⟩, ⟨1, 1⟩, ⟨1, 2⟩].map Key.idx).Nodup ∧ ([⟨2, 0⟩, ⟨1, 1⟩, ⟨1, 2⟩] : List Key) ≠ [] := by decide
/-- T1: node 5 is the first merge; leaf 4 waits then, as no internal node up to 5 has it as a child. -/
theorem witness_LeftChildIsExtractedFirst : HistInv abraHist ∧
    Allocated abraTree 5 ∧ (nodeAt abraTree.node 5).leaf = false ∧ (nodeAt abraTree.node 6).leaf = false ∧
    ∀ j b, (nodeAt abraTree.node j).leaf = false → j.toNat ≤ (5 : Index).toNat →
      (nodeAt abraTree.node j).child b ≠ 4 := by
  refine ⟨abraHist_exact, show _ < _ by decide +kernel, by decide +kernel, by decide +kernel, ?_⟩
  intro j b hl hj
  have h : ∀ k : Fin 6, (nodeAt abraTree.node (BitVec.ofNat 9 k)).leaf = false →
      (nodeAt abraTree.node (BitVec.ofNat 9 k)).child false ≠ 4 ∧
      (nodeAt abraTree.node (BitVec.ofNat 9 k)).child true ≠ 4 := by decide +kernel
  have h := h ⟨j.toNat, Nat.lt_succ_of_le hj⟩
  simp only [ofNat_toNat_index] at h
  cases b
  · exact (h hl).1
  · exact (h hl).2

/-- Each clause of the checks in their order: over a built tree; an empty code; a symbol that has a code; a
code that begins a loaded one, one that continues a loaded one; a code that fits. -/
theorem witness_InsertCodeChecksInOrder :
    (Machine.Inv abraTree ∧ abraTree.nodeCount ≠ 0 ∧ abraTree.treeSrc = .built) ∧
    (Machine.Inv State.reset ∧ ¬ (State.reset.nodeCount ≠ 0 ∧ State.reset.treeSrc = .built)) ∧
    Machine.Inv twoLoaded ∧ ¬ (twoLoaded.nodeCount ≠ 0 ∧ twoLoaded.treeSrc = .built) ∧
    (codeOf twoLoaded 0x62).valid = true ∧
    Conflict (codeOf twoLoaded 0x63).bits [true] ∧ Conflict (codeOf twoLoaded 0x63).bits [true, false, true] := by
  refine ⟨⟨abraTree_inv, ?_, ?_⟩, ⟨reset_inv, ?_⟩, twoLoaded_inv, ?_, ?_, ?_, ?_⟩
  iterate 5 decide +kernel
  · exact .inr (by decide +kernel)
  · exact .inl (by decide +kernel)

/-- A tree of 259 nodes. -/
def wide : State := bigTree (List.replicate 253 false)

theorem wide_facts : Machine.Inv wide ∧ wide.nodeCount.toNat = 259 ∧ wide.treeSrc = .loaded ∧
    (codeOf wide 0x64).valid = false := by
  have hz : (List.replicate 253 false).length ≤ 253 := by rw [List.length_replicate]
  obtain ⟨h1, h2, -, -, -, -, -, -, h3⟩ := bigTree_facts _ hz
  refine ⟨bigTree_inv _ hz, by rw [wide, h1, List.length_replicate], h2, ?_⟩
  rw [wide, h3, if_neg (by decide)]
  exact twoLoaded_facts.2.2.2.2.1

/-- The latched code `11` and k zeros over `wide`. -/
theorem wide_code (k : Nat) (hk : k ≤ 253) :
    let s := withCode (true :: true :: List.replicate k false) wide
    let len : Byte := BitVec.ofNat 8 (k + 2)
    Machine.Inv s ∧ ¬ (s.nodeCount ≠ 0 ∧ s.treeSrc = .built) ∧ len ≠ 0 ∧ (codeOf s 0x64).valid = false ∧
    (∀ b, (codeOf s b).valid = true → ¬ Conflict (codeOf s b).bits (codeOperand len s)) ∧
    s.nodeCount.toNat + nodesNeeded s (codeOperand len s) = 260 + k := by
  obtain ⟨h1, h2, h3, h4⟩ := wide_facts
  have hq := withCode_operand (true :: true :: List.replicate k false) wide (by simp; omega)
  simp only [List.length_cons, List.length_replicate] at hq
  have hr := bigTree_room (List.replicate 253 false) (by rw [List.length_replicate]) (List.replicate k false)
  have e : EngineInv (withCode (true :: true :: List.replicate k false) wide) :=
    h1.engine.congr rfl rfl rfl rfl rfl rfl rfl rfl rfl rfl rfl rfl rfl rfl rfl
  refine ⟨⟨e.hist, h1.queue, e.enc, ⟨h1.error.1, h1.error.2⟩, ⟨h1.latch.1, h1.latch.2⟩, e.tree, e.path, e.code, e.dec⟩, ?_, ?_, h4, ?_, ?_⟩
  · rintro ⟨-, h⟩
    rw [show (withCode (true :: true :: List.replicate k false) wide).treeSrc = _ from h3] at h
    cases h
  · intro h
    have h0 := congrArg BitVec.toNat h
    rw [BitVec.toNat_ofNat] at h0
    change _ = 0 at h0
    omega
  · rw [hq]; exact hr.1
  · rw [hq]
    show wide.nodeCount.toNat + nodesNeeded wide _ = _
    rw [h2, wide, hr.2, List.length_replicate]
    omega

/-- 512 nodes are one too many. -/
theorem witness_InsertCodeChecksInOrder_full : ∃ (s : State) (len : Byte), Machine.Inv s ∧
    ¬ (s.nodeCount ≠ 0 ∧ s.treeSrc = .built) ∧
    ¬ (len = 0 ∨ (codeOf s 0x64).valid = true ∨
      ∃ b, (codeOf s b).valid = true ∧ Conflict (codeOf s b).bits (codeOperand len s)) ∧
    s.nodeCount.toNat + nodesNeeded s (codeOperand len s) = 512 := by
  obtain ⟨h1, h2, h3, h4, h5, h6⟩ := wide_code 252 (by decide)
  refine ⟨_, _, h1, h2, ?_, h6⟩
  rintro (h | h | ⟨b, h, hc⟩)
  · exact h3 h
  · rw [h4] at h; cases h
  · exact h5 b h hc

/-- 511 nodes fit. -/
theorem witness_InsertCodeAddsItsPath : ∃ (s : State) (len : Byte), Machine.Inv s ∧
    ¬ (s.nodeCount ≠ 0 ∧ s.treeSrc = .built) ∧ len ≠ 0 ∧ (codeOf s 0x64).valid = false ∧
    (∀ b, (codeOf s b).valid = true → ¬ Conflict (codeOf s b).bits (codeOperand len s)) ∧
    s.nodeCount.toNat + nodesNeeded s (codeOperand len s) = 511 := by
  obtain ⟨h1, h2, h3, h4, h5, h6⟩ := wide_code 251 (by decide)
  exact ⟨_, _, h1, h2, h3, h4, h5, h6⟩
/-- And on an empty tree. -/
theorem witness_InsertCodeAddsItsPath_empty :
    let s := withCode [false] State.reset
    Machine.Inv s ∧ s.nodeCount = 0 ∧ (1 : Byte) ≠ 0 ∧ (∀ b, (codeOf s b).valid = false) ∧
    s.nodeCount.toNat + nodesNeeded s (codeOperand 1 s) ≤ 511 := by
  refine ⟨inv_of (by apply cleared_engine <;> rfl) (by decide) ⟨rfl, rfl, rfl⟩ rfl, ?_⟩
  decide +kernel
/-- The last allocated index and the first free one. -/
theorem witness_RdNodeReadsOneEntry : (8 : Index).toNat < abraTree.nodeCount.toNat ∧
    abraTree.nodeCount.toNat ≤ (9 : Index).toNat := by decide +kernel

/-! ### Code table -/

theorem witness_GenCodesTabulatesLeafPaths : State.reset.nodeCount = 0 ∧ Machine.Inv abraTree ∧
    abraTree.nodeCount ≠ 0 ∧ Machine.Inv twoLoaded ∧ twoLoaded.nodeCount ≠ 0 ∧ twoLoaded.treeSrc = .loaded :=
  ⟨rfl, abraTree_inv, by decide +kernel, twoLoaded_inv, by decide +kernel, by decide +kernel⟩
theorem witness_CostIsTheWeightedCodeLength : HistInv abraHist ∧ ∃ b, freqAt abraHist b ≠ 0 :=
  ⟨abraHist_exact, 0x61, by decide +kernel⟩
theorem witness_ValidCodesAreFreeOfConflicts : Machine.Inv abraCodes ∧ (codeOf abraCodes 0x61).valid = true ∧
    (codeOf abraCodes 0x62).valid = true := ⟨abraCodes_inv, by decide +kernel, by decide +kernel⟩
/-- An invalid entry, and one of the greatest length. -/
theorem witness_RdCodeReadsOneEntry : (codeOf abraCodes 0x7A).bits.length ≤ 255 ∧ CodeInv abraCodes ∧
    (codeOf abraCodes 0x7A).valid = false ∧ (codeOf (bigTree (List.replicate 253 false)) 0x61).bits.length = 255 := by
  refine ⟨by decide +kernel, abraCodes_engine.code, by decide +kernel, ?_⟩
  obtain ⟨-, -, -, -, -, -, -, -, h⟩ := bigTree_facts (List.replicate 253 false) (by rw [List.length_replicate])
  rw [h, if_pos rfl]
  simp only [List.length_cons, List.length_replicate]
/-- The last bit of the longest code, word 7 bit 30 of it; a code of 12 bits in its words. -/
theorem witness_CodeWordsCarryTheCode : 32 * 7 + 30 < (255 : Byte).toNat ∧
    (∀ k : Fin 8, (withCode [true, false, true] State.reset).lArg[k] = codeWord [true, false, true] k.val) ∧
    ∀ j, j < (2 : Byte).toNat → codeBit (withCode [true, false, true] State.reset).lArg j =
      codeBit (withCode [true, false] State.reset).lArg j := by
  refine ⟨by decide, by decide +kernel, ?_⟩
  intro j hj
  change j < 2 at hj
  interval_cases j <;> decide +kernel

/-! ### Encoder -/

/-- No code; a code and a full queue; a code and exactly the room it needs. -/
theorem witness_EncByteAppendsTheCode :
    (codeOf State.reset 0x61).valid = false ∧
    (let s := { abraCodes with encNpend := 7, outq := List.replicate 64 0 }
     (codeOf s 0x61).valid = true ∧ ¬ (s.encNpend.toNat + (codeOf s 0x61).bits.length) / 8 ≤ 64 - s.outq.length) ∧
    (let s := { abraCodes with encNpend := 7, outq := List.replicate 63 0 }
     (codeOf s 0x61).valid = true ∧ (s.encNpend.toNat + (codeOf s 0x61).bits.length) / 8 = 64 - s.outq.length) := by
  decide +kernel
theorem witness_EncFlushPadsToAByte : State.reset.encNpend = 0 ∧
    (fullQueue.encNpend ≠ 0 ∧ 64 ≤ fullQueue.outq.length) ∧
    (let s := { pending with outq := List.replicate 63 0 }
     s.encNpend ≠ 0 ∧ s.outq.length < 64 ∧ EncInv s) := by
  unfold EncInv; decide +kernel
theorem witness_PayloadIsThePackedCodes : CodeInv abraCodes ∧
    ∀ b ∈ ([0x61, 0x62, 0x72] : List Byte), (codeOf abraCodes b).valid = true :=
  ⟨abraCodes_engine.code, by decide +kernel⟩

/-! ### Decoder -/

theorem witness_DecStartPutsTheWalkerAtTheRoot :
    (let s := { State.reset with lArg := State.reset.lArg.set 0 1 }
     s.lArg[1].toNat * 2 ^ 32 + s.lArg[0].toNat > 0 ∧ s.nodeCount = 0) ∧
    State.reset.lArg[1].toNat * 2 ^ 32 + State.reset.lArg[0].toNat = 0 ∧ abraTree.nodeCount ≠ 0 := by
  decide +kernel

/-- The single-symbol tree in a decode of 4 bits. -/
def oneDecoding : State := { oneTree with decRemain := 4, decNode := 2, decActive := true }

/-- The bit 0 of the single-symbol tree leads to the synthetic leaf (D7). -/
theorem oneDecoding_no_walk (cur : Index) (out : List Byte) :
    ¬ Walk oneDecoding.node oneDecoding.root oneDecoding.decNode (payloadBits 0x70 oneDecoding) cur out := by
  rw [← walkBits_iff]
  have : walkBits oneDecoding.node oneDecoding.root (payloadBits 0x70 oneDecoding) oneDecoding.decNode [] = none := by
    decide +kernel
  rw [this]
  simp

/-- The last seven bits of D1 and the first five of D3, walked. -/
theorem decoding_walk7 (s : State) (h : s = { decoding with decRemain := 7 } ∨
      s = { decoding with decRemain := 7, outq := List.replicate 61 0 } ∨
      s = { decoding with decRemain := 7, outq := List.replicate 62 0 }) :
    Walk s.node s.root s.decNode (payloadBits 0xDC s) 8 [0x62, 0x72, 0x61] := by
  rw [← walkBits_iff]
  rcases h with rfl | rfl | rfl <;> decide +kernel
theorem decoding_walk5 : Walk decoding.node decoding.root decoding.decNode
    (payloadBits 0xDC { decoding with decRemain := 5 }) 6 [0x62] := by
  rw [← walkBits_iff]
  decide +kernel

/-- Clause by clause: no decode; the length consumed; no walk; an end inside a code; no room by one byte;
exactly the room. -/
theorem witness_DecByteWalksThePayloadBits :
    State.reset.decActive = false ∧
    (let s := { decoding with decRemain := 0 }
     s.decActive = true ∧ s.decRemain = 0) ∧
    (oneDecoding.decActive = true ∧ oneDecoding.decRemain ≠ 0 ∧
      ∀ cur out, ¬ Walk oneDecoding.node oneDecoding.root oneDecoding.decNode (payloadBits 0x70 oneDecoding) cur out) ∧
    (let s := { decoding with decRemain := 5 }
     s.decActive = true ∧ s.decRemain ≠ 0 ∧ Walk s.node s.root s.decNode (payloadBits 0xDC s) 6 [0x62] ∧
      remainAfter s = 0 ∧ (6 : Index) ≠ s.root) ∧
    (let s := { decoding with decRemain := 7, outq := List.replicate 62 0 }
     s.decActive = true ∧ s.decRemain ≠ 0 ∧ Walk s.node s.root s.decNode (payloadBits 0xDC s) 8 [0x62, 0x72, 0x61] ∧
      (8 : Index) = s.root ∧ ¬ [0x62, 0x72, (0x61 : Byte)].length ≤ 64 - s.outq.length) ∧
    (let s := { decoding with decRemain := 7, outq := List.replicate 61 0 }
     s.decActive = true ∧ s.decRemain ≠ 0 ∧ Walk s.node s.root s.decNode (payloadBits 0xDC s) 8 [0x62, 0x72, 0x61] ∧
      (8 : Index) = s.root ∧ [0x62, 0x72, (0x61 : Byte)].length = 64 - s.outq.length) := by
  refine ⟨rfl, by decide +kernel, ⟨by decide +kernel, by decide +kernel, oneDecoding_no_walk⟩,
    ⟨rfl, by decide, decoding_walk5, by decide, by decide +kernel⟩,
    ⟨rfl, by decide, decoding_walk7 _ (.inr (.inr rfl)), by decide +kernel, by decide⟩,
    ⟨rfl, by decide, decoding_walk7 _ (.inr (.inl rfl)), by decide +kernel, by decide⟩⟩
theorem witness_DecEndChecksTheLength : State.reset.decActive = false ∧
    (decoding.decActive = true ∧ decoding.decRemain ≠ 0) ∧
    (let s := { State.reset with decActive := true }
     s.decActive = true ∧ s.decRemain = 0 ∧ DecInv s) := by
  refine ⟨rfl, by decide, rfl, rfl, ?_⟩
  exact ⟨fun h => (by cases h), fun _ => ⟨rfl, fun _ => rfl⟩, fun _ _ => rfl, fun _ h => absurd rfl h⟩

/-- 'a' and 'b' of T1: the paths `0` and `110`. -/
def abraPath (b : Byte) : List Bool := if b = 0x61 then [false] else [true, true, false]

theorem abra_paths : ∀ b ∈ ([0x61, 0x62] : List Byte), CodePath abraTree (abraPath b) b := by
  intro b hb
  simp only [List.mem_cons, List.not_mem_nil, or_false] at hb
  rcases hb with rfl | rfl
  · exact ⟨0, by decide +kernel, by unfold RealLeaf; decide +kernel, by decide +kernel⟩
  · exact ⟨1, by decide +kernel, by unfold RealLeaf; decide +kernel, by decide +kernel⟩

/-- "ab" is `0110`: the byte 0x6F with pad bits 1 (R101 (b)). -/
theorem witness_DecoderRecoversTheSymbols :
    let s := { abraTree with lArg := abraTree.lArg.set 0 4 }
    let x : List Byte := [0x61, 0x62]
    let e := x.flatMap abraPath
    TreeInv s ∧ (∀ b ∈ x, s.nodeCount ≠ 0 ∧ CodePath s (abraPath b) b) ∧ e.length < 2 ^ 64 ∧
    s.lArg[1].toNat * 2 ^ 32 + s.lArg[0].toNat = e.length ∧ [(0x6F : Byte)].length = (e.length + 7) / 8 ∧
    e <+: [(0x6F : Byte)].flatMap bitsOf := by
  refine ⟨abraTree_engine.tree.congr rfl rfl rfl rfl rfl, fun b hb => ⟨?_, abra_paths b hb⟩, ?_, ?_, ?_, ?_⟩
  · show abraTree.nodeCount ≠ 0
    decide +kernel
  all_goals decide +kernel
/-- "ab" declared and no byte sent. -/
theorem witness_ShortPayloadIsTruncated :
    let s := { abraTree with lArg := abraTree.lArg.set 0 4 }
    let x : List Byte := [0x61, 0x62]
    let e := x.flatMap abraPath
    TreeInv s ∧ s.nodeCount ≠ 0 ∧ (∀ b ∈ x, CodePath s (abraPath b) b) ∧ e.length < 2 ^ 64 ∧
    s.lArg[1].toNat * 2 ^ 32 + s.lArg[0].toNat = e.length ∧ ([] : List Byte).length < (e.length + 7) / 8 ∧
    ([] : List Byte).flatMap bitsOf <+: e := by
  refine ⟨abraTree_engine.tree.congr rfl rfl rfl rfl rfl, ?_, abra_paths, ?_, ?_, ?_, List.nil_prefix⟩
  · show abraTree.nodeCount ≠ 0
    decide +kernel
  all_goals decide +kernel
theorem witness_DecodingUndoesEncoding : Machine.Inv abraCodes ∧
    (∀ b ∈ ([0x61, 0x62, 0x72] : List Byte), (codeOf abraCodes b).valid = true) ∧
    (([0x61, 0x62, 0x72] : List Byte).flatMap (fun b => (codeOf abraCodes b).bits)).length < 2 ^ 64 :=
  ⟨abraCodes_inv, by decide +kernel, by decide +kernel⟩

/-! ### The invariant and the window -/

theorem witness_EveryStepKeepsTheInvariant : Machine.Inv abraCodes ∧ Machine.Inv fullQueue :=
  ⟨abraCodes_inv, fullQueue_inv⟩
/-- A command that writes RES, one that writes the histogram, CLEAR, one that writes the tree, and one that
pushes to OUTQ. -/
theorem witness_CommandsWriteOnlyTheirState :
    exec (.rdFreq 0x61) abraHist = .next (ran (.rdFreq 0x61) abraHist) ∧ (ran (.rdFreq 0x61) abraHist).res ≠ abraHist.res ∧
    exec (.histByte 0x61) abraHist = .next (ran (.histByte 0x61) abraHist) ∧
    (ran (.histByte 0x61) abraHist).histTotal ≠ abraHist.histTotal ∧
    exec .clear abraCodes = .next (ran .clear abraCodes) ∧ (ran .clear abraCodes).code ≠ abraCodes.code ∧
    exec .treeClear abraTree = .next (ran .treeClear abraTree) ∧
    (ran .treeClear abraTree).nodeCount ≠ abraTree.nodeCount ∧
    exec .encFlush pending = .next (ran .encFlush pending) ∧ (ran .encFlush pending).outq ≠ pending.outq :=
  ⟨rfl, by decide +kernel, rfl, by decide +kernel, rfl, by decide +kernel, rfl, by decide +kernel, rfl,
    by decide +kernel⟩
/-- For IdentificationIsConstant, StatusBitsAreComputed, CountRegistersReadTheirState, HostRegistersActAsTyped and
ReservedOffsetsReadZero: states out of reset. -/
theorem witness_out_of_reset : State.reset.rstAsserted = false ∧ abraCodes.rstAsserted = false := by decide +kernel
theorem witness_OutDataPopsTheQueue :
    State.reset.rstAsserted = false ∧ State.reset.outq = [] ∧
    (let s := { State.reset with outq := List.replicate 64 7 }
     s.outq.length ≤ 64 ∧ s.outq = 7 :: List.replicate 63 7) := by decide +kernel
/-- For HostRegistersActAsTyped, CTRL with bit 0 clear; for CountRegistersReadTheirState, ERROR and the first offset
of its range. -/
theorem witness_registers : (0xFFFFFFFE : Word).getLsbD 0 = false ∧
    ((0x0C : Byte) = 0x0C ∧ (0x0C : Byte).toNat % 4 = 0) ∧ (0x6C ≤ (0x6C : Byte).toNat ∧ (0x6C : Byte).toNat % 4 = 0) := by
  decide
theorem witness_InadmissibleAccessChangesNothing : ((1 : Nat) ≠ 4 ∨ (0x00 : Byte).toNat % 4 ≠ 0) ∧
    ((4 : Nat) ≠ 4 ∨ (0x66 : Byte).toNat % 4 ≠ 0) := by decide
/-- The first and last reserved offsets; the first of the result file and the last read-only one below 0x10. -/
theorem witness_ReservedOffsetsReadZero :
    ((0xAC : Byte).toNat % 4 = 0 ∧ 0xAC ≤ (0xAC : Byte).toNat) ∧ ((0xFC : Byte).toNat % 4 = 0 ∧ 0xAC ≤ (0xFC : Byte).toNat) ∧
    ((0x0C : Byte).toNat % 4 = 0 ∧ (0x0C : Byte).toNat < 0x10) ∧ ((0x40 : Byte).toNat % 4 = 0 ∧ 0x40 ≤ (0x40 : Byte).toNat) := by
  decide
theorem witness_HostReachesTheEngineByCommandsOnly :
    (∀ off bytes, (Access.write 0x1C 4 0x02000000) = .read off bytes → off ≠ 0x64) ∧
    (∀ v, (Access.write 0x1C 4 0x02000000) = .write 0x18 4 v → v.getLsbD 0 = false) :=
  ⟨fun _ _ h => (by cases h), fun _ h => (by cases h)⟩
theorem witness_ResetsAbandonEverything :
    { inFlight 0x10000000 with events := [.rstAssert] }.events = .rstAssert :: [] ∧
    (inFlight 0x10000000).rstAsserted = false ∧ (0x00000001 : Word).getLsbD 0 = true := by decide +kernel
/-- The registers the comparison of R122 leaves out are the four named; the others are in it. -/
theorem witness_ClearDiffersFromResetInTheHostFiles : Reg.cmd ≠ .status ∧ Reg.cmd ≠ .flags ∧ Reg.cmd ≠ .ie ∧
    (∀ i, Reg.cmd ≠ .arg i) ∧ (0 : Nat) ≠ 10 ∧ (1 : Nat) ≠ 0 := by decide

end Sys2Proof.Tests
end

section
/-! Reads and writes of STATUS, OUT_DATA and OUT_LEVEL over the bus (R23, R29, R49): the port's admitted
accesses by register, then the two statements. -/

namespace Sys2Proof.Proofs

open Sys2Proof.Machine Sys2Proof.Laws

/-! ## The port, by register (R46, R48, R50) -/

section Port

variable {s : State} {off : Byte} {r : Reg}

/-- R48, R49: an admitted read gives the register's value and leaves what `afterRead` leaves. -/
theorem busAccess_read (hs : s.rstAsserted = false) (ho : off.toNat % 4 = 0) (hr : Reg.atOffset off = r) :
    busAccess (.read off 4) s = { afterRead r s with resp := some ⟨true, some (regValue r s)⟩ } := by
  simp [busAccess, admitted, hs, ho, hr]

/-- R48, R55: a read of any register but OUT_DATA writes the response alone. -/
theorem busAccess_read_pure (hs : s.rstAsserted = false) (ho : off.toNat % 4 = 0) (hr : Reg.atOffset off = r)
    (hp : r ≠ .outData) :
    busAccess (.read off 4) s = { s with resp := some ⟨true, some (regValue r s)⟩ } := by
  rw [busAccess_read hs ho hr, afterRead, if_neg hp]

/-- R50: an admitted write has the effect of its register's write, and an OK response. -/
theorem busAccess_write (hs : s.rstAsserted = false) (ho : off.toNat % 4 = 0) (hr : Reg.atOffset off = r)
    (v : Word) :
    busAccess (.write off 4 v) s = { writeReg r v s with resp := some ⟨true, none⟩ } := by
  simp [busAccess, admitted, hs, ho, hr]

end Port

/-! ## The derived bits of STATUS (R23, R111) -/

theorem treeSrc_bit_iff (t : TreeSource) : t.bit = true ↔ t = .loaded := by
  cases t <;> decide

/-- R111: irq is raised exactly by an enabled FLAGS bit, or by FAULT with FAULT_IE. -/
theorem irq_iff (s : State) : irq s = true ↔
    (s.flags.getLsbD 0 = true ∧ s.ie.getLsbD 0 = true) ∨
    (s.flags.getLsbD 1 = true ∧ s.ie.getLsbD 1 = true) ∨
    (s.flags.getLsbD 2 = true ∧ s.ie.getLsbD 2 = true) ∨ (s.fault = true ∧ s.ie.getLsbD 3 = true) := by
  simp only [irq, Bool.or_eq_true, Bool.and_eq_true, or_assoc]

theorem status_treeValid_iff (s : State) : (statusWord s).getLsbD 2 = true ↔ s.nodeCount ≠ 0 := by
  rw [status_treeValid, bne_iff_ne]

theorem status_codesValid_iff (s : State) :
    (statusWord s).getLsbD 3 = true ↔ ∃ b, (codeOf s b).valid = true := by
  rw [status_codesValid]
  exact codesValid_iff s

theorem status_treeLoaded_iff (s : State) : (statusWord s).getLsbD 4 = true ↔ s.treeSrc = .loaded := by
  rw [status_treeLoaded, treeSrc_bit_iff]

theorem status_histEmpty_iff (s : State) : (statusWord s).getLsbD 5 = true ↔ ∀ b, freqAt s b = 0 := by
  rw [status_histEmpty, beq_iff_eq]
  exact histDistinct_eq_zero s

theorem status_outEmpty_iff (s : State) : (statusWord s).getLsbD 8 = true ↔ s.outq = [] := by
  rw [status_outEmpty, List.isEmpty_iff]

theorem status_outFull_iff (s : State) : (statusWord s).getLsbD 9 = true ↔ s.outq.length = 64 := by
  rw [status_outFull, beq_iff_eq]

/-- R23's reset value: OUT_EMPTY and HIST_EMPTY are set and nothing else. -/
theorem statusWord_reset : statusWord State.reset = 0x00000120 := by
  decide +kernel

/-- Settles O50: the word read is `statusWord`, whose bits are known one by one. -/
theorem statusBitsAreComputed : Obligations.StatusBitsAreComputed := by
  refine ⟨fun s hs => ⟨statusWord s, busAccess_read_pure hs rfl rfl (by decide), status_busy s, status_fault s,
    status_treeValid_iff s, status_codesValid_iff s, status_treeLoaded_iff s, status_histEmpty_iff s,
    status_decActive s, status_decDone s, status_outEmpty_iff s, status_outFull_iff s,
    by rw [status_irq, irq_iff], status_zero s, busAccess_write hs rfl rfl⟩, ?_⟩
  rw [busAccess_read_pure rfl rfl (r := .status) rfl (by decide), regValue, statusWord_reset]

/-! ## The output queue (R29, R49) -/

theorem popOutq_cons {s : State} {b : Byte} {q : List Byte} (h : s.outq = b :: q) :
    popOutq s = { s with outq := q } := by
  simp only [popOutq, h]

theorem popOutq_nil {s : State} (h : s.outq = []) : popOutq s = { s with flags := withRdEmpty s.flags } := by
  simp only [popOutq, h]

/-- R29: with a byte queued, OUT_DATA reads VALID (bit 8) and the oldest byte. -/
theorem outDataWord_cons {s : State} {b : Byte} {q : List Byte} (h : s.outq = b :: q) :
    outDataWord s = 0x100 ||| b.setWidth 32 := by
  simp only [outDataWord, h, BitVec.append_def, BitVec.setWidth'_eq]
  rfl

theorem outDataWord_nil {s : State} (h : s.outq = []) : outDataWord s = 0 := by
  simp only [outDataWord, h]

/-- R29: the seven bits of OUT_LEVEL hold every level up to the queue's depth. -/
theorem outLevel_toNat {s : State} (h : s.outq.length ≤ 64) : (regValue .outLevel s).toNat = s.outq.length := by
  have hlt : s.outq.length < 2 ^ 7 := by omega
  rw [regValue, toNat_append_add, BitVec.toNat_ofNat, BitVec.toNat_ofNat, Nat.mod_eq_of_lt hlt,
    Nat.zero_mod, Nat.zero_mul, Nat.zero_add]

/-- A read of OUT_DATA pops the queue and gives `outDataWord` of the state before. -/
theorem busAccess_read_outData {s : State} (hs : s.rstAsserted = false) :
    busAccess (.read 0x64 4) s = { popOutq s with resp := some ⟨true, some (outDataWord s)⟩ } := by
  rw [busAccess_read hs rfl (r := .outData) rfl, afterRead, if_pos rfl, regValue]

/-- Settles O51: by the two cases of the queue; the level fits its seven bits up to 64 bytes. -/
theorem outDataPopsTheQueue : Obligations.OutDataPopsTheQueue := by
  intro s hs hlen
  refine ⟨fun b q h => ?_, fun h => ?_, ⟨regValue .outLevel s, ?_, outLevel_toNat hlen⟩, fun v => ⟨?_, ?_⟩⟩
  · rw [busAccess_read_outData hs, popOutq_cons h, outDataWord_cons h]
  · rw [busAccess_read_outData hs, popOutq_nil h, outDataWord_nil h, withRdEmpty]
  · exact busAccess_read_pure hs rfl rfl (by decide)
  · exact busAccess_write hs rfl rfl v
  · exact busAccess_write hs rfl rfl v

end Sys2Proof.Proofs
end

section
/-! Accesses the port refuses (R46, R110, R120): an error response and no effect, then the statement about the
accesses that are not admitted. -/

namespace Sys2Proof.Proofs

open Sys2Proof.Machine

section Refused

variable {s : State} {off : Byte} {bytes : Nat}

theorem admitted_eq_false_iff : admitted off bytes = false ↔ bytes ≠ 4 ∨ off.toNat % 4 ≠ 0 := by
  rw [admitted, Bool.and_eq_false_iff, beq_eq_false_iff_ne, beq_eq_false_iff_ne]

/-- The port's guard is false for an access that is not admitted (R46) and for every access in reset (R120). -/
theorem accessGuard_eq_false (h : admitted off bytes = false ∨ s.rstAsserted = true) :
    (admitted off bytes && !s.rstAsserted) = false := by
  rwa [Bool.and_eq_false_iff, Bool.not_eq_false']

/-- R46, R120: a refused read writes the response alone, so a refused read of OUT_DATA does not pop. -/
theorem busAccess_read_refused (h : admitted off bytes = false ∨ s.rstAsserted = true) :
    busAccess (.read off bytes) s = { s with resp := some ⟨false, some 0⟩ } := by
  simp only [busAccess, accessGuard_eq_false h, Bool.false_eq_true, if_false]

/-- R46, R120: a refused write writes the response alone. -/
theorem busAccess_write_refused (h : admitted off bytes = false ∨ s.rstAsserted = true) (v : Word) :
    busAccess (.write off bytes v) s = { s with resp := some ⟨false, none⟩ } := by
  simp only [busAccess, accessGuard_eq_false h, Bool.false_eq_true, if_false]

end Refused

/-- Settles O54: such an access is not admitted, and the port refuses it. -/
theorem inadmissibleAccessChangesNothing : Obligations.InadmissibleAccessChangesNothing := by
  intro s off bytes h
  have hadm : admitted off bytes = false := admitted_eq_false_iff.mpr h
  exact ⟨busAccess_read_refused (.inl hadm), busAccess_write_refused (.inl hadm)⟩

end Sys2Proof.Proofs
end

section
/-! Control commands: the issue or drop of a command word (R69) and NOP (R76), then their two statements. -/

namespace Sys2Proof.Proofs

open Sys2Proof.Machine Sys2Proof.Laws

/-! ## The write to CMD (R69) -/

section Issue

variable {s : State} {v : Word}

theorem runsInFault_eq_false_iff : runsInFault v = false ↔ v ≠ 0x00000000 ∧ v ≠ 0x01000000 := by
  rw [runsInFault, Bool.or_eq_false_iff, beq_eq_false_iff_ne, beq_eq_false_iff_ne]

/-- R69: BUSY drops every word, FAULT every word but NOP's and CLEAR's; a drop sets CMD_DROPPED alone. -/
theorem issue_eq_dropped (h : s.busy = true ∨ s.fault = true ∧ v ≠ 0x00000000 ∧ v ≠ 0x01000000) :
    issue v s = { s with flags := withCmdDropped s.flags } := by
  rw [← runsInFault_eq_false_iff] at h
  obtain ⟨hb, hf, -⟩ | ⟨-, heq⟩ := issue_cases v s
  · obtain hb' | ⟨hf', hr⟩ := h
    · exact absurd (hb.symm.trans hb') Bool.false_ne_true
    · exact absurd (hr.symm.trans (hf hf')) Bool.false_ne_true
  · exact heq

/-- R69: any other word is latched with the arguments. -/
theorem issue_eq_latchCommand (h : ¬ (s.busy = true ∨ s.fault = true ∧ v ≠ 0x00000000 ∧ v ≠ 0x01000000)) :
    issue v s = latchCommand v s := by
  rw [← runsInFault_eq_false_iff] at h
  obtain ⟨-, -, heq⟩ | ⟨hdrop, -⟩ := issue_cases v s
  · exact heq
  · exact absurd hdrop h

end Issue

/-- FLAGS, the latch, BUSY and the port's response are no engine state. -/
theorem sameEngine_hostUpdate (s : State) (f : BitVec 3) (c : Word) (a : Vector Word 8) (b : Bool)
    (r : Option Response) :
    SameEngine s { s with flags := f, lCmd := c, lArg := a, busy := b, resp := r } :=
  ⟨⟨rfl, rfl, rfl⟩, ⟨rfl, rfl⟩, ⟨rfl, rfl, rfl, rfl, rfl⟩, ⟨rfl, rfl, rfl⟩, ⟨rfl, rfl, rfl⟩,
    ⟨rfl, rfl, rfl, rfl, rfl⟩, rfl, rfl⟩

/-- Settles O9: CMD's write is `issue`, which drops the word or latches it. -/
theorem commandWriteIssuesOrDrops : Obligations.CommandWriteIssuesOrDrops := by
  intro s v hs dropped t
  have ht : t = { issue v s with resp := some ⟨true, none⟩ } := busAccess_write hs rfl rfl v
  by_cases hd : dropped
  · rw [ht, issue_eq_dropped hd]
    exact ⟨sameEngine_hostUpdate .., rfl, rfl, rfl, fun _ => ⟨rfl, rfl, rfl, rfl⟩, fun hn => absurd hd hn⟩
  · rw [ht, issue_eq_latchCommand hd]
    exact ⟨sameEngine_hostUpdate .., rfl, rfl, rfl, fun h => absurd h hd, fun _ => ⟨rfl, rfl, rfl, fun _ => rfl⟩⟩

/-! ## NOP (R76) -/

/-- R71: a commit of the state itself, with no output, changes no engine state. -/
theorem sameEngine_commitOk_nil (s : State) : SameEngine s (commitOk s []) := by
  rw [commitOk, List.append_nil]
  exact sameEngine_hostUpdate ..

/-- R69: NOP's word is dropped by BUSY alone. -/
theorem issue_nop {s : State} (hb : s.busy = false) : issue 0x00000000 s = latchCommand 0x00000000 s :=
  issue_eq_latchCommand (by simp [hb])

/-- R63: the only row with opcode 0x00 is NOP's, which fixes every bit of the word. -/
theorem opcodeMap_op_zero :
    ∀ r ∈ opcodeMap, fieldOp r.pattern = 0x00 → r.mask = 0xFFFFFFFF ∧ r.pattern = wordN 0x00 := by
  decide

/-- R65: a word with opcode 0x00 that decodes is NOP's. -/
theorem eq_zero_of_decode_of_fieldOp {w : Word} {i : Instr} (hi : decode w = .instr i)
    (hop : fieldOp w = 0x00) : w = 0x00000000 := by
  obtain ⟨r, hr, hadm, -⟩ := row_of_decode hi
  obtain ⟨hmask, hpat⟩ := opcodeMap_op_zero r hr ((admits_op hr hadm).symm.trans hop)
  rw [Row.admits, beq_iff_eq, hmask, hpat] at hadm
  exact (wordN_of hadm).symm

/-- R76's worked example: NOP leaves STATUS at its reset value, as IE masks the CMD_DONE it raises. -/
theorem statusWord_nop_reset : statusWord (commitOk State.reset []) = 0x00000120 := by
  decide +kernel

/-- Settles O15: NOP commits the state it found, and the other words of its opcode are in no row. -/
theorem nopOnlyCompletes : Obligations.NopOnlyCompletes := by
  have hexec (s : State) := exec_ok_nil (i := .nop) (s := s) rfl
  refine ⟨rfl, fun s => ?_, fun s hb => ?_, fun w hop hw => ?_, ?_⟩
  · obtain ⟨hfault, hengine⟩ := sameEngine_commitOk_nil s
    exact ⟨commitOk s [], (hexec s).1, (hexec s).2, hfault, hengine⟩
  · rw [issue_nop hb]
    exact ⟨rfl, rfl⟩
  · cases hdec : decode w with
    | instr i => exact absurd (eq_zero_of_decode_of_fieldOp hdec hop) hw
    | illegal why => exact ⟨why, rfl⟩
  · exact ⟨commitOk State.reset [], (hexec State.reset).1, statusWord_nop_reset, rfl⟩

end Sys2Proof.Proofs
end

section
/-! Histogram commands (R79 to R82): the state a count leaves and the frame the four commands share, then their
four statements. -/

namespace Sys2Proof.Proofs

open Sys2Proof.Machine Sys2Proof.Laws

/-- R61: a word of format B is its opcode, 24 bits up, plus its byte. -/
theorem wordB_toNat (op b : Byte) : (wordB op b).toNat = op.toNat * 2 ^ 24 + b.toNat := by
  rw [wordB, toNat_append_add, toNat_append_add, BitVec.toNat_ofNat]
  omega

/-- The frame of the histogram commands: a commit that writes FREQ, HIST_TOTAL and RES alone, with no output. -/
theorem commitOk_histogram_frame (s : State) (f : Vector Word 256) (n : Word) (r : Vector Word 9) :
    let t := commitOk { s with freq := f, histTotal := n, res := r } []
    KeepsFault s t ∧ KeepsTree s t ∧ KeepsCodes s t ∧ KeepsEncoder s t ∧ KeepsDecoder s t ∧
    t.res = r ∧ t.outq = s.outq :=
  ⟨⟨rfl, rfl, rfl⟩, ⟨rfl, rfl, rfl, rfl, rfl⟩, ⟨rfl, rfl, rfl⟩, ⟨rfl, rfl, rfl⟩, ⟨rfl, rfl, rfl, rfl, rfl⟩,
    rfl, List.append_nil _⟩

/-! ## HIST_CLEAR (R79) -/

/-- Settles O17: FREQ is all zeros after the commit, and HIST_DISTINCT and HIST_EMPTY follow from that. -/
theorem histClearEmptiesTheHistogram : Obligations.HistClearEmptiesTheHistogram := by
  refine ⟨rfl, fun s => ?_⟩
  obtain ⟨hexec, hdone⟩ := exec_ok_nil (i := .histClear) (s := s) rfl
  have hzero (b : Byte) : (Vector.replicate 256 (0 : Word))[b.toNat] = 0 := Vector.getElem_replicate _
  exact ⟨_, hexec, hdone, hzero, rfl, (histDistinct_eq_zero _).mpr hzero, (status_histEmpty_iff _).mpr hzero,
    commitOk_histogram_frame s _ _ s.res⟩

/-! ## A count (R80, R81) -/

/-- FREQ[b] <- FREQ[b] + n; HIST_TOTAL <- HIST_TOTAL + n: what `addCount` leaves when it does not overflow. -/
def withCount (b : Byte) (n : Word) (s : State) : State :=
  { s with freq := s.freq.set b.toNat (freqAt s b + n), histTotal := s.histTotal + n }

section Count

variable {b : Byte} {n : Word} {s : State}

theorem addCount_eq_fault (h : s.histTotal.toNat + n.toNat > 2 ^ 32 - 1) :
    addCount b n s = .fault .countOverflow :=
  if_pos h

theorem addCount_eq_ok (h : s.histTotal.toNat + n.toNat ≤ 2 ^ 32 - 1) :
    addCount b n s = .ok (withCount b n s) [] :=
  if_neg (Nat.not_lt.mpr h)

theorem freqAt_withCount_same : freqAt (withCount b n s) b = freqAt s b + n :=
  Vector.getElem_set_self _

theorem freqAt_withCount_other {c : Byte} (hc : c ≠ b) : freqAt (withCount b n s) c = freqAt s c :=
  Vector.getElem_set_ne b.isLt c.isLt fun h => hc (BitVec.eq_of_toNat_eq h.symm)

theorem withCount_histTotal_toNat (h : s.histTotal.toNat + n.toNat ≤ 2 ^ 32 - 1) :
    (withCount b n s).histTotal.toNat = s.histTotal.toNat + n.toNat :=
  BitVec.toNat_add_of_lt (by omega)

/-- R80, corner cases: FREQ[b] is at most HIST_TOTAL (I1), so its sum does not wrap where HIST_TOTAL's does not. -/
theorem freqAt_withCount_toNat (hinv : HistInv s) (h : s.histTotal.toNat + n.toNat ≤ 2 ^ 32 - 1) :
    (freqAt (withCount b n s) b).toNat = (freqAt s b).toNat + n.toNat := by
  have hle := hinv.freq_le b
  rw [freqAt_withCount_same]
  exact BitVec.toNat_add_of_lt (by omega)

end Count

/-- STATUS.HIST_EMPTY is 0 as soon as one entry is not 0 (R23). -/
theorem status_histEmpty_eq_false {t : State} {b : Byte} (h : 0 < (freqAt t b).toNat) :
    (statusWord t).getLsbD 5 = false := by
  refine Bool.eq_false_iff.mpr fun hempty => h.ne' ?_
  rw [(status_histEmpty_iff t).mp hempty b]
  rfl

/-- Settles O18: HIST_BYTE counts 1, which overflows exactly at HIST_TOTAL = 2^32 - 1; the entry counted is then
not 0. -/
theorem histByteCountsOne : Obligations.HistByteCountsOne := by
  have hone : (1 : Word).toNat = 1 := rfl
  refine ⟨wordB_toNat 0x03, fun b s hs => ?_, fun b s hs => ?_⟩
  · have hgt : s.histTotal.toNat + (1 : Word).toNat > 2 ^ 32 - 1 := by omega
    obtain ⟨hexec, hfault⟩ := exec_fault (i := .histByte b) (addCount_eq_fault hgt)
    exact ⟨_, hexec, hfault, rfl⟩
  · have hle : s.histTotal.toNat + (1 : Word).toNat ≤ 2 ^ 32 - 1 := by have := s.histTotal.isLt; omega
    obtain ⟨hexec, hdone⟩ := exec_ok_nil (i := .histByte b) (addCount_eq_ok hle)
    refine ⟨_, hexec, hdone, freqAt_withCount_same, fun c hc => freqAt_withCount_other hc,
      withCount_histTotal_toNat (b := b) hle, fun hinv => ?_, commitOk_histogram_frame s _ _ s.res⟩
    have hfreq := freqAt_withCount_toNat (b := b) hinv hle
    have hpos : 0 < (freqAt (withCount b 1 s) b).toNat := hfreq ▸ Nat.succ_pos _
    exact ⟨hfreq, status_histEmpty_eq_false hpos⟩

/-- Settles O19: HIST_ACC counts `countOperand`, which is L_ARG0. -/
theorem histAccAddsTheLatchedCount : Obligations.HistAccAddsTheLatchedCount := by
  refine ⟨wordB_toNat 0x04, fun b s hgt => ?_, fun b s hle => ?_⟩
  · obtain ⟨hexec, hfault⟩ := exec_fault (i := .histAcc b) (addCount_eq_fault hgt)
    exact ⟨_, hexec, hfault, rfl⟩
  · obtain ⟨hexec, hdone⟩ := exec_ok_nil (i := .histAcc b) (addCount_eq_ok hle)
    exact ⟨_, hexec, hdone, freqAt_withCount_same, fun c hc => freqAt_withCount_other hc,
      withCount_histTotal_toNat (b := b) hle, fun hinv => freqAt_withCount_toNat hinv hle,
      commitOk_histogram_frame s _ _ s.res⟩

/-! ## RD_FREQ (R82) -/

/-- R82: with one result given, the other eight are 0. -/
theorem setResults_res_other (r : Word) (s : State) (i : Fin 9) (hi : i.val ≠ 0) :
    (setResults r 0 0 s).res[i] = 0 := by
  have hres : (setResults r 0 0 s).res = (Vector.replicate 9 0).set 0 r := rfl
  rw [hres]
  exact (Vector.getElem_set_ne _ _ hi.symm).trans (Vector.getElem_replicate _)

/-- Settles O20: the commit is of `setResults`, which writes RES alone. -/
theorem rdFreqReadsOneEntry : Obligations.RdFreqReadsOneEntry := by
  refine ⟨wordB_toNat 0x05, fun b s => ?_⟩
  obtain ⟨hexec, hdone⟩ := exec_ok_nil (i := .rdFreq b) (s := s) rfl
  obtain ⟨hfault, htree, hcodes, henc, hdec, -, houtq⟩ :=
    commitOk_histogram_frame s s.freq s.histTotal (setResults (freqAt s b) 0 0 s).res
  exact ⟨_, hexec, hdone, rfl, setResults_res_other _ s, hfault, ⟨rfl, rfl⟩, htree, hcodes, henc, hdec, houtq⟩

end Sys2Proof.Proofs
end

section
/-! Tree commands: TREE_CLEAR (R88) and RD_NODE (R90). -/

namespace Sys2Proof.Proofs

open Sys2Proof.Machine Sys2Proof.Laws

/-! ## TREE_CLEAR (R88) -/

section Cleared

variable {s t : State}

/-- R95: a symbol with no valid code cannot be encoded. -/
theorem encodeByte_eq_fault {b : Byte} (h : (codeOf s b).valid = false) :
    encodeByte b s = .fault .alphabetMismatch :=
  if_neg (Bool.eq_false_iff.mp h)

/-- R83: no entry of the code table ClearCodes() writes is valid. -/
theorem valid_eq_false_of_codesCleared (h : CodesCleared t) (b : Byte) : (codeOf t b).valid = false := by
  rw [h.code b]

/-- R23: with no code, STATUS.CODES_VALID is 0. -/
theorem status_codesValid_eq_false (h : CodesCleared t) : (statusWord t).getLsbD 3 = false := by
  refine Bool.eq_false_iff.mpr fun hset => ?_
  obtain ⟨b, hb⟩ := (status_codesValid_iff t).mp hset
  exact absurd hb (Bool.eq_false_iff.mp (valid_eq_false_of_codesCleared h b))

/-- R23: with no tree, TREE_VALID, CODES_VALID and TREE_LOADED are 0. -/
theorem status_of_treeCleared (h : TreeCleared t) :
    (statusWord t).getLsbD 2 = false ∧ (statusWord t).getLsbD 3 = false ∧ (statusWord t).getLsbD 4 = false := by
  refine ⟨?_, status_codesValid_eq_false h.codes, ?_⟩
  · rw [status_treeValid, h.nodeCount, bne_self_eq_false]
  · rw [status_treeLoaded, h.treeSrc, TreeSource.bit]

/-- R88: the commit of `clearTree` leaves no tree and no code, and a cleared decoder. -/
theorem treeCleared_commitOk_clearTree (s : State) : TreeCleared (commitOk (clearTree s) []) := by
  have hcode (b : Byte) : (Vector.replicate 256 CodeEntry.invalid)[b.toNat] = ⟨false, []⟩ :=
    Vector.getElem_replicate _
  exact ⟨rfl, rfl, rfl, rfl, ⟨hcode, rfl, rfl⟩, ⟨rfl, rfl, rfl, rfl, rfl⟩⟩

/-- R88: what the commit of `clearTree` keeps. -/
theorem commitOk_clearTree_frame (s : State) :
    let t := commitOk (clearTree s) []
    KeepsFault s t ∧ KeepsHistogram s t ∧ KeepsEncoder s t ∧ t.res = s.res ∧ t.outq = s.outq :=
  ⟨⟨rfl, rfl, rfl⟩, ⟨rfl, rfl⟩, ⟨rfl, rfl, rfl⟩, rfl, List.append_nil _⟩

end Cleared

/-- Settles O27: the commit of `clearTree` has no tree and no code, which fixes the STATUS bits and makes every
ENC_BYTE after it fault. -/
theorem treeClearDiscardsTree : Obligations.TreeClearDiscardsTree := by
  refine ⟨rfl, fun s => ?_⟩
  obtain ⟨hexec, hdone⟩ := exec_ok_nil (i := .treeClear) (s := s) rfl
  have hclear : TreeCleared (commitOk (clearTree s) []) := treeCleared_commitOk_clearTree s
  obtain ⟨hvalid, hcodes, hloaded⟩ := status_of_treeCleared hclear
  obtain ⟨hfault, hhist, henc, hres, houtq⟩ := commitOk_clearTree_frame s
  refine ⟨_, hexec, hdone, hclear, hvalid, hcodes, hloaded, hfault, hhist, henc, hres, houtq, fun b => ?_⟩
  exact ⟨_, exec_fault (i := .encByte b)
    (encodeByte_eq_fault (valid_eq_false_of_codesCleared hclear.codes b))⟩

/-! ## RD_NODE (R90) -/

/-- R61: a word of format I is its opcode, 24 bits up, plus its index. -/
theorem wordI_toNat (op : Byte) (i : Index) : (wordI op i).toNat = op.toNat * 2 ^ 24 + i.toNat := by
  rw [wordI, toNat_append_add, toNat_append_add, BitVec.toNat_ofNat]
  omega

/-- R90's r0 as a number: bit 31, LEAF at bit 30, SYNTH at bit 29, SYM in bits 7:0. -/
theorem headWord_toNat (e : NodeEntry) :
    e.headWord.toNat = 2 ^ 31 + e.leaf.toNat * 2 ^ 30 + e.synth.toNat * 2 ^ 29 + e.sym.toNat := by
  simp only [NodeEntry.headWord, toNat_append_add, BitVec.toNat_ofBool, BitVec.toNat_ofNat]
  omega

/-- R90's r2 as a number: RIGHT in bits 24:16, LEFT in bits 8:0. -/
theorem linkWord_toNat (e : NodeEntry) : e.linkWord.toNat = e.right.toNat * 2 ^ 16 + e.left.toNat := by
  simp only [NodeEntry.linkWord, toNat_append_add, BitVec.toNat_ofNat]
  omega

section ReadNode

variable {i : Index} {s : State}

theorem readNode_eq_fields (h : i.toNat < s.nodeCount.toNat) :
    readNode i s =
      .ok (setResults (nodeAt s.node i).headWord (nodeAt s.node i).freq (nodeAt s.node i).linkWord s) [] :=
  if_pos h

theorem readNode_eq_zeros (h : s.nodeCount.toNat ≤ i.toNat) : readNode i s = .ok (setResults 0 0 0 s) [] :=
  if_neg (Nat.not_lt.mpr h)

/-- R90: RES3 to RES8 are 0, whatever the three results are. -/
theorem setResults_res_rest (r0 r1 r2 : Word) (s : State) (k : Fin 9) (hk : 3 ≤ k.val) :
    (setResults r0 r1 r2 s).res[k] = 0 := by
  obtain ⟨k, hlt⟩ := k
  obtain ⟨j, rfl⟩ := Nat.exists_eq_add_of_le hk
  have hj : j < 6 := by omega
  interval_cases j <;> rfl

/-- R90: either way RD_NODE completes with three results, zeros after them, and nothing else changed. -/
theorem exec_rdNode_of_results {r0 r1 r2 : Word} (h : readNode i s = .ok (setResults r0 r1 r2 s) []) :
    ∃ t, exec (.rdNode i) s = .next t ∧ Completed s t ∧ (t.res[0] = r0 ∧ t.res[1] = r1 ∧ t.res[2] = r2) ∧
      (∀ k : Fin 9, 3 ≤ k.val → t.res[k] = 0) ∧ KeepsFault s t ∧
      KeepsHistogram s t ∧ KeepsTree s t ∧ KeepsCodes s t ∧ KeepsEncoder s t ∧ KeepsDecoder s t ∧
      t.outq = s.outq := by
  obtain ⟨hexec, hdone⟩ := exec_ok_nil (i := .rdNode i) h
  obtain ⟨hfault, htree, hcodes, henc, hdec, -, houtq⟩ :=
    commitOk_histogram_frame s s.freq s.histTotal (setResults r0 r1 r2 s).res
  exact ⟨_, hexec, hdone, ⟨rfl, rfl, rfl⟩, setResults_res_rest r0 r1 r2 s, hfault, ⟨rfl, rfl⟩, htree, hcodes,
    henc, hdec, houtq⟩

end ReadNode

/-- Settles O30: by whether the index is below NODE_COUNT; the words of an entry are sums of its fields. -/
theorem rdNodeReadsOneEntry : Obligations.RdNodeReadsOneEntry := by
  refine ⟨wordI_toNat 0x13, fun i s => ?_⟩
  obtain hlt | hge := Nat.lt_or_ge i.toNat s.nodeCount.toNat
  · obtain ⟨t, hexec, hdone, ⟨h0, h1, h2⟩, hkeep⟩ := exec_rdNode_of_results (readNode_eq_fields hlt)
    exact ⟨t, hexec, hdone, fun _ => ⟨h0 ▸ headWord_toNat _, h1, h2 ▸ linkWord_toNat _⟩,
      fun hge => absurd hlt (Nat.not_lt.mpr hge), hkeep⟩
  · obtain ⟨t, hexec, hdone, hzero, hkeep⟩ := exec_rdNode_of_results (readNode_eq_zeros hge)
    exact ⟨t, hexec, hdone, fun hlt => absurd hlt (Nat.not_lt.mpr hge), fun _ => hzero, hkeep⟩

end Sys2Proof.Proofs
end

section
/-! Code table commands: RD_CODE (R93). -/

namespace Sys2Proof.Proofs

open Sys2Proof.Machine Sys2Proof.Laws

/-- R93's r0 as a number: VALID in bit 31, LEN in bits 7:0. -/
theorem codeHeadWord_toNat {e : CodeEntry} (h : e.bits.length ≤ 255) :
    e.headWord.toNat = e.valid.toNat * 2 ^ 31 + e.bits.length := by
  simp only [CodeEntry.headWord, CodeEntry.len, toNat_append_add, BitVec.toNat_ofBool, BitVec.toNat_ofNat]
  omega

/-- R93: RES1 to RES8 are the eight words of the code. -/
theorem codeResults_succ (e : CodeEntry) : ∀ k : Fin 8, (codeResults e)[k.val + 1] = codeWord e.bits k.val
  | 0 | 1 | 2 | 3 | 4 | 5 | 6 | 7 => rfl

/-- R38: an entry that is not valid is empty. -/
theorem codeOf_eq_invalid {s : State} {b : Byte} (hinv : CodeInv s) (hb : (codeOf s b).valid = false) :
    codeOf s b = .invalid :=
  congrArg₂ CodeEntry.mk hb (hinv.invalid_empty b hb)

/-- R93: an invalid entry reads RES0 = 0 and RES1 to RES8 = 0. -/
theorem codeResults_invalid (i : Fin 9) : (codeResults .invalid)[i] = 0 := by
  have hzero : codeResults .invalid = Vector.replicate 9 0 := by decide
  rw [hzero]
  exact Vector.getElem_replicate _

/-- Settles O34: RD_CODE commits `codeResults` of the entry, whose words are r0 and the words of the code (R53). -/
theorem rdCodeReadsOneEntry : Obligations.RdCodeReadsOneEntry := by
  refine ⟨wordB_toNat 0x21, fun b s hlen => ?_⟩
  obtain ⟨hexec, hdone⟩ := exec_ok_nil (i := .rdCode b) (s := s) rfl
  obtain ⟨hfault, htree, hcodes, henc, hdec, -, houtq⟩ :=
    commitOk_histogram_frame s s.freq s.histTotal (codeResults (codeOf s b))
  have hbits (k : Fin 8) (j : Fin 32) : ((codeResults (codeOf s b))[k.val + 1]).getLsbD (31 - j.val) =
      (codeOf s b).bits.getD (32 * k.val + j.val) false := by
    rw [codeResults_succ, codeWord_getLsbD _ _ _ j.isLt]
  have hzero (hinv : CodeInv s) (hb : (codeOf s b).valid = false) (i : Fin 9) :
      (codeResults (codeOf s b))[i] = 0 := by
    rw [codeOf_eq_invalid hinv hb, codeResults_invalid]
  exact ⟨_, hexec, hdone, codeHeadWord_toNat hlen, hbits, hzero, hfault, ⟨rfl, rfl⟩, htree, hcodes, henc, hdec,
    houtq⟩

end Sys2Proof.Proofs
end

section
/-! Encoder commands (R94 to R96): the pending bits as a number, the frame the three commands share, then their
three statements. -/

namespace Sys2Proof.Proofs

open Sys2Proof.Machine Sys2Proof.Laws

/-! ## The pending bits as a number (R41) -/

/-- The low n bits of x, the highest first, are x modulo 2^n. -/
theorem value_lowBits (x n : Nat) : value ((List.range n).map fun j => x.testBit (n - 1 - j)) = x % 2 ^ n := by
  induction n with
  | zero => exact (Nat.mod_one x).symm
  | succ n ih =>
    have htail : (List.range n).map ((fun j => x.testBit (n + 1 - 1 - j)) ∘ Nat.succ) =
        (List.range n).map fun j => x.testBit (n - 1 - j) :=
      List.map_congr_left fun j _ => congrArg x.testBit (by omega)
    rw [List.range_succ_eq_map, List.map_cons, List.map_map, htail, value_cons, ih, List.length_map,
      List.length_range, Nat.mod_pow_succ, ← Nat.toNat_testBit, Nat.mul_comm, Nat.add_comm]
    rfl

/-- R41: where ENC_ACC holds the pending bits alone, it is their value. -/
theorem value_pendingBits {s : State} (h : EncInv s) : value (pendingBits s) = s.encAcc.toNat :=
  (value_lowBits _ _).trans (Nat.mod_eq_of_lt h)

theorem value_replicate_false (n : Nat) : value (List.replicate n false) = 0 := by
  induction n with
  | zero => rfl
  | succ n ih => rw [List.replicate_succ, value_cons, ih, Bool.toNat_false, Nat.zero_mul]

/-- The frame of the encoder commands: a commit that writes the encoder's state alone, with any output. -/
theorem commitOk_encoder_frame (s : State) (acc : BitVec 7) (n : BitVec 3) (cnt : Long) (out : List Byte) :
    let t := commitOk { s with encAcc := acc, encNpend := n, encBitcnt := cnt } out
    KeepsFault s t ∧ KeepsHistogram s t ∧ KeepsTree s t ∧ KeepsCodes s t ∧ KeepsDecoder s t ∧ t.res = s.res :=
  ⟨⟨rfl, rfl, rfl⟩, ⟨rfl, rfl⟩, ⟨rfl, rfl, rfl, rfl, rfl⟩, ⟨rfl, rfl, rfl⟩, ⟨rfl, rfl, rfl, rfl, rfl⟩, rfl⟩

/-! ## ENC_START (R94) -/

/-- Settles O36: ENC_START commits zeros in the encoder's state, with no output. -/
theorem encStartBeginsAPayload : Obligations.EncStartBeginsAPayload := by
  refine ⟨rfl, fun s => ?_⟩
  obtain ⟨hexec, hdone⟩ := exec_ok_nil (i := .encStart) (s := s) rfl
  obtain ⟨hfault, hhist, htree, hcodes, hdec, hres⟩ := commitOk_encoder_frame s 0 0 0 []
  exact ⟨_, hexec, hdone, rfl, rfl, rfl, hfault, hhist, htree, hcodes, hdec, hres, List.append_nil _⟩

/-! ## ENC_BYTE (R95) -/

/-- R95's T: the pending bits, then the code of b. -/
def bitsWithCode (b : Byte) (s : State) : List Bool := pendingBits s ++ (codeOf s b).bits

/-- What an accepted ENC_BYTE b leaves but for OUTQ: the bits of T after its whole bytes pending, LEN counted. -/
def withCodeAppended (b : Byte) (s : State) : State :=
  setPending (leftover (bitsWithCode b s))
    { s with encBitcnt := s.encBitcnt + BitVec.ofNat 64 (codeOf s b).bits.length }

section EncodeByte

variable {b : Byte} {s : State}

theorem encodeByte_eq_ok (h : (codeOf s b).valid = true) :
    encodeByte b s = .ok (withCodeAppended b s) (wholeBytes (bitsWithCode b s)) :=
  if_pos h

theorem length_wholeBytes_bitsWithCode :
    (wholeBytes (bitsWithCode b s)).length = (s.encNpend.toNat + (codeOf s b).bits.length) / 8 := by
  rw [length_wholeBytes, bitsWithCode, List.length_append, length_pendingBits]

theorem pendingBits_withCodeAppended : pendingBits (withCodeAppended b s) = leftover (bitsWithCode b s) :=
  pendingBits_setPending _ _ (length_leftover_lt _)

theorem encInv_withCodeAppended : EncInv (withCodeAppended b s) :=
  setPending_enc _ (length_leftover_lt _)

end EncodeByte

/-- Settles O37: T is its whole bytes and its leftover; the bytes are pushed when they fit, and the leftover is then
what `setPending` stores. -/
theorem encByteAppendsTheCode : Obligations.EncByteAppendsTheCode := by
  refine ⟨wordB_toNat 0x31, fun b s hvalid => ?_, fun b s hvalid hroom => ?_, fun b s hvalid hroom => ?_⟩
  · obtain ⟨hexec, hfault⟩ := exec_fault (i := .encByte b) (encodeByte_eq_fault hvalid)
    exact ⟨_, hexec, hfault, rfl⟩
  · rw [← length_wholeBytes_bitsWithCode] at hroom
    exact exec_hold (encodeByte_eq_ok hvalid) hroom
  · rw [← length_wholeBytes_bitsWithCode] at hroom
    obtain ⟨hexec, hdone⟩ := exec_ok (i := .encByte b) (encodeByte_eq_ok hvalid) hroom
    have hbits : (wholeBytes (bitsWithCode b s)).flatMap bitsOf ++ pendingBits (withCodeAppended b s) =
        bitsWithCode b s := by
      rw [pendingBits_withCodeAppended, unpack_wholeBytes]
    exact ⟨_, _, hexec, hdone, rfl, length_wholeBytes_bitsWithCode, hbits,
      (value_pendingBits encInv_withCodeAppended).symm, rfl, commitOk_encoder_frame ..⟩

/-! ## ENC_FLUSH (R96) -/

/-- R96: the pending bits, then zeros, in one byte. -/
def paddedByte (s : State) : Byte :=
  byteOf (pendingBits s ++ List.replicate (8 - s.encNpend.toNat) false)

section Flush

variable {s : State}

theorem flushEncoder_eq_unchanged (h : s.encNpend = 0) : flushEncoder s = .ok s [] :=
  if_pos h

theorem flushEncoder_eq_paddedByte (h : s.encNpend ≠ 0) :
    flushEncoder s = .ok { s with encAcc := 0, encNpend := 0 } [paddedByte s] := by
  rw [paddedByte, ← length_pendingBits]
  exact if_neg h

theorem bitsOf_paddedByte :
    bitsOf (paddedByte s) = pendingBits s ++ List.replicate (8 - s.encNpend.toNat) false := by
  refine bitsOf_byteOf _ ?_
  have hlt := length_pendingBits_lt s
  rw [length_pendingBits] at hlt
  rw [List.length_append, length_pendingBits, List.length_replicate]
  omega

/-- R96: the zeros shift the pending bits up, so the byte is ENC_ACC shifted left where it holds those bits alone. -/
theorem paddedByte_eq_shiftLeft (h : EncInv s) :
    paddedByte s = (s.encAcc.setWidth 8) <<< (8 - s.encNpend.toNat) := by
  have hvalue : value (pendingBits s ++ List.replicate (8 - s.encNpend.toNat) false) =
      s.encAcc.toNat * 2 ^ (8 - s.encNpend.toNat) := by
    rw [value_append, value_replicate_false, value_pendingBits h, List.length_replicate, Nat.add_zero]
  rw [paddedByte, byteOf, hvalue]
  apply BitVec.eq_of_toNat_eq
  rw [BitVec.toNat_ofNat, BitVec.toNat_shiftLeft, BitVec.toNat_setWidth, Nat.shiftLeft_eq, Nat.mod_mul_mod]

end Flush

/-- Settles O38: by whether bits are pending and, if so, whether OUTQ has room for the one byte. -/
theorem encFlushPadsToAByte : Obligations.EncFlushPadsToAByte := by
  refine ⟨rfl, fun s hnone => ?_, fun s hsome hfull => ?_, fun s hsome hroom => ?_⟩
  · obtain ⟨hexec, hdone⟩ := exec_ok_nil (i := .encFlush) (flushEncoder_eq_unchanged hnone)
    obtain ⟨hfault, hengine⟩ := sameEngine_commitOk_nil s
    exact ⟨_, hexec, hdone, hfault, hengine⟩
  · have hno : ¬ [paddedByte s].length ≤ outqRoom s := by
      rw [List.length_singleton, outqRoom, Config.outqDepth]
      omega
    exact exec_hold (flushEncoder_eq_paddedByte hsome) hno
  · have hone : [paddedByte s].length ≤ outqRoom s := by
      rw [List.length_singleton, outqRoom, Config.outqDepth]
      omega
    obtain ⟨hexec, hdone⟩ := exec_ok (i := .encFlush) (flushEncoder_eq_paddedByte hsome) hone
    exact ⟨_, paddedByte s, hexec, hdone, rfl, bitsOf_paddedByte, paddedByte_eq_shiftLeft, rfl, rfl, rfl,
      commitOk_encoder_frame s 0 0 s.encBitcnt _⟩

end Sys2Proof.Proofs
end

section
/-! Decoder commands (R98 to R100): the frame the three commands share and the outcome of each by case, then their
three statements. -/

namespace Sys2Proof.Proofs

open Sys2Proof.Machine Sys2Proof.Laws

/-- The frame of the decoder commands: a commit that writes the decoder's state alone, with any output. -/
theorem commitOk_decoder_frame (s : State) (rem : Long) (cur : Index) (active done : Bool) (cnt : Long)
    (out : List Byte) :
    let t := commitOk { s with
      decRemain := rem, decNode := cur, decActive := active, decDone := done, decSymcnt := cnt } out
    KeepsFault s t ∧ KeepsHistogram s t ∧ KeepsTree s t ∧ KeepsCodes s t ∧ KeepsEncoder s t ∧ t.res = s.res :=
  ⟨⟨rfl, rfl, rfl⟩, ⟨rfl, rfl⟩, ⟨rfl, rfl, rfl, rfl, rfl⟩, ⟨rfl, rfl, rfl⟩, ⟨rfl, rfl, rfl⟩, rfl⟩

/-! ## DEC_START (R98) -/

/-- What an accepted DEC_START leaves: the walker at the root, with the declared length still to come. -/
def decoderStarted (s : State) : State :=
  { s with
    decRemain := lengthOperand s, decNode := s.root, decSymcnt := 0
    decActive := true, decDone := lengthOperand s == 0 }

section Start

variable {s : State}

theorem lengthOperand_toNat : (lengthOperand s).toNat = s.lArg[1].toNat * 2 ^ 32 + s.lArg[0].toNat :=
  toNat_append_add ..

theorem lengthOperand_eq_zero_iff : lengthOperand s = 0 ↔ s.lArg[1].toNat * 2 ^ 32 + s.lArg[0].toNat = 0 := by
  rw [← lengthOperand_toNat]
  exact BitVec.toNat_eq

theorem startDecoder_eq_sequence (hlen : lengthOperand s ≠ 0) (htree : s.nodeCount = 0) :
    startDecoder s = .fault .sequence :=
  if_pos ⟨hlen, htree⟩

theorem startDecoder_eq_ok (h : lengthOperand s = 0 ∨ s.nodeCount ≠ 0) :
    startDecoder s = .ok (decoderStarted s) [] :=
  if_neg fun ⟨hlen, htree⟩ => h.elim hlen (· htree)

end Start

/-- Settles O40: by whether the declared bits have a tree to be decoded by. -/
theorem decStartPutsTheWalkerAtTheRoot : Obligations.DecStartPutsTheWalkerAtTheRoot := by
  refine ⟨rfl, fun s hlen htree => ?_, fun s hstart => ?_⟩
  · have hlen' : lengthOperand s ≠ 0 := mt lengthOperand_eq_zero_iff.mp hlen.ne'
    obtain ⟨hexec, hfault⟩ := exec_fault (i := .decStart) (startDecoder_eq_sequence hlen' htree)
    exact ⟨_, hexec, hfault, rfl⟩
  · obtain ⟨hexec, hdone⟩ :=
      exec_ok_nil (i := .decStart) (startDecoder_eq_ok (hstart.imp_left lengthOperand_eq_zero_iff.mpr))
    obtain ⟨hfault, hhist, htree, hcodes, henc, hres⟩ :=
      commitOk_decoder_frame s (lengthOperand s) s.root true (lengthOperand s == 0) 0 []
    exact ⟨_, hexec, hdone, lengthOperand_toNat, rfl, rfl, rfl, beq_iff_eq.trans lengthOperand_eq_zero_iff,
      hfault, hhist, htree, hcodes, henc, hres, List.append_nil _⟩

/-! ## DEC_BYTE (R99) -/

/-- What an accepted DEC_BYTE leaves but for OUTQ, after a walk that ends at `cur` with the symbols `out`. -/
def byteWalked (cur : Index) (out : List Byte) (s : State) : State :=
  { s with
    decNode := cur, decRemain := remainAfter s
    decSymcnt := s.decSymcnt + BitVec.ofNat 64 out.length, decDone := remainAfter s == 0 }

section DecodeByte

variable {b : Byte} {s : State} {cur : Index} {out : List Byte}

theorem decodeByte_eq_sequence (hactive : s.decActive = false) : decodeByte b s = .fault .sequence :=
  if_neg (Bool.eq_false_iff.mp hactive)

theorem decodeByte_eq_extraPayload (hactive : s.decActive = true) (hremain : s.decRemain = 0) :
    decodeByte b s = .fault .extraPayload :=
  (if_pos hactive).trans (if_pos hremain)

/-- A walk of the model over the payload bits would be a `Walk`. -/
theorem decodeByte_eq_corruptCode (hactive : s.decActive = true) (hremain : s.decRemain ≠ 0)
    (hnone : ∀ cur out, ¬ Walk s.node s.root s.decNode (payloadBits b s) cur out) :
    decodeByte b s = .fault .corruptCode := by
  have hwalk : walkBits s.node s.root (payloadBits b s) s.decNode [] = none :=
    Option.eq_none_iff_forall_ne_some.mpr fun r hr => hnone r.1 r.2 (walkBits_iff.mp hr)
  rw [payloadBits] at hwalk
  simp only [decodeByte, if_pos hactive, if_neg hremain, hwalk]

theorem decodeByte_of_walk (hactive : s.decActive = true) (hremain : s.decRemain ≠ 0)
    (hwalk : Walk s.node s.root s.decNode (payloadBits b s) cur out) :
    decodeByte b s =
      if remainAfter s = 0 ∧ cur ≠ s.root then .fault .underflow else .ok (byteWalked cur out s) out := by
  have hbits := walkBits_iff.mpr hwalk
  rw [payloadBits] at hbits
  simp only [decodeByte, if_pos hactive, if_neg hremain, hbits]
  rfl

theorem decodeByte_eq_ok (hactive : s.decActive = true) (hremain : s.decRemain ≠ 0)
    (hwalk : Walk s.node s.root s.decNode (payloadBits b s) cur out) (hend : remainAfter s = 0 → cur = s.root) :
    decodeByte b s = .ok (byteWalked cur out s) out :=
  (decodeByte_of_walk hactive hremain hwalk).trans (if_neg fun ⟨hlast, hoff⟩ => hoff (hend hlast))

/-- R99: a byte has 8 bits, and each emits at most one symbol. -/
theorem walk_length_le (hwalk : Walk s.node s.root s.decNode (payloadBits b s) cur out) : out.length ≤ 8 := by
  have hlen := walkBits_length (walkBits_iff.mpr hwalk)
  have htake : (payloadBits b s).length ≤ 8 := List.length_take_le' ..
  rw [List.length_nil] at hlen
  omega

theorem remainAfter_toNat : (remainAfter s).toNat = s.decRemain.toNat - min 8 s.decRemain.toNat := by
  have hmin : (BitVec.ofNat 64 (min 8 s.decRemain.toNat)).toNat = min 8 s.decRemain.toNat :=
    (BitVec.toNat_ofNat ..).trans (Nat.mod_eq_of_lt (by omega))
  have hle : BitVec.ofNat 64 (min 8 s.decRemain.toNat) ≤ s.decRemain := by
    rw [BitVec.le_def, hmin]
    exact Nat.min_le_right ..
  rw [remainAfter, BitVec.toNat_sub_of_le hle, hmin]

end DecodeByte

/-- Settles O41: the checks one after the other; an accepted byte is the walk `Walk` gives, which holds or commits by
the room of OUTQ. -/
theorem decByteWalksThePayloadBits : Obligations.DecByteWalksThePayloadBits := by
  refine ⟨wordB_toNat 0x41, fun b s hactive => ?_, fun b s hactive hremain => ?_,
    fun b s hactive hremain hnone => ?_, fun b s cur out hactive hremain hwalk hlast hoff => ?_,
    fun b s cur out hactive hremain hwalk hend hroom => ?_,
    fun b s cur out hactive hremain hwalk hend hroom => ?_⟩
  · obtain ⟨hexec, hfault⟩ := exec_fault (i := .decByte b) (decodeByte_eq_sequence hactive)
    exact ⟨_, hexec, hfault, rfl⟩
  · obtain ⟨hexec, hfault⟩ := exec_fault (i := .decByte b) (decodeByte_eq_extraPayload hactive hremain)
    exact ⟨_, hexec, hfault, rfl⟩
  · obtain ⟨hexec, hfault⟩ := exec_fault (i := .decByte b) (decodeByte_eq_corruptCode hactive hremain hnone)
    exact ⟨_, hexec, hfault, rfl⟩
  · obtain ⟨hexec, hfault⟩ := exec_fault (i := .decByte b)
      ((decodeByte_of_walk hactive hremain hwalk).trans (if_pos ⟨hlast, hoff⟩))
    exact ⟨_, hexec, hfault, rfl⟩
  · exact exec_hold (i := .decByte b) (decodeByte_eq_ok hactive hremain hwalk hend) hroom
  · obtain ⟨hexec, hdone⟩ := exec_ok (i := .decByte b) (decodeByte_eq_ok hactive hremain hwalk hend) hroom
    exact ⟨_, hexec, hdone, rfl, walk_length_le hwalk, rfl, remainAfter_toNat, rfl, hactive, beq_iff_eq,
      commitOk_decoder_frame ..⟩

/-! ## DEC_END (R100) -/

section EndDecoder

variable {s : State}

theorem endDecoder_eq_sequence (hactive : s.decActive = false) : endDecoder s = .fault .sequence :=
  if_neg (Bool.eq_false_iff.mp hactive)

theorem endDecoder_eq_truncated (hactive : s.decActive = true) (hremain : s.decRemain ≠ 0) :
    endDecoder s = .fault .truncated :=
  (if_pos hactive).trans (if_neg hremain)

theorem endDecoder_eq_ok (hactive : s.decActive = true) (hremain : s.decRemain = 0) :
    endDecoder s = .ok { s with decActive := false } [] :=
  (if_pos hactive).trans (if_pos hremain)

end EndDecoder

/-- Settles O42: by whether a decode is active and bits remain; a committed DEC_END leaves no decode, so a second one
takes SEQUENCE. -/
theorem decEndChecksTheLength : Obligations.DecEndChecksTheLength := by
  refine ⟨rfl, fun s hactive => ?_, fun s hactive hremain => ?_, fun s hactive hremain => ?_⟩
  · obtain ⟨hexec, hfault⟩ := exec_fault (i := .decEnd) (endDecoder_eq_sequence hactive)
    exact ⟨_, hexec, hfault, rfl⟩
  · obtain ⟨hexec, hfault⟩ := exec_fault (i := .decEnd) (endDecoder_eq_truncated hactive hremain)
    exact ⟨_, hexec, hfault, rfl⟩
  · obtain ⟨hexec, hdone⟩ := exec_ok_nil (i := .decEnd) (endDecoder_eq_ok hactive hremain)
    obtain ⟨hfault, hhist, htree, hcodes, henc, hres⟩ :=
      commitOk_decoder_frame s s.decRemain s.decNode false s.decDone s.decSymcnt []
    exact ⟨_, hexec, hdone, rfl, rfl, rfl, rfl, rfl, hfault, hhist, htree, hcodes, henc, hres, List.append_nil _,
      fun hdec => hdec.at_boundary hactive hremain, _, exec_fault (i := .decEnd) (endDecoder_eq_sequence rfl)⟩

end Sys2Proof.Proofs
end

section
/-! The encoding (R61 to R66): decoder and encoder, the illegal words and the assembler, then their statements. -/

namespace Sys2Proof.Proofs

open Sys2Proof.Laws

/-! ## Decoder and encoder (R61 to R64) -/

theorem decode_encode (i : Instr) : decode (encode i) = .instr i :=
  match i with
  | .nop => RoundTrip.nop
  | .clear => RoundTrip.clear
  | .histClear => RoundTrip.histClear
  | .histByte b => RoundTrip.histByte b
  | .histAcc b => RoundTrip.histAcc b
  | .rdFreq b => RoundTrip.rdFreq b
  | .buildTree => RoundTrip.buildTree
  | .treeClear => RoundTrip.treeClear
  | .insertCode sym len => RoundTrip.insertCode sym len
  | .rdNode idx => RoundTrip.rdNode idx
  | .genCodes => RoundTrip.genCodes
  | .rdCode b => RoundTrip.rdCode b
  | .encStart => RoundTrip.encStart
  | .encByte b => RoundTrip.encByte b
  | .encFlush => RoundTrip.encFlush
  | .decStart => RoundTrip.decStart
  | .decByte b => RoundTrip.decByte b
  | .decEnd => RoundTrip.decEnd

/-- R63: a row builds, from a word it admits, the command of that word: its mask fixes every bit outside the fields
the command carries. -/
theorem encode_build {r : Row} (hr : r ∈ opcodeMap) {w : Word} (h : r.admits w = true) :
    encode (r.build w) = w := by
  have hmask : w &&& r.mask = r.pattern := beq_iff_eq.mp h
  clear h
  revert r
  simp only [opcodeMap, List.cons_append, List.nil_append, List.forall_mem_cons]
  exact ⟨fun h => wordN_of h, fun h => wordN_of h, fun h => wordN_of h, fun h => wordB_of h, fun h => wordB_of h,
    fun h => wordB_of h, fun h => wordN_of h, fun h => wordN_of h, fun h => wordS_of h, fun h => wordI_of h,
    fun h => wordN_of h, fun h => wordB_of h, fun h => wordN_of h, fun h => wordB_of h, fun h => wordN_of h,
    fun h => wordN_of h, fun h => wordB_of h, fun h => wordN_of h, fun _ h => nomatch h⟩

/-- Settles O1: a word that decodes is admitted by a row, which builds its command; and each command's word decodes
to it. -/
theorem decodeAndEncodeAgree : Obligations.DecodeAndEncodeAgree := by
  refine fun w i => ⟨fun h => ?_, fun h => h ▸ decode_encode i⟩
  obtain ⟨r, hr, hadm, rfl⟩ := row_of_decode h
  exact encode_build hr hadm

/-- Settles O3, by evaluation. -/
theorem writtenOutWordsDecode : Obligations.WrittenOutWordsDecode := by
  unfold Obligations.WrittenOutWordsDecode
  decide

/-! ## Illegal words (R65) -/

/-- A word is its opcode byte and its other 24 bits. -/
theorem word_eq_iff {x y : Word} :
    x = y ↔ fieldOp x = fieldOp y ∧ x &&& 0x00FFFFFF = y &&& 0x00FFFFFF := by
  refine ⟨fun h => h ▸ ⟨rfl, rfl⟩, fun ⟨hop, hlow⟩ => BitVec.eq_of_getLsbD_eq fun k hk => ?_⟩
  by_cases h24 : k < 24
  · have hone : (0x00FFFFFF : Word).getLsbD k = true := by
      revert k
      decide
    have hbit := congrArg (·.getLsbD k) hlow
    simpa only [BitVec.getLsbD_and, hone, Bool.and_true] using hbit
  · have hbit := congrArg (·.getLsbD (k - 24)) hop
    have hlt : k - 24 < 8 := by omega
    have hadd : 24 + (k - 24) = k := by omega
    simpa only [fieldOp, BitVec.getLsbD_extractLsb', hlt, hadd, decide_true, Bool.true_and] using hbit

theorem pattern_low : ∀ r ∈ opcodeMap, r.pattern &&& 0x00FFFFFF = 0 := by
  simp only [opcodeMap, List.cons_append, List.nil_append, List.forall_mem_cons]
  decide

section Illegal

variable {w : Word} {r : Row}

/-- R65: a row of the word's opcode admits the word exactly when no reserved bit is 1. -/
theorem admits_iff (hr : r ∈ opcodeMap) :
    r.admits w = true ↔ fieldOp r.pattern = fieldOp w ∧ w &&& r.mask &&& 0x00FFFFFF = 0 := by
  have hop : fieldOp (w &&& r.mask) = fieldOp w := by
    rw [fieldOp_and, opcodeMap_masks r hr]
    exact BitVec.and_allOnes
  rw [Row.admits, beq_iff_eq, word_eq_iff, hop, pattern_low r hr, eq_comm (a := fieldOp w)]

/-- R64: each opcode is in one row at most. -/
theorem row_eq_of_op {r' : Row} (hr : r ∈ opcodeMap) (hr' : r' ∈ opcodeMap)
    (h : fieldOp r.pattern = fieldOp r'.pattern) : r = r' :=
  List.inj_on_of_nodup_map (List.pairwise_map.mpr opcodeMap_ops) hr hr' h

/-- R64, R65: a word is illegal exactly when no row admits it; the reason is whether its opcode is in a row. -/
theorem decode_eq_illegal_iff {why : Illegal} :
    decode w = .illegal why ↔ (∀ r ∈ opcodeMap, r.admits w = false) ∧
      (why = .reservedBits ↔ ∃ r ∈ opcodeMap, fieldOp r.pattern = fieldOp w) := by
  have hany : opcodeMap.any (fun r => fieldOp w == fieldOp r.pattern) = true ↔
      ∃ r ∈ opcodeMap, fieldOp r.pattern = fieldOp w := by
    simp only [List.any_eq_true, beq_iff_eq, eq_comm (a := fieldOp w)]
  unfold decode
  split
  · next r hfind =>
    refine ⟨fun h => Decoded.noConfusion h, fun ⟨hno, _⟩ => ?_⟩
    have hadm := List.find?_some hfind
    exact absurd hadm (Bool.eq_false_iff.mp (hno r (List.mem_of_find?_eq_some hfind)))
  · next hfind =>
    have hno : ∀ r ∈ opcodeMap, r.admits w = false := fun r hr =>
      Bool.eq_false_iff.mpr (List.find?_eq_none.mp hfind r hr)
    rw [← hany, and_iff_right hno, Decoded.illegal.injEq]
    cases opcodeMap.any (fun r => fieldOp w == fieldOp r.pattern) <;> cases why <;> decide

theorem decode_unassigned_iff :
    decode w = .illegal .unassignedOpcode ↔ ∀ r ∈ opcodeMap, fieldOp r.pattern ≠ fieldOp w := by
  rw [decode_eq_illegal_iff]
  constructor
  · rintro ⟨-, hwhy⟩ r hr hop
    exact Illegal.noConfusion (hwhy.mpr ⟨r, hr, hop⟩)
  · intro h
    refine ⟨fun r hr => Bool.eq_false_iff.mpr fun hadm => h r hr ((admits_iff hr).mp hadm).1, ?_⟩
    exact ⟨fun hwhy => Illegal.noConfusion hwhy, fun ⟨r, hr, hop⟩ => absurd hop (h r hr)⟩

/-- R65: the rows leave out exactly the five listed ranges of opcodes. -/
theorem op_unassigned_iff (op : Byte) :
    (∀ r ∈ opcodeMap, fieldOp r.pattern ≠ op) ↔
      (0x06 ≤ op ∧ op ≤ 0x0F) ∨ (0x14 ≤ op ∧ op ≤ 0x1F) ∨ (0x22 ≤ op ∧ op ≤ 0x2F) ∨
      (0x33 ≤ op ∧ op ≤ 0x3F) ∨ (0x43 ≤ op ∧ op ≤ 0xFF) := by
  have hops : opcodeMap.map (fun r => fieldOp r.pattern) =
      [0x00, 0x01, 0x02, 0x03, 0x04, 0x05, 0x10, 0x11, 0x12, 0x13, 0x20, 0x21, 0x30, 0x31, 0x32, 0x40, 0x41,
        0x42] := by decide
  rw [← List.forall_mem_map (P := (· ≠ op)), hops]
  simp only [List.forall_mem_cons, List.not_mem_nil, false_imp_iff, implies_true, and_true]
  bv_omega

theorem decode_reserved_iff :
    decode w = .illegal .reservedBits ↔
      ∃ r ∈ opcodeMap, fieldOp r.pattern = fieldOp w ∧ w &&& r.mask &&& 0x00FFFFFF ≠ 0 := by
  rw [decode_eq_illegal_iff]
  constructor
  · rintro ⟨hno, hwhy⟩
    obtain ⟨r, hr, hop⟩ := hwhy.mp rfl
    exact ⟨r, hr, hop, fun hlow => Bool.eq_false_iff.mp (hno r hr) ((admits_iff hr).mpr ⟨hop, hlow⟩)⟩
  · rintro ⟨r, hr, hop, hlow⟩
    refine ⟨fun r' hr' => Bool.eq_false_iff.mpr fun hadm => ?_, fun _ => ⟨r, hr, hop⟩, fun _ => rfl⟩
    obtain ⟨hop', hlow'⟩ := (admits_iff hr').mp hadm
    exact hlow (row_eq_of_op hr hr' (hop.trans hop'.symm) ▸ hlow')

/-- R65: the words no command encodes are the illegal ones. -/
theorem exists_decode_illegal_iff : (∃ why, decode w = .illegal why) ↔ ∀ i, encode i ≠ w := by
  constructor
  · rintro ⟨why, h⟩ i rfl
    exact Decoded.noConfusion ((decode_encode i).symm.trans h)
  · intro h
    cases hw : decode w with
    | instr i => exact absurd ((decodeAndEncodeAgree w i).mp hw) (h i)
    | illegal why => exact ⟨why, rfl⟩

end Illegal

/-- Settles O2: the three characterisations, each by which rows have the word's opcode and which match the word. -/
theorem illegalWordsAreTheRest : Obligations.IllegalWordsAreTheRest := fun w =>
  ⟨exists_decode_illegal_iff, decode_unassigned_iff.trans (op_unassigned_iff (fieldOp w)), decode_reserved_iff⟩

/-! ## The assembler (R66) -/

section Accepts

variable {ops : List Nat}

theorem eq_nil_of_accepts (h : Format.none.accepts ops = true) : [] = ops :=
  (List.isEmpty_iff.mp h).symm

/-- A number in the range of a byte field is a byte. -/
theorem exists_byte_toNat {n : Nat} (h : n ≤ 0xFF) : ∃ b : Byte, b.toNat = n :=
  ⟨BitVec.ofNat 8 n, (BitVec.toNat_ofNat ..).trans (Nat.mod_eq_of_lt (by omega))⟩

theorem exists_byte_of_accepts (h : Format.byte.accepts ops = true) : ∃ b : Byte, [b.toNat] = ops := by
  match ops, h with
  | [_], h =>
    obtain ⟨b, rfl⟩ := exists_byte_toNat (of_decide_eq_true h)
    exact ⟨b, rfl⟩

theorem exists_symLen_of_accepts (h : Format.symLen.accepts ops = true) :
    ∃ sym len : Byte, [sym.toNat, len.toNat] = ops := by
  match ops, h with
  | [_, _], h =>
    obtain ⟨hsym, hlen⟩ := Bool.and_eq_true_iff.mp h
    obtain ⟨sym, rfl⟩ := exists_byte_toNat (of_decide_eq_true hsym)
    obtain ⟨len, rfl⟩ := exists_byte_toNat (of_decide_eq_true hlen)
    exact ⟨sym, len, rfl⟩

theorem exists_index_of_accepts (h : Format.index.accepts ops = true) : ∃ i : Index, [i.toNat] = ops := by
  match ops, h with
  | [n], h =>
    have hle : n ≤ 511 := of_decide_eq_true h
    exact ⟨BitVec.ofNat 9 n, congrArg (fun k => [k]) (toNat_ofNat_index (by omega))⟩

/-- R66: the operands a mnemonic's format takes are those of some command with that mnemonic. -/
theorem exists_instr_of_accepts : ∀ {m : Mnemonic} {ops : List Nat}, m.format.accepts ops = true →
    ∃ i : Instr, i.mnemonic = m ∧ i.operands = ops
  | .nop, _, h => ⟨.nop, rfl, eq_nil_of_accepts h⟩
  | .clear, _, h => ⟨.clear, rfl, eq_nil_of_accepts h⟩
  | .histClear, _, h => ⟨.histClear, rfl, eq_nil_of_accepts h⟩
  | .histByte, _, h => (exists_byte_of_accepts h).imp' .histByte fun _ hb => ⟨rfl, hb⟩
  | .histAcc, _, h => (exists_byte_of_accepts h).imp' .histAcc fun _ hb => ⟨rfl, hb⟩
  | .rdFreq, _, h => (exists_byte_of_accepts h).imp' .rdFreq fun _ hb => ⟨rfl, hb⟩
  | .buildTree, _, h => ⟨.buildTree, rfl, eq_nil_of_accepts h⟩
  | .treeClear, _, h => ⟨.treeClear, rfl, eq_nil_of_accepts h⟩
  | .insertCode, _, h =>
    have ⟨sym, len, hops⟩ := exists_symLen_of_accepts h
    ⟨.insertCode sym len, rfl, hops⟩
  | .rdNode, _, h => (exists_index_of_accepts h).imp' .rdNode fun _ hi => ⟨rfl, hi⟩
  | .genCodes, _, h => ⟨.genCodes, rfl, eq_nil_of_accepts h⟩
  | .rdCode, _, h => (exists_byte_of_accepts h).imp' .rdCode fun _ hb => ⟨rfl, hb⟩
  | .encStart, _, h => ⟨.encStart, rfl, eq_nil_of_accepts h⟩
  | .encByte, _, h => (exists_byte_of_accepts h).imp' .encByte fun _ hb => ⟨rfl, hb⟩
  | .encFlush, _, h => ⟨.encFlush, rfl, eq_nil_of_accepts h⟩
  | .decStart, _, h => ⟨.decStart, rfl, eq_nil_of_accepts h⟩
  | .decByte, _, h => (exists_byte_of_accepts h).imp' .decByte fun _ hb => ⟨rfl, hb⟩
  | .decEnd, _, h => ⟨.decEnd, rfl, eq_nil_of_accepts h⟩

end Accepts

/-- A command's own line assembles to it: its operands fit their fields. -/
theorem assemble_self (i : Instr) : (Source.mk i.mnemonic i.operands).assemble = some i := by
  have hbyte (b : Byte) : b.toNat ≤ 255 := Nat.le_of_lt_succ b.isLt
  have hidx (x : Index) : x.toNat ≤ 511 := Nat.le_of_lt_succ x.isLt
  cases i <;> simp [Instr.mnemonic, Instr.operands, Source.assemble, Source.wellFormed, Mnemonic.format,
    Format.accepts, hbyte, hidx]

/-- Settles O4: a line that assembles is well formed, so it is some command's own line, which assembles to that
command alone. -/
theorem assemblerTakesExactlyFittingLines : Obligations.AssemblerTakesExactlyFittingLines := by
  rintro ⟨m, ops⟩ i
  constructor
  · intro h
    have hwf : (Source.mk m ops).wellFormed = true := by
      by_contra hno
      rw [Source.assemble, if_neg hno] at h
      cases h
    obtain ⟨j, rfl, rfl⟩ := exists_instr_of_accepts hwf
    rw [assemble_self, Option.some.injEq] at h
    exact h ▸ ⟨rfl, rfl⟩
  · rintro ⟨rfl, rfl⟩
    exact assemble_self i

end Sys2Proof.Proofs
end

section
/-! The frame predicates of Safety along a run: each is reflexive and transitive. -/

namespace Sys2Proof.Machine

section Keeps

variable {s t u : State}

theorem KeepsFault.refl (s : State) : KeepsFault s s := ⟨rfl, rfl, rfl⟩

theorem KeepsFault.trans (h : KeepsFault s t) (h' : KeepsFault t u) : KeepsFault s u :=
  ⟨h'.fault.trans h.fault, h'.errCode.trans h.errCode, h'.errOp.trans h.errOp⟩

theorem KeepsHistogram.trans (h : KeepsHistogram s t) (h' : KeepsHistogram t u) : KeepsHistogram s u :=
  ⟨h'.freq.trans h.freq, h'.histTotal.trans h.histTotal⟩

theorem KeepsTree.trans (h : KeepsTree s t) (h' : KeepsTree t u) : KeepsTree s u :=
  ⟨h'.node.trans h.node, h'.nodeCount.trans h.nodeCount, h'.leafCount.trans h.leafCount, h'.root.trans h.root,
    h'.treeSrc.trans h.treeSrc⟩

theorem KeepsCodes.trans (h : KeepsCodes s t) (h' : KeepsCodes t u) : KeepsCodes s u :=
  ⟨h'.code.trans h.code, h'.codeMaxLen.trans h.codeMaxLen, h'.cost.trans h.cost⟩

theorem KeepsEncoder.trans (h : KeepsEncoder s t) (h' : KeepsEncoder t u) : KeepsEncoder s u :=
  ⟨h'.encAcc.trans h.encAcc, h'.encNpend.trans h.encNpend, h'.encBitcnt.trans h.encBitcnt⟩

theorem KeepsDecoder.trans (h : KeepsDecoder s t) (h' : KeepsDecoder t u) : KeepsDecoder s u :=
  ⟨h'.decRemain.trans h.decRemain, h'.decNode.trans h.decNode, h'.decActive.trans h.decActive,
    h'.decDone.trans h.decDone, h'.decSymcnt.trans h.decSymcnt⟩

theorem KeepsEngine.trans (h : KeepsEngine s t) (h' : KeepsEngine t u) : KeepsEngine s u :=
  ⟨h.histogram.trans h'.histogram, h.tree.trans h'.tree, h.codes.trans h'.codes, h.encoder.trans h'.encoder,
    h.decoder.trans h'.decoder, h'.res.trans h.res, h'.outq.trans h.outq⟩

theorem SameEngine.trans (h : SameEngine s t) (h' : SameEngine t u) : SameEngine s u :=
  ⟨h.fault.trans h'.fault, h.engine.trans h'.engine⟩

end Keeps

end Sys2Proof.Machine
end

section
/-! Steps and events (R15, R57, R70): what the next event does to the machine, and the statements on steps, issue and
reset. -/

namespace Sys2Proof.Proofs

open Sys2Proof.Machine Sys2Proof.Laws

/-! ## The next event -/

section Next

variable {s : State} {rest : List Event}

theorem step_of_event {e : Event} (he : s.events = e :: rest) : step s = eventStep e { s with events := rest } := by
  simp only [step, machineStep, he]

/-- R57, R135: the engine has the turn when its event is the oldest, and when no event is pending. -/
theorem step_of_turn (he : s.events = .engine :: rest ∨ s.events = [] ∧ rest = []) :
    step s = engineStep { s with events := rest } := by
  rcases he with he | ⟨he, rfl⟩
  · exact step_of_event he
  · have hs : { s with events := [] } = s := by rw [← he]
    rw [hs]
    simp only [step, machineStep, he]

theorem engineStep_idle (hb : s.busy = false) : engineStep s = .next s :=
  if_neg (Bool.eq_false_iff.mp hb)

theorem engineStep_of_instr {i : Instr} (hb : s.busy = true) (hi : decode s.lCmd = .instr i) :
    engineStep s = exec i s := by
  simp only [engineStep, if_pos hb, hi]

theorem engineStep_of_illegal {why : Illegal} (hb : s.busy = true) (hw : decode s.lCmd = .illegal why) :
    engineStep s = .next (takeFault .illegalCmd s) := by
  simp only [engineStep, if_pos hb, hw, complete_fault]

end Next

/-- Settles O5. -/
theorem stepRunsTheLatchedCommand : Obligations.StepRunsTheLatchedCommand := by
  intro s rest i he hb hi
  rw [step_of_turn he]
  exact engineStep_of_instr hb hi

/-- Settles O6: a word no command encodes is illegal, and the engine completes it with ILLEGAL_CMD. -/
theorem illegalWordFaults : Obligations.IllegalWordFaults := by
  intro s rest he hb hw
  obtain ⟨why, hill⟩ := exists_decode_illegal_iff.mpr hw
  rw [step_of_turn he, engineStep_of_illegal (s := { s with events := rest }) hb hill]
  exact ⟨_, rfl, rfl, faulted_takeFault _ _⟩

/-- Settles O7: each event in turn; an asserted reset makes the port refuse every access. -/
theorem stepPerformsTheNextEvent : Obligations.StepPerformsTheNextEvent := by
  intro s rest
  refine ⟨fun a he => step_of_event he, fun he => ⟨_, step_of_event he, rfl, rfl, rfl, fun off bytes => ?_⟩,
    fun he => step_of_event he, fun hb he => ?_, fun hb he => ?_⟩
  · exact ⟨busAccess_read_refused (.inr rfl), busAccess_write_refused (.inr rfl)⟩
  · rw [step_of_event he]
    exact engineStep_idle hb
  · rw [step_of_turn (.inr ⟨he, rfl⟩), ← he]
    exact engineStep_idle hb

/-- Settles O8: the placed word is in the latch with the engine's turn at the head of the events. -/
theorem placedWordRunsNext : Obligations.PlacedWordRunsNext := by
  intro s nbits w i hw
  have hi : decode (BitVec.ofNat 32 (w % 2 ^ nbits)) = .instr i := by
    unfold decodeTableWord at hw
    split at hw
    · next j hj => exact Option.some.inj hw ▸ hj
    · cases hw
  refine ⟨{ s.withFetchWord nbits w with events := s.events }, ?_, rfl, rfl, hi, rfl,
    sameEngine_hostUpdate s s.flags _ s.arg true s.resp⟩
  rw [step_of_turn (.inl rfl)]
  exact engineStep_of_instr rfl hi

/-- Settles O58: the reset event, and CTRL's write with bit 0 set, both give `resetState`. -/
theorem resetsAbandonEverything : Obligations.ResetsAbandonEverything := by
  refine fun s => ⟨fun rest he => step_of_event he, fun v hs hv => ?_⟩
  rw [busAccess_write hs rfl (r := .ctrl) rfl, writeReg, if_pos hv]
  rfl

/-! ## What a bus access does to the engine (R50, R55) -/

/-- R21: 0x64 is OUT_DATA's only aligned offset, and 0x18 is CTRL's. -/
theorem aligned_offset : ∀ off : Byte, off.toNat % 4 = 0 →
    (Reg.atOffset off = .outData → off = 0x64) ∧ (Reg.atOffset off = .ctrl → off = 0x18) := by
  decide

/-- R46, R120: what an access the port does not refuse looks like. -/
theorem aligned_of_not_refused {off : Byte} {bytes : Nat} {s : State}
    (h : ¬ (admitted off bytes = false ∨ s.rstAsserted = true)) :
    bytes = 4 ∧ off.toNat % 4 = 0 ∧ s.rstAsserted = false := by
  simpa only [admitted_eq_false_iff, not_or, ne_eq, Decidable.not_not, Bool.not_eq_true, and_assoc] using h

/-- The host's side of the state, and what the environment holds, is no engine state. -/
theorem sameEngine_hostSide (s : State) (arg : Vector Word 8) (f : BitVec 3) (ie : BitVec 4) (c : Word)
    (a : Vector Word 8) (b : Bool) (r : Option Response) (rst : Bool) (ev : List Event) :
    SameEngine s { s with
      arg := arg, flags := f, ie := ie, lCmd := c, lArg := a, busy := b, resp := r, rstAsserted := rst, events := ev } :=
  ⟨⟨rfl, rfl, rfl⟩, ⟨rfl, rfl⟩, ⟨rfl, rfl, rfl, rfl, rfl⟩, ⟨rfl, rfl, rfl⟩, ⟨rfl, rfl, rfl⟩,
    ⟨rfl, rfl, rfl, rfl, rfl⟩, rfl, rfl⟩

/-- R50: a write to any register but CTRL, or to CTRL with bit 0 clear, changes no engine state. -/
theorem sameEngine_writeReg {g : Reg} {v : Word} (s : State) (r : Option Response)
    (h : g = .ctrl → v.getLsbD 0 = false) : SameEngine s { writeReg g v s with resp := r } := by
  rcases writeReg_cases g v s with ⟨-, hw⟩ | ⟨hg, hv, -⟩ | ⟨-, hw⟩ | ⟨-, hw⟩ | ⟨i, -, hw⟩ | hw
  · rw [hw]
    rcases issue_cases v s with ⟨-, -, hi⟩ | ⟨-, hi⟩ <;> rw [hi]
    · exact sameEngine_hostUpdate s s.flags v s.arg true r
    · exact sameEngine_hostUpdate s _ s.lCmd s.lArg s.busy r
  · exact absurd hv (Bool.eq_false_iff.mp (h hg))
  · rw [hw]
    exact sameEngine_hostUpdate s _ s.lCmd s.lArg s.busy r
  · rw [hw]
    exact sameEngine_hostSide s s.arg s.flags _ s.lCmd s.lArg s.busy r s.rstAsserted s.events
  · rw [hw]
    exact sameEngine_hostSide s _ s.flags s.ie s.lCmd s.lArg s.busy r s.rstAsserted s.events
  · rw [hw]
    exact sameEngine_hostUpdate s s.flags s.lCmd s.lArg s.busy r

/-- A bus access leaves the engine as it is, pops OUTQ, or is a soft reset. -/
theorem busAccess_engine_cases (a : Access) (s : State) :
    SameEngine s (busAccess a s) ∨
    (∃ bytes r, a = .read 0x64 bytes ∧ busAccess a s = { popOutq s with resp := r }) ∨
    ∃ v r, a = .write 0x18 4 v ∧ v.getLsbD 0 = true ∧ s.rstAsserted = false ∧
      busAccess a s = { resetState s with resp := r } := by
  have hresp (r : Option Response) : SameEngine s { s with resp := r } :=
    sameEngine_hostUpdate s s.flags s.lCmd s.lArg s.busy r
  cases a with
  | read off bytes =>
    by_cases hno : admitted off bytes = false ∨ s.rstAsserted = true
    · rw [busAccess_read_refused hno]
      exact .inl (hresp _)
    · obtain ⟨rfl, hoff, hs⟩ := aligned_of_not_refused hno
      by_cases hreg : Reg.atOffset off = .outData
      · obtain rfl := (aligned_offset off hoff).1 hreg
        exact .inr (.inl ⟨4, _, rfl, busAccess_read_outData hs⟩)
      · rw [busAccess_read_pure hs hoff rfl hreg]
        exact .inl (hresp _)
  | write off bytes v =>
    by_cases hno : admitted off bytes = false ∨ s.rstAsserted = true
    · rw [busAccess_write_refused hno]
      exact .inl (hresp _)
    · obtain ⟨rfl, hoff, hs⟩ := aligned_of_not_refused hno
      rw [busAccess_write hs hoff rfl]
      by_cases hreset : Reg.atOffset off = .ctrl ∧ v.getLsbD 0 = true
      · obtain ⟨hreg, hv⟩ := hreset
        obtain rfl := (aligned_offset off hoff).2 hreg
        exact .inr (.inr ⟨v, _, rfl, hv, hs, by rw [hreg, writeReg, if_pos hv]⟩)
      · exact .inl (sameEngine_writeReg s _ fun hreg => Bool.eq_false_iff.mpr fun hv => hreset ⟨hreg, hv⟩)

/-- Settles O56: the two ways an access reaches the engine are the ones the statement leaves out. -/
theorem hostReachesTheEngineByCommandsOnly : Obligations.HostReachesTheEngineByCommandsOnly := by
  intro s a hread hwrite
  rcases busAccess_engine_cases a s with h | ⟨bytes, r, ha, -⟩ | ⟨v, r, ha, hv, -⟩
  · exact h
  · exact absurd rfl (hread _ _ ha)
  · exact absurd hv (Bool.eq_false_iff.mp (hwrite v ha))

end Sys2Proof.Proofs
end

section
/-! The accepted outcomes of the commands (R71): what each is when it is accepted, and which state it writes. -/

namespace Sys2Proof.Proofs

open Sys2Proof.Machine Sys2Proof.Laws

/-- What an accepted GEN_CODES leaves but for OUTQ, after a walk that collected the leaves `lv` (R91). -/
def withTable (lv : List (NodeEntry × List Bool)) (s : State) : State :=
  { s with
    code := codeTable lv
    codeMaxLen := BitVec.ofNat 8 (maxLength lv)
    cost := BitVec.ofNat 64 (weightedCost lv) }

section Accepted

variable {s s' : State} {out : List Byte}

theorem addCount_ok {b : Byte} {n : Word} (e : addCount b n s = .ok s' out) : s' = withCount b n s := by
  by_cases h : s.histTotal.toNat + n.toNat > 2 ^ 32 - 1
  · cases (addCount_eq_fault h).symm.trans e
  · cases (addCount_eq_ok (Nat.not_lt.mp h)).symm.trans e
    rfl

theorem readNode_ok {i : Index} (e : readNode i s = .ok s' out) : ∃ r0 r1 r2, s' = setResults r0 r1 r2 s := by
  by_cases h : i.toNat < s.nodeCount.toNat
  · cases (readNode_eq_fields h).symm.trans e
    exact ⟨_, _, _, rfl⟩
  · cases (readNode_eq_zeros (Nat.not_lt.mp h)).symm.trans e
    exact ⟨_, _, _, rfl⟩

theorem genCodes_eq_sequence (h : s.nodeCount = 0) : genCodes s = .fault .sequence :=
  if_pos h

theorem genCodes_eq_ok {lv : List (NodeEntry × List Bool)} (h : s.nodeCount ≠ 0)
    (hw : leafPaths s.node (Config.nodeCap + 1) s.root [] = some lv) : genCodes s = .ok (withTable lv s) [] := by
  simp only [genCodes, if_neg h, hw, withTable]

theorem genCodes_ok (e : genCodes s = .ok s' out) : ∃ lv, s' = withTable lv s := by
  by_cases h : s.nodeCount = 0
  · cases (genCodes_eq_sequence h).symm.trans e
  · cases hw : leafPaths s.node (Config.nodeCap + 1) s.root [] with
    | none => simp only [genCodes, if_neg h, hw, reduceCtorEq] at e
    | some lv =>
      cases (genCodes_eq_ok h hw).symm.trans e
      exact ⟨lv, rfl⟩

theorem insertCode_shape {sym len : Byte} (e : insertCode sym len s = .ok s' out) :
    ∃ n cnt, s' = withLoadedCode sym (codeOperand len s) n cnt s := by
  simp only [insertCode] at e
  split at e
  · cases e
  split at e
  · cases e
  split at e
  · cases e
  split at e
  · split at e
    · cases e
    · cases e
      exact ⟨_, _, rfl⟩
  · split at e
    · cases e
    · split at e
      · cases e
      · cases e
        exact ⟨_, _, rfl⟩

theorem encodeByte_ok {b : Byte} (e : encodeByte b s = .ok s' out) :
    s' = withCodeAppended b s ∧ out = wholeBytes (bitsWithCode b s) := by
  cases hv : (codeOf s b).valid with
  | false => cases (encodeByte_eq_fault hv).symm.trans e
  | true =>
    cases (encodeByte_eq_ok hv).symm.trans e
    exact ⟨rfl, rfl⟩

theorem flushEncoder_ok (e : flushEncoder s = .ok s' out) :
    ∃ acc n, s' = { s with encAcc := acc, encNpend := n } ∧ out.length ≤ 1 := by
  by_cases h : s.encNpend = 0
  · cases (flushEncoder_eq_unchanged h).symm.trans e
    exact ⟨s.encAcc, s.encNpend, rfl, Nat.zero_le _⟩
  · cases (flushEncoder_eq_paddedByte h).symm.trans e
    exact ⟨0, 0, rfl, le_rfl⟩

theorem startDecoder_ok (e : startDecoder s = .ok s' out) : s' = decoderStarted s := by
  by_cases h : lengthOperand s = 0 ∨ s.nodeCount ≠ 0
  · cases (startDecoder_eq_ok h).symm.trans e
    rfl
  · obtain ⟨hlen, htree⟩ := not_or.mp h
    cases (startDecoder_eq_sequence hlen (Decidable.not_not.mp htree)).symm.trans e

/-- An accepted DEC_BYTE walked its payload bits. -/
theorem decodeByte_ok {b : Byte} (e : decodeByte b s = .ok s' out) :
    ∃ cur, Walk s.node s.root s.decNode (payloadBits b s) cur out ∧ s' = byteWalked cur out s := by
  cases hactive : s.decActive with
  | false => cases (decodeByte_eq_sequence hactive).symm.trans e
  | true =>
    by_cases hremain : s.decRemain = 0
    · cases (decodeByte_eq_extraPayload hactive hremain).symm.trans e
    · by_cases hwalk : ∃ cur out, Walk s.node s.root s.decNode (payloadBits b s) cur out
      · obtain ⟨cur, out', hwalk⟩ := hwalk
        have e' := (decodeByte_of_walk hactive hremain hwalk).symm.trans e
        split at e' <;> cases e'
        exact ⟨cur, hwalk, rfl⟩
      · have hnone : ∀ cur out, ¬ Walk s.node s.root s.decNode (payloadBits b s) cur out := fun cur out h =>
          hwalk ⟨cur, out, h⟩
        cases (decodeByte_eq_corruptCode hactive hremain hnone).symm.trans e

theorem endDecoder_ok (e : endDecoder s = .ok s' out) : s' = { s with decActive := false } := by
  cases hactive : s.decActive with
  | false => cases (endDecoder_eq_sequence hactive).symm.trans e
  | true =>
    by_cases hremain : s.decRemain = 0
    · cases (endDecoder_eq_ok hactive hremain).symm.trans e
      rfl
    · cases (endDecoder_eq_truncated hactive hremain).symm.trans e

end Accepted

/-! ## Which state a command writes -/

/-- The commands that may write each part of the engine's state: the host's results, the histogram, NODE, the tree's
registers, the code table, the encoder, the decoder. -/
theorem outcome_writes {i : Instr} {s s' : State} {out : List Byte} (e : outcomeOf i s = .ok s' out) :
    (s'.res ≠ s.res → (∃ b, i = .rdFreq b) ∨ (∃ k, i = .rdNode k) ∨ (∃ b, i = .rdCode b) ∨ i = .clear) ∧
    (s'.freq ≠ s.freq ∨ s'.histTotal ≠ s.histTotal →
      i = .histClear ∨ (∃ b, i = .histByte b) ∨ (∃ b, i = .histAcc b) ∨ i = .clear) ∧
    (s'.node ≠ s.node → i = .buildTree ∨ ∃ a b, i = .insertCode a b) ∧
    (s'.nodeCount ≠ s.nodeCount ∨ s'.leafCount ≠ s.leafCount ∨ s'.root ≠ s.root ∨ s'.treeSrc ≠ s.treeSrc →
      i = .buildTree ∨ i = .treeClear ∨ (∃ a b, i = .insertCode a b) ∨ i = .clear) ∧
    (s'.code ≠ s.code ∨ s'.codeMaxLen ≠ s.codeMaxLen ∨ s'.cost ≠ s.cost →
      i = .genCodes ∨ (∃ a b, i = .insertCode a b) ∨ i = .buildTree ∨ i = .treeClear ∨ i = .clear) ∧
    (s'.encAcc ≠ s.encAcc ∨ s'.encNpend ≠ s.encNpend ∨ s'.encBitcnt ≠ s.encBitcnt →
      i = .encStart ∨ (∃ b, i = .encByte b) ∨ i = .encFlush ∨ i = .clear) ∧
    (s'.decActive ≠ s.decActive ∨ s'.decDone ≠ s.decDone ∨ s'.decRemain ≠ s.decRemain ∨
        s'.decNode ≠ s.decNode ∨ s'.decSymcnt ≠ s.decSymcnt →
      i = .decStart ∨ (∃ b, i = .decByte b) ∨ i = .decEnd ∨ i = .buildTree ∨ i = .treeClear ∨
      (∃ a b, i = .insertCode a b) ∨ i = .clear) := by
  cases i with
  | nop => cases e; simp
  | clear => cases e; simp [leaveFault, clearEngine]
  | histClear => cases e; simp
  | histByte b | histAcc b => obtain rfl := addCount_ok e; simp [withCount]
  | rdFreq b => cases e; simp
  | buildTree =>
    rcases buildTree_ok s with ⟨-, hb⟩ | ⟨-, hb⟩ <;> cases hb.symm.trans e <;> simp [withBuiltTree]
  | treeClear => cases e; simp
  | insertCode sym len => obtain ⟨n, cnt, rfl⟩ := insertCode_shape e; simp
  | rdNode k => obtain ⟨r0, r1, r2, rfl⟩ := readNode_ok e; simp
  | genCodes => obtain ⟨lv, rfl⟩ := genCodes_ok e; simp [withTable]
  | rdCode b => cases e; simp
  | encStart => cases e; simp
  | encByte b => obtain ⟨rfl, -⟩ := encodeByte_ok e; simp [withCodeAppended]
  | encFlush => obtain ⟨acc, n, rfl, -⟩ := flushEncoder_ok e; simp
  | decStart => obtain rfl := startDecoder_ok e; simp [decoderStarted]
  | decByte b => obtain ⟨cur, -, rfl⟩ := decodeByte_ok e; simp [byteWalked]
  | decEnd => obtain rfl := endDecoder_ok e; simp

/-- OUTQ grows at its end by what the three output commands push, and only CLEAR empties it (R71, R77). -/
theorem outcome_writes_outq {i : Instr} {s s' : State} {out : List Byte} (e : outcomeOf i s = .ok s' out)
    (h : s'.outq ++ out ≠ s.outq) :
    ((∃ o, s'.outq ++ out = s.outq ++ o) ∧ ((∃ b, i = .encByte b) ∨ i = .encFlush ∨ ∃ b, i = .decByte b)) ∨
      (i = .clear ∧ s'.outq ++ out = []) := by
  by_cases hout : out = []
  · subst hout
    rw [List.append_nil] at h ⊢
    rcases (outcome_keeps e).2 with ⟨hi, hq, -⟩ | ⟨-, hq, -⟩
    · exact .inr ⟨hi, hq⟩
    · exact absurd hq h
  · have hcmd := outcome_output e hout
    rcases (outcome_keeps e).2 with ⟨rfl, -⟩ | ⟨-, hq, -⟩
    · rcases hcmd with ⟨b, hi⟩ | hi | ⟨b, hi⟩ <;> cases hi
    · exact .inl ⟨⟨out, by rw [hq]⟩, hcmd⟩

/-- Settles O48: a commit writes what its outcome writes; a hold, a fault and an unending walk write none of it. -/
theorem commandsWriteOnlyTheirState : Obligations.CommandsWriteOnlyTheirState := by
  intro s t i h
  rw [exec_eq] at h
  have hsame : t = s ∨ (∃ c, t = takeFault c s) ∨ ∃ s' out, outcomeOf i s = .ok s' out ∧ t = commitOk s' out := by
    rcases complete_cases h with ⟨s', out, e, -, rfl⟩ | ⟨-, -, -, -, rfl⟩ | ⟨c, -, rfl⟩ | ⟨-, rfl⟩
    · exact .inr (.inr ⟨s', out, e, rfl⟩)
    · exact .inl rfl
    · exact .inr (.inl ⟨c, rfl⟩)
    · exact .inl rfl
  rcases hsame with rfl | ⟨c, rfl⟩ | ⟨s', out, e, rfl⟩
  · simp
  · simp
  · obtain ⟨harg, hie, -, -, hcmd, hlarg, -, -, hev, -⟩ := (outcome_keeps e).1
    obtain ⟨hres, hhist, hnode, htree, hcode, henc, hdec⟩ := outcome_writes e
    exact ⟨harg, hie, hlarg, hcmd, hev, hres, hhist, hnode, htree, hcode, henc, hdec, outcome_writes_outq e⟩

end Sys2Proof.Proofs
end

section
/-! Holds, faults and the invariant (R43, R72, R73, R104 to R109, R128): what an execution and a step do to the fault
state and to each part of the invariant, and the statements on them. -/

namespace Sys2Proof.Proofs

open Sys2Proof.Machine Sys2Proof.Laws

/-! ## Holds and completions (R73, R128) -/

section Output

variable {i : Instr} {s s' t : State} {out : List Byte}

/-- R32, R38: no code is longer than 255 bits. -/
theorem codeBits_length_le (h : CodeInv s) (b : Byte) : (codeOf s b).bits.length ≤ 255 := by
  cases hv : (codeOf s b).valid with
  | false =>
    rw [h.invalid_empty b hv]
    exact Nat.zero_le _
  | true => exact (h.maxLen_bound b hv).trans (Nat.le_of_lt_succ s.codeMaxLen.isLt)

/-- R128: an accepted outcome has at most 32 bytes: those of a code of 255 bits after 7 pending ones. -/
theorem output_length_le (h : CodeInv s) (e : outcomeOf i s = .ok s' out) : out.length ≤ 32 := by
  by_cases hout : out = []
  · subst hout
    exact Nat.zero_le _
  rcases outcome_output e hout with ⟨b, rfl⟩ | rfl | ⟨b, rfl⟩
  · obtain ⟨-, rfl⟩ := encodeByte_ok e
    have hbits := codeBits_length_le h b
    have hpend := s.encNpend.isLt
    rw [length_wholeBytes_bitsWithCode]
    omega
  · obtain ⟨-, -, -, hlen⟩ := flushEncoder_ok e
    omega
  · obtain ⟨cur, hwalk, -⟩ := decodeByte_ok e
    have hlen := walk_length_le hwalk
    omega

/-- Log 10: GEN_CODES alone might not end, and it ends over every tree of the invariant. -/
theorem outcome_ne_unending (h : TreeInv s) : outcomeOf i s ≠ .unending := by
  intro e
  cases i with
  | genCodes =>
    by_cases h0 : s.nodeCount = 0
    · cases (genCodes_eq_sequence h0).symm.trans e
    · obtain ⟨lv, hw⟩ := h.walk_ends h0
      cases (genCodes_eq_ok h0 hw).symm.trans e
  | insertCode sym len =>
    simp only [outcomeOf, insertCode] at e
    repeat' split at e
    all_goals cases e
  | _ =>
    simp only [outcomeOf, addCount, buildTree, readNode, encodeByte, flushEncoder, startDecoder, decodeByte,
      endDecoder] at e
    repeat' split at e
    all_goals cases e

/-- R70 to R73 under the invariant: a command commits, holds for want of room, or faults. -/
theorem exec_cases (hi : Inv s) (h : exec i s = .next t) :
    (∃ s' out, outcomeOf i s = .ok s' out ∧ out.length ≤ outqRoom s ∧ t = commitOk s' out) ∨
    (∃ s' out, outcomeOf i s = .ok s' out ∧ ¬ out.length ≤ outqRoom s ∧ t = s) ∨
    ∃ c, outcomeOf i s = .fault c ∧ t = takeFault c s := by
  rw [exec_eq] at h
  rcases complete_cases h with hok | hhold | hfault | ⟨hun, -⟩
  · exact .inl hok
  · exact .inr (.inl hhold)
  · exact .inr (.inr hfault)
  · exact absurd hun (outcome_ne_unending hi.tree)

/-- R73, R128: what has no room in OUTQ is not empty, and OUTQ holds more than 32 bytes. -/
theorem full_of_no_room (h : CodeInv s) (e : outcomeOf i s = .ok s' out) (hroom : ¬ out.length ≤ outqRoom s) :
    32 < s.outq.length ∧ out ≠ [] := by
  have hlen := output_length_le h e
  rw [outqRoom, Config.outqDepth] at hroom
  refine ⟨by omega, ?_⟩
  rintro rfl
  exact hroom (Nat.zero_le _)

end Output

/-- Settles O10: of what a completion can do, only the hold leaves BUSY set. -/
theorem onlyOutputCommandsHold : Obligations.OnlyOutputCommandsHold := by
  intro s t i hinv _ hexec hbusy
  rcases exec_cases hinv hexec with ⟨s', out, -, -, rfl⟩ | ⟨s', out, e, hroom, rfl⟩ | ⟨c, -, rfl⟩
  · exact absurd hbusy Bool.false_ne_true
  · obtain ⟨hfull, hout⟩ := full_of_no_room hinv.code e hroom
    exact ⟨rfl, hfull, outcome_output e hout⟩
  · exact absurd hbusy Bool.false_ne_true

/-- Settles O11: with at most 32 bytes queued no command holds, and a commit and a fault both complete. -/
theorem everyCommandCompletesWithRoom : Obligations.EveryCommandCompletesWithRoom := by
  intro s i hinv hlen
  obtain ⟨t, hexec⟩ := exec_next i s
  refine ⟨t, hexec, ?_⟩
  rcases exec_cases hinv hexec with ⟨s', out, e, -, rfl⟩ | ⟨s', out, e, hroom, rfl⟩ | ⟨c, -, rfl⟩
  · exact completed_commitOk out (outcome_keeps e).1
  · obtain ⟨hfull, -⟩ := full_of_no_room hinv.code e hroom
    omega
  · exact (faulted_takeFault c s).completed

/-! ## Faults (R104 to R109) -/

section Faults

variable {i : Instr} {s t : State}

/-- R72, R107: an execution completes CLEAR, takes a fault of the command's, or keeps the fault registers. -/
theorem exec_fault_cases (h : exec i s = .next t) :
    (i = .clear ∧ t.fault = false) ∨ (∃ c ∈ faultsOf i, t = takeFault c s) ∨ KeepsFault s t := by
  rw [exec_eq] at h
  rcases complete_cases h with ⟨s', out, e, -, rfl⟩ | ⟨-, -, -, -, rfl⟩ | ⟨c, e, rfl⟩ | ⟨-, rfl⟩
  · rcases (outcome_keeps e).2 with ⟨hi, -, hf⟩ | ⟨-, -, hf, hcode, hop⟩
    · exact .inl ⟨hi, hf⟩
    · exact .inr (.inr ⟨hf, hcode, hop⟩)
  · exact .inr (.inr ⟨rfl, rfl, rfl⟩)
  · exact .inr (.inl ⟨c, outcome_fault e, rfl⟩)
  · exact .inr (.inr ⟨rfl, rfl, rfl⟩)

/-- R69, R109: NOP's and CLEAR's words are the two that run in the fault state. -/
theorem decode_of_runsInFault {v : Word} (h : runsInFault v = true) :
    decode v = .instr .nop ∨ decode v = .instr .clear := by
  rw [runsInFault, Bool.or_eq_true, beq_iff_eq, beq_iff_eq] at h
  exact h.imp (fun hv => (decodeAndEncodeAgree v .nop).mpr hv.symm)
    (fun hv => (decodeAndEncodeAgree v .clear).mpr hv.symm)

end Faults

/-- Settles O12: from FAULT = 0 only a fault of the command's own sets FAULT. -/
theorem faultsArePreciseAndListed : Obligations.FaultsArePreciseAndListed := by
  intro s t i hs hexec ht
  rcases exec_fault_cases hexec with ⟨-, hclear⟩ | ⟨c, hc, rfl⟩ | hkeep
  · exact absurd ht (Bool.eq_false_iff.mp hclear)
  · exact ⟨c, hc, faulted_takeFault c s⟩
  · rw [hkeep.fault, hs] at ht
    cases ht

/-- Settles O13: of a step's four kinds, the engine's turn clears FAULT by CLEAR alone, an access by a soft reset
alone. -/
theorem faultStaysUntilCleared : Obligations.FaultStaysUntilCleared := by
  intro s t hs hstep ht
  have hne : t.fault ≠ s.fault := by
    rw [hs, ht]
    decide
  rcases step_cases hstep with ⟨rest, he, heng⟩ | ⟨a, rest, he, rfl⟩ | ⟨rest, he, rfl⟩ | ⟨rest, he, rfl⟩
  · refine .inl ?_
    rcases engineStep_cases heng with ⟨-, rfl⟩ | ⟨hb, i, hi, hexec⟩ | ⟨-, -, -, rfl⟩
    · exact absurd rfl hne
    · rcases exec_fault_cases hexec with ⟨rfl, -⟩ | ⟨c, -, rfl⟩ | hkeep
      · have hword : encode .clear = s.lCmd := (decodeAndEncodeAgree _ _).mp hi
        exact ⟨hb, hword.symm, he.symm.imp And.left fun h => ⟨rest, h⟩⟩
      · cases ht
      · exact absurd hkeep.fault hne
    · cases ht
  · rcases busAccess_engine_cases a { s with events := rest } with h | ⟨bytes, r, -, h⟩ | ⟨v, r, rfl, hv, hrst, -⟩
    · exact absurd h.fault.fault hne
    · rw [h] at hne
      rcases popOutq_cases { s with events := rest } with ⟨b, q, -, hp⟩ | ⟨-, hp⟩ <;> exact absurd (by rw [hp]) hne
    · exact .inr (.inl ⟨v, rest, he, hv, hrst⟩)
  · exact .inr (.inr ⟨rest, he⟩)
  · exact absurd rfl hne

/-- Engine state as before but for a pop of OUTQ: all that is left of a step in the fault state (R107). -/
structure OnlyPopped (s t : State) : Prop where
  fault : KeepsFault s t
  histogram : KeepsHistogram s t
  tree : KeepsTree s t
  codes : KeepsCodes s t
  encoder : KeepsEncoder s t
  decoder : KeepsDecoder s t
  res : t.res = s.res
  outq : t.outq = s.outq ∨ ∃ b, s.outq = b :: t.outq

section OnlyPopped

variable {s t u : State}

theorem onlyPopped_of_sameEngine (h : SameEngine s t) : OnlyPopped s t :=
  ⟨h.fault, h.engine.histogram, h.engine.tree, h.engine.codes, h.engine.encoder, h.engine.decoder, h.engine.res,
    .inl h.engine.outq⟩

theorem onlyPopped_popOutq (s : State) (r : Option Response) : OnlyPopped s { popOutq s with resp := r } := by
  rcases popOutq_cases s with ⟨b, q, hq, hp⟩ | ⟨-, hp⟩ <;> rw [hp]
  · exact ⟨⟨rfl, rfl, rfl⟩, ⟨rfl, rfl⟩, ⟨rfl, rfl, rfl, rfl, rfl⟩, ⟨rfl, rfl, rfl⟩, ⟨rfl, rfl, rfl⟩,
      ⟨rfl, rfl, rfl, rfl, rfl⟩, rfl, .inr ⟨b, hq⟩⟩
  · exact onlyPopped_of_sameEngine (sameEngine_hostUpdate s _ s.lCmd s.lArg s.busy r)

/-- R109: the engine's turn in the fault state runs NOP, which changes nothing, or CLEAR, which leaves the fault. -/
theorem sameEngine_engineStep_of_fault (hlatch : LatchInv s) (hs : s.fault = true) (h : engineStep s = .next t)
    (ht : t.fault = true) : SameEngine s t := by
  rcases engineStep_cases h with ⟨-, rfl⟩ | ⟨hb, i, hi, hexec⟩ | ⟨hb, why, hw, -⟩
  · exact sameEngine_hostUpdate t t.flags t.lCmd t.lArg t.busy t.resp
  · rcases decode_of_runsInFault (hlatch.fault_latch hs hb) with hnop | hclear
    · cases Decoded.instr.inj (hi.symm.trans hnop)
      cases (exec_ok_nil (i := .nop) (s := s) rfl).1.symm.trans hexec
      exact sameEngine_commitOk_nil s
    · cases Decoded.instr.inj (hi.symm.trans hclear)
      cases (exec_ok_nil (i := .clear) (s := s) rfl).1.symm.trans hexec
      cases ht
  · rcases decode_of_runsInFault (hlatch.fault_latch hs hb) with hword | hword <;> cases hword.symm.trans hw

/-- R107: an access in the fault state pops OUTQ at most; a soft reset leaves the fault. -/
theorem onlyPopped_busAccess_of_fault (a : Access) (ht : (busAccess a s).fault = true) :
    OnlyPopped s (busAccess a s) := by
  rcases busAccess_engine_cases a s with h | ⟨bytes, r, -, h⟩ | ⟨v, r, -, -, -, h⟩
  · exact onlyPopped_of_sameEngine h
  · exact h ▸ onlyPopped_popOutq s r
  · rw [h] at ht
    cases ht

end OnlyPopped

/-- Settles O14: by the kind of the step; the event list is no engine state. -/
theorem faultFreezesTheEngine : Obligations.FaultFreezesTheEngine := by
  intro s t hlatch hs hstep ht
  have hpop : ∃ rest, OnlyPopped { s with events := rest } t := by
    rcases step_cases hstep with ⟨rest, -, heng⟩ | ⟨a, rest, -, rfl⟩ | ⟨rest, -, rfl⟩ | ⟨rest, -, rfl⟩
    · have hlatch' : LatchInv { s with events := rest } := ⟨hlatch.fault_latch, hlatch.reset_idle⟩
      exact ⟨rest, onlyPopped_of_sameEngine (sameEngine_engineStep_of_fault hlatch' hs heng ht)⟩
    · exact ⟨rest, onlyPopped_busAccess_of_fault a ht⟩
    · cases ht
    · exact ⟨rest, onlyPopped_of_sameEngine
        (sameEngine_hostSide _ s.arg s.flags s.ie s.lCmd s.lArg s.busy s.resp false rest)⟩
  obtain ⟨rest, hfault, hhist, htree, hcodes, henc, hdec, hres, houtq⟩ := hpop
  obtain ⟨-, hengine⟩ :=
    sameEngine_hostSide s s.arg s.flags s.ie s.lCmd s.lArg s.busy s.resp s.rstAsserted rest
  exact ⟨hfault.errCode, hfault.errOp, hengine.histogram.trans hhist, hengine.tree.trans htree,
    hengine.codes.trans hcodes, hengine.encoder.trans henc, hengine.decoder.trans hdec, hres, houtq⟩

/-! ## The invariant (R43, R24) -/

section Invariant

variable {i : Instr} {s t : State}

/-- The invariant is the parts the engine's commands keep, and the queue, the fault registers and the latch. -/
theorem inv_of_engine (he : EngineInv s) (hq : QueueInv s) (hf : ErrorInv s) (hl : LatchInv s) : Inv s :=
  ⟨he.hist, hq, he.enc, hf, hl, he.tree, he.path, he.code, he.dec⟩

theorem engineInv_of_same (h : EngineInv s) (hk : KeepsEngine s t) : EngineInv t :=
  h.congr hk.histogram.freq hk.histogram.histTotal hk.encoder.encAcc hk.encoder.encNpend hk.tree.node
    hk.tree.nodeCount hk.tree.leafCount hk.tree.root hk.tree.treeSrc hk.codes.code hk.codes.codeMaxLen
    hk.decoder.decDone hk.decoder.decRemain hk.decoder.decNode hk.decoder.decActive

/-- All of the invariant but the latch rule speaks of engine state. -/
theorem inv_of_sameEngine (h : Inv s) (hk : SameEngine s t) (hl : LatchInv t) : Inv t := by
  have hq : QueueInv t := by
    rw [QueueInv, hk.engine.outq]
    exact h.queue
  exact inv_of_engine (engineInv_of_same h.engine hk.engine) hq
    (h.error.congr hk.fault.fault hk.fault.errCode hk.fault.errOp) hl

/-- R109: nothing is in flight after a completion, so the latch rule holds of it. -/
theorem latchInv_of_idle (h : s.busy = false) : LatchInv s :=
  ⟨fun _ hb => absurd hb (Bool.eq_false_iff.mp h), fun _ => h⟩

/-- R24: with no fault, ERROR is 0. -/
theorem errorInv_of_clear (hf : s.fault = false) (hc : s.errCode = 0) (ho : s.errOp = 0) : ErrorInv s :=
  ⟨fun _ => ⟨hc, ho⟩, fun h => absurd h (Bool.eq_false_iff.mp hf)⟩

theorem inv_takeFault (h : Inv s) (c : FaultCode) : Inv (takeFault c s) := by
  obtain ⟨-, -, -, -, hk⟩ := faulted_takeFault c s
  exact inv_of_engine (engineInv_of_same h.engine hk) h.queue ⟨fun hf => Bool.noConfusion hf, fun _ => ⟨c, rfl⟩⟩
    (latchInv_of_idle rfl)

theorem engineInv_commitOk {out : List Byte} (h : EngineInv s) : EngineInv (commitOk s out) :=
  h.congr rfl rfl rfl rfl rfl rfl rfl rfl rfl rfl rfl rfl rfl rfl rfl

/-- I7, R73: a commit pushes no more than OUTQ has room for. -/
theorem queueInv_commitOk {s' : State} {out : List Byte} (h : QueueInv s) (e : outcomeOf i s = .ok s' out)
    (hroom : out.length ≤ outqRoom s) : QueueInv (commitOk s' out) := by
  unfold outqRoom at hroom
  unfold QueueInv at h ⊢
  rw [commitOk_outq, List.length_append]
  rcases (outcome_keeps e).2 with ⟨-, hq, -⟩ | ⟨-, hq, -⟩ <;> rw [hq]
  · rw [List.length_nil]
    omega
  · omega

/-- R24: CLEAR clears ERROR with FAULT, and every other commit keeps both. -/
theorem errorInv_commitOk {s' : State} {out : List Byte} (h : ErrorInv s) (e : outcomeOf i s = .ok s' out) :
    ErrorInv (commitOk s' out) := by
  rcases (outcome_keeps e).2 with ⟨rfl, -⟩ | ⟨-, -, hf, hc, ho⟩
  · cases e
    exact errorInv_of_clear rfl rfl rfl
  · exact h.congr hf hc ho

theorem inv_exec (h : Inv s) (hexec : exec i s = .next t) : Inv t := by
  rcases exec_cases h hexec with ⟨s', out, e, hroom, rfl⟩ | ⟨-, -, -, -, rfl⟩ | ⟨c, -, rfl⟩
  · exact inv_of_engine (engineInv_commitOk (outcome_engine h.engine e)) (queueInv_commitOk h.queue e hroom)
      (errorInv_commitOk h.error e) (latchInv_of_idle rfl)
  · exact h
  · exact inv_takeFault h c

theorem inv_engineStep (h : Inv s) (hstep : engineStep s = .next t) : Inv t := by
  rcases engineStep_cases hstep with ⟨-, rfl⟩ | ⟨-, i, -, hexec⟩ | ⟨-, -, -, rfl⟩
  · exact h
  · exact inv_exec h hexec
  · exact inv_takeFault h .illegalCmd

/-- R120: a state with the reset values of the engine, with nothing in flight, satisfies the invariant, whatever the
node memory, the port and the environment hold. -/
theorem inv_resetWith (k : Nat) (r : Option Response) (rst : Bool) (ev : List Event) :
    Inv { State.resetWith k with resp := r, rstAsserted := rst, events := ev } :=
  inv_of_engine (cleared_engine rfl rfl rfl rfl rfl rfl rfl rfl rfl rfl rfl rfl) (Nat.zero_le _)
    (errorInv_of_clear rfl rfl rfl) (latchInv_of_idle rfl)

theorem inv_popOutq (h : Inv s) (r : Option Response) : Inv { popOutq s with resp := r } := by
  rcases popOutq_cases s with ⟨b, q, hq, hp⟩ | ⟨-, hp⟩ <;> rw [hp]
  · have hlen : q.length ≤ Config.outqDepth := by
      have hle : s.outq.length ≤ Config.outqDepth := h.queue
      rw [hq, List.length_cons] at hle
      omega
    exact inv_of_engine (h.engine.congr rfl rfl rfl rfl rfl rfl rfl rfl rfl rfl rfl rfl rfl rfl rfl) hlen
      (h.error.congr rfl rfl rfl) ⟨h.latch.fault_latch, h.latch.reset_idle⟩
  · exact inv_of_sameEngine h (sameEngine_hostUpdate s _ s.lCmd s.lArg s.busy r)
      ⟨h.latch.fault_latch, h.latch.reset_idle⟩

/-- R69, R109: an issue while FAULT = 1 latches NOP or CLEAR only, and out of reset. -/
theorem latchInv_issue {v : Word} (h : LatchInv s) (hs : s.rstAsserted = false) : LatchInv (issue v s) := by
  rcases issue_cases v s with ⟨-, hrun, hi⟩ | ⟨-, hi⟩ <;> rw [hi]
  · exact ⟨fun hf _ => hrun hf, fun hr => absurd hr (Bool.eq_false_iff.mp hs)⟩
  · exact ⟨h.fault_latch, h.reset_idle⟩

theorem latchInv_writeReg {g : Reg} {v : Word} (h : LatchInv s) (hs : s.rstAsserted = false) :
    LatchInv (writeReg g v s) := by
  rcases writeReg_cases g v s with ⟨-, hw⟩ | ⟨-, -, hw⟩ | ⟨-, hw⟩ | ⟨-, hw⟩ | ⟨i, -, hw⟩ | hw <;> rw [hw]
  · exact latchInv_issue h hs
  · exact latchInv_of_idle rfl
  · exact ⟨h.fault_latch, h.reset_idle⟩
  · exact ⟨h.fault_latch, h.reset_idle⟩
  · exact ⟨h.fault_latch, h.reset_idle⟩
  · exact h

theorem inv_writeReg {g : Reg} {v : Word} (h : Inv s) (hs : s.rstAsserted = false) (r : Option Response) :
    Inv { writeReg g v s with resp := r } := by
  by_cases hreset : g = .ctrl ∧ v.getLsbD 0 = true
  · obtain ⟨rfl, hv⟩ := hreset
    rw [writeReg, if_pos hv]
    exact inv_resetWith s.draws r false s.events
  · have hsame : SameEngine s { writeReg g v s with resp := r } :=
      sameEngine_writeReg s r fun hg => Bool.eq_false_iff.mpr fun hv => hreset ⟨hg, hv⟩
    have hl := latchInv_writeReg (g := g) (v := v) h.latch hs
    exact inv_of_sameEngine h hsame ⟨hl.fault_latch, hl.reset_idle⟩

theorem inv_busAccess (h : Inv s) (a : Access) : Inv (busAccess a s) := by
  obtain ⟨r, hb | hb | ⟨g, v, hs, hb⟩⟩ := busAccess_cases a s <;> rw [hb]
  · exact inv_of_sameEngine h (sameEngine_hostUpdate s s.flags s.lCmd s.lArg s.busy r)
      ⟨h.latch.fault_latch, h.latch.reset_idle⟩
  · exact inv_popOutq h r
  · exact inv_writeReg h hs r

end Invariant

/-- Settles O46. -/
theorem invariantHoldsAtReset : Obligations.InvariantHoldsAtReset :=
  ⟨inv_resetWith 0 none false [], fun k => inv_resetWith k none false []⟩

/-- Settles O47: a step answers a next state, and each of its four kinds keeps the invariant. -/
theorem everyStepKeepsTheInvariant : Obligations.EveryStepKeepsTheInvariant := by
  intro s hinv
  obtain ⟨t, hstep⟩ := step_next s
  refine ⟨t, hstep, ?_⟩
  have hrest (rest : List Event) : Inv { s with events := rest } :=
    inv_of_sameEngine hinv (sameEngine_hostSide s s.arg s.flags s.ie s.lCmd s.lArg s.busy s.resp s.rstAsserted rest)
      ⟨hinv.latch.fault_latch, hinv.latch.reset_idle⟩
  rcases step_cases hstep with ⟨rest, -, heng⟩ | ⟨a, rest, -, rfl⟩ | ⟨rest, -, rfl⟩ | ⟨rest, -, rfl⟩
  · exact inv_engineStep (hrest rest) heng
  · exact inv_busAccess (hrest rest) a
  · exact inv_resetWith s.draws none true rest
  · exact inv_of_sameEngine hinv (sameEngine_hostSide s s.arg s.flags s.ie s.lCmd s.lArg s.busy s.resp false rest)
      ⟨hinv.latch.fault_latch, fun h => Bool.noConfusion h⟩

end Sys2Proof.Proofs
end

section
/-! The register window (R18 to R34, R47, R48, R50) and the reset values (R17, R122): what each read gives and what
each write does, then the statements. -/

namespace Sys2Proof.Proofs

open Sys2Proof.Machine Sys2Proof.Laws

/-! ## Identification (R22) and reserved offsets (R47) -/

/-- Settles O49. -/
theorem identificationIsConstant : Obligations.IdentificationIsConstant := fun _ hs =>
  ⟨busAccess_read_pure hs rfl (r := .id) rfl (by decide), busAccess_read_pure hs rfl (r := .version) rfl (by decide),
    busAccess_write hs rfl (r := .id) rfl, busAccess_write hs rfl (r := .version) rfl⟩

/-- The registers a write acts on (R50): CMD, CTRL, FLAGS, IE and the argument file. -/
def writable : Reg → Bool
  | .cmd | .ctrl | .flags | .ie | .arg _ => true
  | _ => false

/-- R47: every other register ignores a write. -/
theorem writeReg_of_not_writable {g : Reg} (hg : writable g = false) (v : Word) (s : State) : writeReg g v s = s := by
  rcases writeReg_cases g v s with ⟨rfl, -⟩ | ⟨rfl, -⟩ | ⟨rfl, -⟩ | ⟨rfl, -⟩ | ⟨i, rfl, -⟩ | hw
  · cases hg
  · cases hg
  · cases hg
  · cases hg
  · cases hg
  · exact hw

/-- R21: the registers from 0x10 to 0x3C are the ones a write acts on; from 0xAC up every offset is reserved. -/
theorem atOffset_ranges : ∀ off : Byte, off.toNat % 4 = 0 →
    (off.toNat < 0x10 ∨ 0x40 ≤ off.toNat → writable (Reg.atOffset off) = false) ∧
    (0xAC ≤ off.toNat → Reg.atOffset off = .reserved) := by
  decide

/-- R47: an aligned write outside 0x10 to 0x3C changes nothing but the response. -/
theorem busAccess_write_ignored {s : State} {off : Byte} (hs : s.rstAsserted = false) (ho : off.toNat % 4 = 0)
    (h : off.toNat < 0x10 ∨ 0x40 ≤ off.toNat) (v : Word) :
    busAccess (.write off 4 v) s = { s with resp := some ⟨true, none⟩ } := by
  rw [busAccess_write hs ho rfl, writeReg_of_not_writable ((atOffset_ranges off ho).1 h)]

/-- Settles O55. -/
theorem reservedOffsetsReadZero : Obligations.ReservedOffsetsReadZero := fun _ off hs ho =>
  ⟨fun h => busAccess_read_pure hs ho ((atOffset_ranges off ho).2 h) (by decide), busAccess_write_ignored hs ho⟩

/-! ## The count registers (R24, R30 to R34) -/

theorem zeroExtend_toNat {n : Nat} (k : Nat) (x : BitVec n) : (0#k ++ x).toNat = x.toNat := by
  rw [toNat_append_add, BitVec.toNat_ofNat, Nat.zero_mod, Nat.zero_mul, Nat.zero_add]

theorem lowWord_toNat (x : Long) : (x.extractLsb' 0 32).toNat = x.toNat % 2 ^ 32 := by
  rw [BitVec.extractLsb'_toNat, Nat.shiftRight_zero]

theorem highWord_toNat (x : Long) : (x.extractLsb' 32 32).toNat = x.toNat / 2 ^ 32 := by
  have hx := x.isLt
  rw [BitVec.extractLsb'_toNat, Nat.shiftRight_eq_div_pow]
  exact Nat.mod_eq_of_lt (by omega)

theorem errorWord_toNat (s : State) : (errorWord s).toNat = s.errOp.toNat * 2 ^ 8 + s.errCode.toNat := by
  rw [errorWord, toNat_append_add, zeroExtend_toNat]

theorem encPendingWord_toNat (s : State) : (encPendingWord s).toNat = s.encAcc.toNat * 2 ^ 8 + s.encNpend.toNat := by
  rw [encPendingWord, toNat_append_add, toNat_append_add, zeroExtend_toNat]
  simp
  omega

/-- R30: the nine bits of HIST_DISTINCT hold every count of symbols. -/
theorem histDistinctWord_toNat (s : State) : (regValue .histDistinct s).toNat =
    (List.range 256).countP (fun k => freqAt s (BitVec.ofNat 8 k) != 0) := by
  have hle : (List.range 256).countP (fun k => freqAt s (BitVec.ofNat 8 k) != 0) ≤ 256 :=
    List.countP_le_length.trans_eq List.length_range
  rw [regValue, zeroExtend_toNat, histDistinct_eq]
  exact toNat_ofNat_index (by unfold freqAt at hle; omega)

/-- Settles O52: each count register's word as a number; the write ranges lie in those R47 ignores. -/
theorem countRegistersReadTheirState : Obligations.CountRegistersReadTheirState := by
  intro s hs
  have hread {off : Byte} {n : Nat} (r : Reg) (ho : off.toNat % 4 = 0) (hr : Reg.atOffset off = r)
      (hp : r ≠ .outData) (hn : (regValue r s).toNat = n) :
      ∃ v : Word, busAccess (.read off 4) s = { s with resp := some ⟨true, some v⟩ } ∧ v.toNat = n :=
    ⟨_, busAccess_read_pure hs ho hr hp, hn⟩
  refine ⟨hread .error rfl rfl (by decide) (errorWord_toNat s), hread .histTotal rfl rfl (by decide) rfl,
    hread .histDistinct rfl rfl (by decide) (histDistinctWord_toNat s),
    hread .nodeCount rfl rfl (by decide) (zeroExtend_toNat ..), hread .leafCount rfl rfl (by decide) (zeroExtend_toNat ..),
    hread .root rfl rfl (by decide) (zeroExtend_toNat ..), hread .codeMaxLen rfl rfl (by decide) (zeroExtend_toNat ..),
    hread .costLo rfl rfl (by decide) (lowWord_toNat _), hread .costHi rfl rfl (by decide) (highWord_toNat _),
    hread .encBitcntLo rfl rfl (by decide) (lowWord_toNat _), hread .encBitcntHi rfl rfl (by decide) (highWord_toNat _),
    hread .encPending rfl rfl (by decide) (encPendingWord_toNat s),
    hread .decRemainLo rfl rfl (by decide) (lowWord_toNat _), hread .decRemainHi rfl rfl (by decide) (highWord_toNat _),
    hread .decNode rfl rfl (by decide) (zeroExtend_toNat ..),
    hread .decSymcntLo rfl rfl (by decide) (lowWord_toNat _), hread .decSymcntHi rfl rfl (by decide) (highWord_toNat _),
    fun off v hoff ho => busAccess_write_ignored hs ho ?_ v⟩
  rcases hoff with rfl | hoff
  · exact .inl (by decide)
  · exact .inr (by omega)

/-! ## The host's registers (R18, R19, R25 to R28) -/

theorem atOffset_arg : ∀ i : Fin 8, (BitVec.ofNat 8 (0x20 + 4 * i.val)).toNat % 4 = 0 ∧
    Reg.atOffset (BitVec.ofNat 8 (0x20 + 4 * i.val)) = .arg i := by
  decide

theorem atOffset_res : ∀ i : Fin 9, (BitVec.ofNat 8 (0x40 + 4 * i.val)).toNat % 4 = 0 ∧
    Reg.atOffset (BitVec.ofNat 8 (0x40 + 4 * i.val)) = .res i := by
  decide

/-- R25: a write of v clears flag k where v[k] = 1. -/
theorem clearWritten_getLsbD (f : BitVec 3) (v : Word) {k : Nat} (hk : k < 3) :
    (clearWritten f v).getLsbD k = (f.getLsbD k && !v.getLsbD k) := by
  simp [clearWritten, hk]

theorem zeroExtend_eq_setWidth {k n : Nat} (x : BitVec n) : 0#k ++ x = x.setWidth (k + n) := by
  apply BitVec.eq_of_toNat_eq
  rw [zeroExtend_toNat, BitVec.toNat_setWidth_of_le (by omega)]

/-- Settles O53. -/
theorem hostRegistersActAsTyped : Obligations.HostRegistersActAsTyped := by
  intro s hs wr rd
  dsimp only [wr, rd]
  refine ⟨fun i => ?_, fun i => ?_, ?_, fun v => ?_, ?_, fun v => ?_, ?_, fun v hv => ?_, ?_⟩
  · obtain ⟨ho, hr⟩ := atOffset_arg i
    refine ⟨busAccess_read_pure hs ho hr nofun, fun v => ?_⟩
    rw [busAccess_write hs ho hr, writeReg]
    refine ⟨Vector.getElem_set_self i.isLt, fun j hj => ?_, rfl⟩
    exact Vector.getElem_set_ne i.isLt j.isLt fun h => hj (Fin.ext h.symm)
  · obtain ⟨ho, hr⟩ := atOffset_res i
    exact ⟨busAccess_read_pure hs ho hr nofun, fun v => by rw [busAccess_write hs ho hr, writeReg]⟩
  · rw [← zeroExtend_eq_setWidth (k := 29)]
    exact busAccess_read_pure hs rfl (r := .flags) rfl nofun
  · rw [busAccess_write hs rfl (r := .flags) rfl]
    exact ⟨rfl, fun k hk => clearWritten_getLsbD s.flags v hk⟩
  · rw [← zeroExtend_eq_setWidth (k := 28)]
    exact busAccess_read_pure hs rfl (r := .ie) rfl nofun
  · rw [busAccess_write hs rfl (r := .ie) rfl, writeReg, BitVec.setWidth_eq_extractLsb' (by decide)]
  · exact busAccess_read_pure hs rfl (r := .ctrl) rfl nofun
  · rw [busAccess_write hs rfl (r := .ctrl) rfl, writeReg, hv, if_neg Bool.false_ne_true]
  · exact busAccess_read_pure hs rfl (r := .cmd) rfl nofun

/-! ## Reset values (R17, R21) and CLEAR (R77, R122) -/

section Replicate

theorem freqAt_of_replicate {s : State} (h : s.freq = Vector.replicate 256 0) (b : Byte) : freqAt s b = 0 := by
  rw [freqAt]
  simp only [h, Vector.getElem_replicate]

theorem codeOf_of_replicate {s : State} (h : s.code = Vector.replicate 256 CodeEntry.invalid) (b : Byte) :
    codeOf s b = ⟨false, []⟩ := by
  rw [codeOf]
  simp only [h, Vector.getElem_replicate, CodeEntry.invalid]

end Replicate

/-- Settles O57: each register's word of the reset state. -/
theorem resetValues : Obligations.ResetValues := by
  intro k
  have hfreq : ∀ b, freqAt (State.resetWith k) b = 0 := freqAt_of_replicate rfl
  have hirq : irq (State.resetWith k) = false := by
    rw [irq, resetWith_flags, resetWith_ie, resetWith_fault]
    decide
  have hdistinct : histDistinct (State.resetWith k) = 0 := (histDistinct_eq_zero _).mpr hfreq
  have hcodes : codesValid (State.resetWith k) = false :=
    (status_codesValid _).symm.trans (status_codesValid_eq_false ⟨codeOf_of_replicate rfl, rfl, rfl⟩)
  refine ⟨fun r => ?_, hfreq, codeOf_of_replicate rfl, rfl, rfl, rfl, fun i => Vector.getElem_replicate .., hirq⟩
  cases r with
  | status => simp [regValue, statusWord, hirq, hdistinct, hcodes, TreeSource.bit, Config.outqDepth]
  | arg i => exact Vector.getElem_replicate ..
  | res i => exact Vector.getElem_replicate ..
  | histDistinct =>
    rw [regValue, hdistinct]
    decide
  | _ => simp [regValue, errorWord, encPendingWord, outDataWord, Config.nil, Config.idValue, Config.versionValue]

/-- R77: CLEAR's commit leaves no tree, no code and a cleared decoder. -/
theorem treeCleared_clear (s : State) : TreeCleared (commitOk (leaveFault s) []) :=
  ⟨rfl, rfl, rfl, rfl, ⟨codeOf_of_replicate rfl, rfl, rfl⟩, ⟨rfl, rfl, rfl, rfl, rfl⟩⟩

/-- R69: CLEAR's word is dropped by BUSY alone. -/
theorem issue_clear {s : State} (hb : s.busy = false) : issue 0x01000000 s = latchCommand 0x01000000 s :=
  issue_eq_latchCommand fun h => h.elim (fun hbusy => Bool.eq_false_iff.mp hb hbusy) fun h => h.2.2 rfl

/-- Settles O16: the commit is of `clearEngine`, which holds the engine's reset values. -/
theorem clearRestoresEngineResetValues : Obligations.ClearRestoresEngineResetValues := by
  refine ⟨rfl, fun s => ?_, fun s hb => ?_, fun s hb => issue_eq_dropped (.inl hb)⟩
  · obtain ⟨hexec, hdone⟩ := exec_ok_nil (i := .clear) (s := s) rfl
    exact ⟨_, hexec, hdone, rfl, rfl, rfl, freqAt_of_replicate rfl, rfl, treeCleared_clear s, rfl, rfl, rfl, rfl,
      fun i => Vector.getElem_replicate .., rfl⟩
  · rw [issue_clear hb]
    exact ⟨rfl, rfl⟩

/-- R23, R122: every STATUS bit but the level of irq reads after CLEAR as after a reset. -/
theorem status_clear_eq_reset (s : State) (k : Nat) : ∀ j, j ≠ 10 →
    (statusWord (commitOk (leaveFault s) [])).getLsbD j = (statusWord (State.resetWith k)).getLsbD j
  | 0, _ => (status_busy _).trans (status_busy (State.resetWith k)).symm
  | 1, _ => (status_fault _).trans (status_fault (State.resetWith k)).symm
  | 2, _ => (status_treeValid _).trans (status_treeValid (State.resetWith k)).symm
  | 3, _ => (status_codesValid _).trans (status_codesValid (State.resetWith k)).symm
  | 4, _ => (status_treeLoaded _).trans (status_treeLoaded (State.resetWith k)).symm
  | 5, _ => (status_histEmpty _).trans (status_histEmpty (State.resetWith k)).symm
  | 6, _ => (status_decActive _).trans (status_decActive (State.resetWith k)).symm
  | 7, _ => (status_decDone _).trans (status_decDone (State.resetWith k)).symm
  | 8, _ => (status_outEmpty _).trans (status_outEmpty (State.resetWith k)).symm
  | 9, _ => (status_outFull _).trans (status_outFull (State.resetWith k)).symm
  | 10, h => absurd rfl h
  | _ + 11, _ => (status_zero _ _ (Nat.le_add_left ..)).trans (status_zero _ _ (Nat.le_add_left ..)).symm

/-- R25: a completion sets bit 0 of the FLAGS word and keeps the others. -/
theorem flagsWord_withCmdDone (f : BitVec 3) (j : Nat) :
    (0#29 ++ withCmdDone f).getLsbD j = (decide (j = 0) || (0#29 ++ f).getLsbD j) := by
  rw [zeroExtend_eq_setWidth, zeroExtend_eq_setWidth, withCmdDone]
  cases j <;> simp

/-- Settles O59: after CLEAR the engine's registers have their reset values and the host's are as before, but for
CMD_DONE. -/
theorem clearDiffersFromResetInTheHostFiles : Obligations.ClearDiffersFromResetInTheHostFiles := by
  intro s k
  obtain ⟨hexec, -⟩ := exec_ok_nil (i := .clear) (s := s) rfl
  refine ⟨_, hexec, fun r hstatus hflags hie harg => ?_, status_clear_eq_reset s k, rfl, fun i => rfl, fun j hj => ?_,
    flagsWord_withCmdDone s.flags 0⟩
  · cases r with
    | status => exact absurd rfl hstatus
    | flags => exact absurd rfl hflags
    | ie => exact absurd rfl hie
    | arg i => exact absurd rfl (harg i)
    | _ => rfl
  · exact (flagsWord_withCmdDone s.flags j).trans (by rw [decide_eq_false hj, Bool.false_or]; rfl)

end Sys2Proof.Proofs
end

section
/-! An input counted byte by byte (R78). -/

namespace Sys2Proof.Proofs

open Sys2Proof.Machine Sys2Proof.Laws

theorem execAll_cons {i : Instr} {is : List Instr} {s t : State} (h : exec i s = .next t) :
    execAll (i :: is) s = execAll is t := by
  simp only [execAll, h]

/-- One HIST_BYTE for each byte of x adds its counts, as long as HIST_TOTAL does not overflow. -/
theorem execAll_histByte (x : List Byte) {s : State} (hinv : HistInv s)
    (hlen : s.histTotal.toNat + x.length ≤ 2 ^ 32 - 1) :
    ∃ t, execAll (x.map .histByte) s = .next t ∧ KeepsFault s t ∧
      (∀ b, (freqAt t b).toNat = (freqAt s b).toNat + x.count b) ∧
      t.histTotal.toNat = s.histTotal.toNat + x.length := by
  induction x generalizing s with
  | nil => exact ⟨s, rfl, .refl s, fun _ => rfl, rfl⟩
  | cons a x ih =>
    rw [List.length_cons] at hlen
    have hroom : s.histTotal.toNat + (1 : Word).toNat ≤ 2 ^ 32 - 1 := by
      change s.histTotal.toNat + 1 ≤ 2 ^ 32 - 1
      omega
    have hok := addCount_eq_ok (b := a) hroom
    have htotal : (commitOk (withCount a 1 s) []).histTotal.toNat = s.histTotal.toNat + 1 :=
      withCount_histTotal_toNat (b := a) hroom
    obtain ⟨t, hexec, hfault, hfreq, ht⟩ :=
      ih (s := commitOk (withCount a 1 s) []) ((addCount_hist hinv hok).congr rfl rfl) (by omega)
    refine ⟨t, ?_, ⟨hfault.fault, hfault.errCode, hfault.errOp⟩, fun b => (hfreq b).trans ?_, by rw [ht, htotal, List.length_cons]; omega⟩
    · rw [List.map_cons, execAll_cons (exec_ok_nil (i := .histByte a) hok).1, hexec]
    · by_cases hb : b = a
      · subst hb
        have hone : (freqAt (commitOk (withCount b 1 s) []) b).toNat = (freqAt s b).toNat + 1 :=
          freqAt_withCount_toNat hinv hroom
        rw [hone, List.count_cons_self]
        omega
      · have hsame : freqAt (commitOk (withCount a 1 s) []) b = freqAt s b := freqAt_withCount_other hb
        rw [hsame, List.count_cons_of_ne (Ne.symm hb)]

/-- Settles O21: HIST_CLEAR leaves an empty histogram, on which the bytes count exactly. -/
theorem histogramCountsItsInput : Obligations.HistogramCountsItsInput := by
  intro s x hlen
  obtain ⟨hexec, -⟩ := exec_ok_nil (i := .histClear) (s := s) rfl
  obtain ⟨t, hall, hfault, hfreq, htotal⟩ := execAll_histByte x
    (s := commitOk { s with freq := Vector.replicate 256 0, histTotal := 0 } []) (zero_hist rfl rfl)
    (by simpa using hlen)
  refine ⟨t, by rw [execAll_cons hexec, hall], ⟨hfault.fault, hfault.errCode, hfault.errOp⟩, fun b => ?_, ?_⟩
  · rw [hfreq b, freqAt_of_replicate rfl]
    exact Nat.zero_add _
  · rw [htotal]
    exact Nat.zero_add _

end Sys2Proof.Proofs
end

section
/-! BUILD_TREE (R84 to R86): the counts and the nodes of the tree it leaves, then the statements on it. -/

namespace Sys2Proof.Proofs

open Sys2Proof.Machine Sys2Proof.Laws

/-! ## The priority queue (R84) -/

/-- Settles O25: no key is below the one taken, and its index is the only one it shares a FREQ with. -/
theorem extractMinTakesTheLeastKey : Obligations.ExtractMinTakesTheLeastKey := by
  intro q hnodup hne
  obtain ⟨x, q', hmin⟩ := extractMin_isSome hne
  have hperm := extractMin_perm hmin
  obtain ⟨-, -, hleast⟩ := extractMin_spec hmin
  refine ⟨x, q', hmin, hperm, fun z hz => ?_⟩
  have hidx : x.idx ≠ z.idx := by
    have hnd : (x.idx :: q'.map Key.idx).Nodup := (hperm.map Key.idx).nodup_iff.mp hnodup
    intro h
    exact (List.nodup_cons.mp hnd).1 (h ▸ List.mem_map_of_mem hz)
  have hz' : z ∈ q := hperm.mem_iff.mpr (List.mem_cons_of_mem x hz)
  exact (Key.less_iff x z).mp (less_of_not_less (hleast z hz') hidx)

/-- Each round of the merge loop adds one node. -/
theorem length_mergeLoop (rounds : Nat) {n : List NodeEntry} {q : List Key} (hq : q.length = rounds + 1) :
    (mergeLoop rounds n q).length = n.length + rounds := by
  induction rounds generalizing n q with
  | zero => rfl
  | succ r ih =>
    obtain ⟨x, q1, h1⟩ := extractMin_isSome (q := q) (List.ne_nil_of_length_eq_add_one hq)
    have hq1 : q1.length = r + 1 := by
      have hlen := (extractMin_perm h1).length_eq
      rw [List.length_cons] at hlen
      omega
    obtain ⟨y, q2, h2⟩ := extractMin_isSome (q := q1) (List.ne_nil_of_length_eq_add_one hq1)
    have hq2 : q2.length = r := by
      have hlen := (extractMin_perm h2).length_eq
      rw [List.length_cons] at hlen
      omega
    simp only [mergeLoop, h1, h2]
    rw [ih (by simp [hq2]), List.length_append, List.length_singleton]
    omega

/-! ## The leaves (R85) -/

section Leaves

variable {s : State}

theorem mem_histogramLeaves {e : NodeEntry} :
    e ∈ histogramLeaves s ↔ ∃ b, freqAt s b ≠ 0 ∧ e = leafNode b (freqAt s b) := by
  rw [histogramLeaves_eq, mem_countLeaves]
  constructor
  · rintro ⟨i, hi, hne, rfl⟩
    have hi256 : i < 256 := by simpa using hi
    have hbyte : (BitVec.ofNat 8 i : Byte).toNat = i := (BitVec.toNat_ofNat ..).trans (Nat.mod_eq_of_lt hi256)
    refine ⟨BitVec.ofNat 8 i, ?_, ?_⟩
    · simpa only [freqAt, hbyte, Vector.getElem_toList] using hne
    · simp only [freqAt, hbyte, Vector.getElem_toList, Nat.zero_add]
  · rintro ⟨b, hne, rfl⟩
    refine ⟨b.toNat, by simpa using b.isLt, by simpa only [Vector.getElem_toList, freqAt] using hne, ?_⟩
    simp only [Vector.getElem_toList, Nat.zero_add, BitVec.ofNat_toNat, BitVec.setWidth_eq, freqAt]

/-- One leaf for each symbol present. -/
theorem length_histogramLeaves (s : State) : (histogramLeaves s).length = histDistinct s :=
  length_countLeaves s.freq.toList 0

theorem histogramLeaves_eq_nil_iff : histogramLeaves s = [] ↔ ∀ b, freqAt s b = 0 := by
  rw [← List.length_eq_zero_iff, length_histogramLeaves]
  exact histDistinct_eq_zero s

theorem histogramLeaves_ne_nil (h : ∃ b, freqAt s b ≠ 0) : histogramLeaves s ≠ [] := by
  obtain ⟨b, hb⟩ := h
  exact fun hnil => hb (histogramLeaves_eq_nil_iff.mp hnil b)

/-- The leaves of the tree: those of the symbols, and the synthetic one beside a single symbol. -/
def treeLeaves (s : State) : List NodeEntry := startNodes (histogramLeaves s)

/-- The nodes of the tree in index order. -/
def treeNodes (s : State) : List NodeEntry := huffmanNodes (histogramLeaves s)

theorem treeLeaves_eq (s : State) : treeLeaves s = histogramLeaves s ++ if histDistinct s = 1 then [synthNode] else [] := by
  rw [treeLeaves, startNodes, length_histogramLeaves]
  split
  · rfl
  · rw [List.append_nil]

/-- R86 (a): max(n, 2) leaves. -/
theorem length_treeLeaves (h : histogramLeaves s ≠ []) : (treeLeaves s).length = max (histDistinct s) 2 := by
  have hpos := List.length_pos_iff.mpr h
  rw [length_histogramLeaves] at hpos
  rw [treeLeaves_eq, List.length_append, length_histogramLeaves]
  split
  · rw [List.length_singleton]
    omega
  · rw [List.length_nil]
    omega

theorem length_treeLeaves_le (h : histogramLeaves s ≠ []) : 2 ≤ (treeLeaves s).length ∧ (treeLeaves s).length ≤ 256 := by
  obtain ⟨-, hlo, hhi, -⟩ := startNodes_spec h
  exact ⟨hlo, hhi⟩

/-- R86 (a): 2L - 1 nodes over L leaves. -/
theorem length_treeNodes (h : histogramLeaves s ≠ []) : (treeNodes s).length + 1 = 2 * (treeLeaves s).length := by
  obtain ⟨hlo, -⟩ := length_treeLeaves_le h
  have hq : (startQueue (treeLeaves s)).length = (treeLeaves s).length - 1 + 1 := by
    rw [startQueue, List.length_map, List.length_zipIdx]
    omega
  have hlen : (treeNodes s).length = (treeLeaves s).length + ((treeLeaves s).length - 1) := length_mergeLoop _ hq
  omega

end Leaves

/-! ## The state BUILD_TREE leaves -/

/-- The state after BUILD_TREE of a histogram that is not empty. -/
def builtTree (s : State) : State := commitOk (withBuiltTree (treeNodes s) (treeLeaves s).length s) []

section Built

variable {s : State}

theorem exec_buildTree (h : histogramLeaves s ≠ []) :
    exec .buildTree s = .next (builtTree s) ∧ Completed s (builtTree s) := by
  rcases buildTree_ok s with ⟨hnil, -⟩ | ⟨-, hok⟩
  · exact absurd hnil h
  · exact exec_ok_nil hok

theorem exec_buildTree_empty (h : histogramLeaves s = []) :
    exec .buildTree s = .next (commitOk (clearTree s) []) ∧ Completed s (commitOk (clearTree s) []) := by
  rcases buildTree_ok s with ⟨-, hok⟩ | ⟨hne, -⟩
  · exact exec_ok_nil hok
  · exact absurd h hne

/-- R85: what BUILD_TREE keeps. -/
theorem commitOk_withBuiltTree_frame (n : List NodeEntry) (leaves : Nat) (s : State) :
    let t := commitOk (withBuiltTree n leaves s) []
    KeepsFault s t ∧ KeepsHistogram s t ∧ KeepsEncoder s t ∧ t.res = s.res ∧ t.outq = s.outq :=
  ⟨⟨rfl, rfl, rfl⟩, ⟨rfl, rfl⟩, ⟨rfl, rfl, rfl⟩, rfl, List.append_nil _⟩

theorem builtTree_frame (s : State) : KeepsFault s (builtTree s) ∧ KeepsHistogram s (builtTree s) ∧
    KeepsEncoder s (builtTree s) ∧ (builtTree s).res = s.res ∧ (builtTree s).outq = s.outq :=
  commitOk_withBuiltTree_frame ..

section Counts

variable (h : histogramLeaves s ≠ [])
include h

theorem length_treeNodes_le : (treeNodes s).length ≤ 511 := by
  have hlen := length_treeNodes h
  obtain ⟨-, hhi⟩ := length_treeLeaves_le h
  omega

theorem builtTree_nodeCount_toNat : (builtTree s).nodeCount.toNat = (treeNodes s).length :=
  toNat_ofNat_index (Nat.lt_succ_of_le (length_treeNodes_le h))

theorem builtTree_leafCount_toNat : (builtTree s).leafCount.toNat = (treeLeaves s).length := by
  obtain ⟨-, hhi⟩ := length_treeLeaves_le h
  exact toNat_ofNat_index (by omega)

theorem builtTree_root_toNat : (builtTree s).root.toNat = (treeNodes s).length - 1 := by
  have hle := length_treeNodes_le h
  exact toNat_ofNat_index (by omega)

theorem allocated_builtTree_iff {i : Index} : Allocated (builtTree s) i ↔ i.toNat < (treeNodes s).length := by
  rw [Allocated, builtTree_nodeCount_toNat h]

theorem builtTree_nodeCount_ne_zero : (builtTree s).nodeCount ≠ 0 := by
  have hcount := builtTree_nodeCount_toNat h
  have hlen := length_treeNodes h
  obtain ⟨hlo, -⟩ := length_treeLeaves_le h
  intro h0
  rw [h0] at hcount
  change 0 = _ at hcount
  omega

theorem nodeAt_builtTree {i : Index} (hi : i.toNat < (treeNodes s).length) :
    nodeAt (builtTree s).node i = (treeNodes s)[i.toNat] :=
  (nodeAt_writeNodes s.node (length_treeNodes_le h) i).trans (dif_pos hi)

end Counts

end Built

/-- Settles O22: with no leaf BUILD_TREE does what TREE_CLEAR does. -/
theorem buildTreeOfNothingIsNoTree : Obligations.BuildTreeOfNothingIsNoTree := by
  intro s hzero
  obtain ⟨hexec, hdone⟩ := exec_buildTree_empty (histogramLeaves_eq_nil_iff.mpr hzero)
  exact ⟨_, hexec, hdone, treeCleared_commitOk_clearTree s, commitOk_clearTree_frame s⟩

/-- Settles O23: the counts are the lengths of the lists of leaves and nodes. -/
theorem buildTreeCountsNodes : Obligations.BuildTreeCountsNodes := by
  intro s hpresent
  have hne := histogramLeaves_ne_nil hpresent
  obtain ⟨hexec, hdone⟩ := exec_buildTree hne
  obtain ⟨hfault, hhist, henc, hres, houtq⟩ := builtTree_frame s
  have hleaves := length_treeLeaves hne
  have hnodes := length_treeNodes hne
  have hcount : (builtTree s).nodeCount.toNat = 2 * max (histDistinct s) 2 - 1 := by
    rw [builtTree_nodeCount_toNat hne]
    omega
  have hroot : (builtTree s).root.toNat = (builtTree s).nodeCount.toNat - 1 := by
    rw [builtTree_root_toNat hne, builtTree_nodeCount_toNat hne]
  exact ⟨_, hexec, hdone, (builtTree_leafCount_toNat hne).trans hleaves, hcount, hroot, rfl,
    ⟨codeOf_of_replicate rfl, rfl, rfl⟩, ⟨rfl, rfl, rfl, rfl, rfl⟩, hfault, hhist, henc, hres, houtq⟩

end Sys2Proof.Proofs
end

section
/-! The Huffman tree in node memory (R85 to R87, R92): its leaves, its shape and its merges, then the statements. -/

namespace Sys2Proof.Proofs

open Sys2Proof.Machine Sys2Proof.Laws

section Leaves

variable {s : State}

theorem histogramLeaf_real {e : NodeEntry} (he : e ∈ histogramLeaves s) : e.leaf = true ∧ e.synth = false := by
  obtain ⟨b, -, rfl⟩ := mem_histogramLeaves.mp he
  exact ⟨rfl, rfl⟩

/-- R85: the leaves of the symbols come first; what follows a single one is the synthetic leaf, at index 1. -/
theorem getElem_treeLeaves_cases {i : Nat} (hi : i < (treeLeaves s).length) :
    (∃ hi' : i < (histogramLeaves s).length, (treeLeaves s)[i] = (histogramLeaves s)[i]) ∨
    ((treeLeaves s)[i] = synthNode ∧ histDistinct s = 1 ∧ i = 1) := by
  have hlen := length_histogramLeaves s
  simp only [treeLeaves_eq, List.length_append] at hi ⊢
  by_cases hlt : i < (histogramLeaves s).length
  · exact .inl ⟨hlt, List.getElem_append_left hlt⟩
  · right
    split at hi
    · next hone =>
      rw [List.length_singleton] at hi
      obtain rfl : i = 1 := by omega
      refine ⟨?_, hone, rfl⟩
      simp only [if_pos hone]
      rw [List.getElem_append_right (by omega)]
      simp only [hlen, hone, Nat.sub_self, List.getElem_cons_zero]
    · rw [List.length_nil] at hi
      omega

theorem length_histogramLeaves_le_treeNodes (h : histogramLeaves s ≠ []) :
    (histogramLeaves s).length ≤ (treeLeaves s).length ∧ (treeLeaves s).length ≤ (treeNodes s).length := by
  have hleaves := length_treeLeaves h
  have hnodes := length_treeNodes h
  rw [← length_histogramLeaves] at hleaves
  omega

end Leaves

section Tree

variable {s : State} (hinv : HistInv s) (h : histogramLeaves s ≠ [])
include hinv h

theorem treeInv_builtTree : TreeInv (builtTree s) := by
  rcases buildTree_ok s with ⟨hnil, -⟩ | ⟨-, hok⟩
  · exact absurd hnil h
  · exact (buildTree_parts hinv hok).1.congr rfl rfl rfl rfl rfl

theorem pathInv_builtTree : PathInv (builtTree s) := by
  rcases buildTree_ok s with ⟨hnil, -⟩ | ⟨-, hok⟩
  · exact absurd hnil h
  · exact (buildTree_parts hinv hok).2.1.congr rfl rfl rfl

/-- The leaves stand first (R85). -/
theorem nodeAt_builtTree_leaf {i : Index} (hi : i.toNat < (treeLeaves s).length) :
    nodeAt (builtTree s).node i = (treeLeaves s)[i.toNat] := by
  obtain ⟨k, hforest, -⟩ := huffmanNodes_forest hinv h
  rw [nodeAt_builtTree h (hi.trans_le hforest.lv_le)]
  exact hforest.getElem_leaf hi

theorem nodeAt_builtTree_real {i : Index} (hi : i.toNat < (histogramLeaves s).length) :
    nodeAt (builtTree s).node i = (histogramLeaves s)[i.toNat] := by
  have hlt := hi.trans_le (length_histogramLeaves_le_treeNodes h).1
  rw [nodeAt_builtTree_leaf hinv h hlt]
  rcases getElem_treeLeaves_cases hlt with ⟨_, heq⟩ | ⟨-, hone, hi1⟩
  · exact heq
  · rw [length_histogramLeaves] at hi
    omega

theorem leaf_builtTree_iff {i : Index} (hi : Allocated (builtTree s) i) :
    (nodeAt (builtTree s).node i).leaf = true ↔ i.toNat < (treeLeaves s).length := by
  obtain ⟨k, hforest, -⟩ := huffmanNodes_forest hinv h
  obtain ⟨hchildless, -⟩ := startNodes_spec h
  constructor
  · intro hleaf
    by_contra hge
    have hi' := (allocated_builtTree_iff h).mp hi
    rw [nodeAt_builtTree h hi'] at hleaf
    exact Bool.eq_false_iff.mp (hforest.inner i.toNat (Nat.not_lt.mp hge) hi').1 hleaf
  · intro hlt
    rw [nodeAt_builtTree_leaf hinv h hlt]
    exact (hchildless _ (List.getElem_mem hlt)).1

/-- R85: the synthetic leaf is node 1 beside a single symbol. -/
theorem synth_builtTree_iff {i : Index} (hi : Allocated (builtTree s) i) :
    (nodeAt (builtTree s).node i).synth = true ↔ histDistinct s = 1 ∧ i = 1 := by
  have htree := treeInv_builtTree hinv h
  constructor
  · intro hsynth
    have hleaf : (nodeAt (builtTree s).node i).leaf = true := by
      by_contra hinner
      have hreal := (htree.internal_fields i hi (Bool.eq_false_iff.mpr hinner)).1
      exact Bool.eq_false_iff.mp hreal hsynth
    have hlt := (leaf_builtTree_iff hinv h hi).mp hleaf
    rw [nodeAt_builtTree_leaf hinv h hlt] at hsynth
    rcases getElem_treeLeaves_cases hlt with ⟨hreal, heq⟩ | ⟨-, hone, hi1⟩
    · rw [heq] at hsynth
      exact absurd hsynth (Bool.eq_false_iff.mp (histogramLeaf_real (List.getElem_mem hreal)).2)
    · exact ⟨hone, BitVec.eq_of_toNat_eq hi1⟩
  · rintro ⟨hone, rfl⟩
    have hlen : (treeLeaves s).length = 2 := by rw [length_treeLeaves h, hone]; rfl
    have hlt : (1 : Index).toNat < (treeLeaves s).length := by rw [hlen]; decide
    rw [nodeAt_builtTree_leaf hinv h hlt]
    rcases getElem_treeLeaves_cases hlt with ⟨hreal, -⟩ | ⟨heq, -⟩
    · rw [length_histogramLeaves, hone] at hreal
      exact absurd hreal (by decide)
    · rw [heq]
      rfl

/-- The real leaves are the leaves of the histogram, at their places. -/
theorem realLeaf_builtTree_iff {i : Index} :
    Allocated (builtTree s) i ∧ RealLeaf (builtTree s) i ↔ i.toNat < (histogramLeaves s).length := by
  constructor
  · rintro ⟨hi, hleaf, hreal⟩
    have hlt := (leaf_builtTree_iff hinv h hi).mp hleaf
    rw [nodeAt_builtTree_leaf hinv h hlt] at hreal
    rcases getElem_treeLeaves_cases hlt with ⟨hi', -⟩ | ⟨heq, -⟩
    · exact hi'
    · rw [heq] at hreal
      cases hreal
  · intro hi
    have hnode := nodeAt_builtTree_real hinv h hi
    have hle := length_histogramLeaves_le_treeNodes h
    have hleaf := histogramLeaf_real (List.getElem_mem hi)
    rw [← hnode] at hleaf
    exact ⟨(allocated_builtTree_iff h).mpr (by omega), hleaf⟩

/-- R86: the real leaf of a symbol carries its count, and the symbols present are those of the real leaves. -/
theorem realLeaf_fields {i : Index} (hi : Allocated (builtTree s) i) (hreal : RealLeaf (builtTree s) i) :
    nodeAt (builtTree s).node i =
      leafNode (nodeAt (builtTree s).node i).sym (freqAt s (nodeAt (builtTree s).node i).sym) ∧
    freqAt s (nodeAt (builtTree s).node i).sym ≠ 0 := by
  have hlt := (realLeaf_builtTree_iff hinv h).mp ⟨hi, hreal⟩
  obtain ⟨b, hb, heq⟩ := mem_histogramLeaves.mp (List.getElem_mem hlt)
  rw [nodeAt_builtTree_real hinv h hlt, heq]
  exact ⟨rfl, hb⟩

theorem freq_ne_zero_iff_realLeaf (b : Byte) : freqAt s b ≠ 0 ↔
    ∃ i, Allocated (builtTree s) i ∧ RealLeaf (builtTree s) i ∧ (nodeAt (builtTree s).node i).sym = b := by
  constructor
  · intro hb
    obtain ⟨k, hk, heq⟩ := List.getElem_of_mem (mem_histogramLeaves.mpr ⟨b, hb, rfl⟩)
    have hle := length_histogramLeaves_le_treeNodes h
    have hle' := length_treeNodes_le h
    have hidx : (BitVec.ofNat 9 k : Index).toNat = k := toNat_ofNat_index (by omega)
    have hlt : (BitVec.ofNat 9 k : Index).toNat < (histogramLeaves s).length := hidx.symm ▸ hk
    obtain ⟨hi, hreal⟩ := (realLeaf_builtTree_iff hinv h).mpr hlt
    refine ⟨BitVec.ofNat 9 k, hi, hreal, ?_⟩
    rw [nodeAt_builtTree_real hinv h hlt]
    simp only [hidx, heq, leafNode]
  · rintro ⟨i, hi, hreal, rfl⟩
    exact (realLeaf_fields hinv h hi hreal).2

/-- R85: real leaves stand in the order of their symbols. -/
theorem realLeaf_order {i j : Index} (hi : Allocated (builtTree s) i) (hj : Allocated (builtTree s) j)
    (hri : RealLeaf (builtTree s) i) (hrj : RealLeaf (builtTree s) j) :
    i.toNat < j.toNat ↔ (nodeAt (builtTree s).node i).sym.toNat < (nodeAt (builtTree s).node j).sym.toNat := by
  have hli := (realLeaf_builtTree_iff hinv h).mp ⟨hi, hri⟩
  have hlj := (realLeaf_builtTree_iff hinv h).mp ⟨hj, hrj⟩
  obtain ⟨-, -, -, hpw⟩ := histogramLeaves_spec s
  have hmono := List.pairwise_iff_getElem.mp hpw
  rw [nodeAt_builtTree_real hinv h hli, nodeAt_builtTree_real hinv h hlj]
  rcases Nat.lt_trichotomy i.toNat j.toNat with hlt | heq | hgt
  · exact iff_of_true hlt (hmono _ _ hli hlj hlt)
  · simp only [heq, lt_self_iff_false]
  · exact iff_of_false hgt.not_gt (hmono _ _ hlj hli hgt).not_gt

/-- R86 (d): FREQ of the root is HIST_TOTAL. -/
theorem root_freq_builtTree : (nodeAt (builtTree s).node (builtTree s).root).freq = s.histTotal := by
  obtain ⟨k, hforest, -, hk⟩ := huffmanNodes_forest hinv h
  have hroot : (builtTree s).root.toNat = k.idx := by
    rw [builtTree_root_toNat h]
    exact (Nat.sub_eq_iff_eq_add (by rw [treeNodes]; omega)).mpr hk.symm
  obtain ⟨hlt, hfreq⟩ := hforest.keys k (List.mem_singleton_self k)
  have htotal : k.freq = s.histTotal.toNat := by
    simpa only [List.map_cons, List.map_nil, List.sum_singleton] using hforest.total_eq
  apply BitVec.eq_of_toNat_eq
  rw [nodeAt_builtTree h (by rw [hroot]; exact hlt), ← htotal, ← hfreq]
  simp only [hroot, treeNodes]

end Tree

/-- Settles O24: the shape and the paths are the invariant's, the leaves are the histogram's. -/
theorem builtTreeIsStrictBinary : Obligations.BuiltTreeIsStrictBinary := by
  intro s hinv hpresent
  have h := histogramLeaves_ne_nil hpresent
  have htree := treeInv_builtTree hinv h
  have hpath := pathInv_builtTree hinv h
  have h0 := builtTree_nodeCount_ne_zero h
  refine ⟨builtTree s, (exec_buildTree h).1, freq_ne_zero_iff_realLeaf hinv h, fun i hi hreal => ?_,
    fun i j => realLeaf_order hinv h, fun i hi => ?_, fun i => synth_builtTree_iff hinv h, fun i hi hinner b => ?_,
    fun i hi hinner => ?_, root_freq_builtTree hinv h, htree.root_internal h0, fun i hi => ?_⟩
  · exact congrArg NodeEntry.freq (realLeaf_fields hinv h hi hreal).1
  · rw [builtTree_leafCount_toNat h]
    exact leaf_builtTree_iff hinv h hi
  · obtain ⟨hleft, hright, -⟩ := htree.built_internal rfl i hi hinner
    have hchild : (nodeAt (builtTree s).node i).child b ≠ Config.nil := by
      cases b
      · exact hleft
      · exact hright
    obtain ⟨hall, hlow, -⟩ := htree.links i b hi hchild
    exact ⟨hall, hlow rfl⟩
  · exact (htree.built_internal rfl i hi hinner).2.2
  · obtain ⟨p, hp⟩ := hpath.reached i hi
    exact ⟨p, hp, hpath.depth h0 p i hp, fun q hq => hpath.unique h0 q p i hq hp⟩

/-! ## The merges (R84, R87) -/

theorem Key.less_trans {a b c : Key} (hab : a.less b = true) (hbc : b.less c = true) : a.less c = true := by
  rw [Key.less_iff] at hab hbc ⊢
  omega

section Merges

variable {s : State} (hinv : HistInv s) (h : histogramLeaves s ≠ [])
include hinv h

/-- An internal node is an entry of the list of nodes past the leaves, with two children below it. -/
theorem internal_builtTree {i : Index} (hi : Allocated (builtTree s) i)
    (hinner : (nodeAt (builtTree s).node i).leaf = false) :
    (treeLeaves s).length ≤ i.toNat ∧ (treeNodes s)[i.toNat]? = some (nodeAt (builtTree s).node i) ∧
    (nodeAt (builtTree s).node i).left.toNat < i.toNat ∧ (nodeAt (builtTree s).node i).right.toNat < i.toNat := by
  have htree := treeInv_builtTree hinv h
  have hlt := (allocated_builtTree_iff h).mp hi
  obtain ⟨hleft, hright, -⟩ := htree.built_internal rfl i hi hinner
  refine ⟨?_, ?_, (htree.links i false hi hleft).2.1 rfl, (htree.links i true hi hright).2.1 rfl⟩
  · by_contra hge
    exact Bool.eq_false_iff.mp hinner ((leaf_builtTree_iff hinv h hi).mpr (Nat.not_le.mp hge))
  · rw [nodeAt_builtTree h hlt, List.getElem?_eq_getElem hlt]

omit hinv in
/-- R84: the keys of node memory are those of the list of nodes. -/
theorem keyBelow_builtTree_iff {a b : Index} (ha : a.toNat < (treeNodes s).length) (hb : b.toNat < (treeNodes s).length) :
    KeyBelow (builtTree s).node a b ↔
      (keyAt (treeNodes s) a.toNat).less (keyAt (treeNodes s) b.toNat) = true := by
  rw [KeyBelow, nodeAt_builtTree h ha, nodeAt_builtTree h hb, keyAt_eq ha, keyAt_eq hb, Key.less_iff, BitVec.toNat_eq]

/-- R84, R85: a node below i that is no child yet when i is made is no child of a node below i either. -/
theorem noChildBelow_builtTree {i z : Index} (hi : Allocated (builtTree s) i)
    (hz : ∀ j b, (nodeAt (builtTree s).node j).leaf = false → j.toNat ≤ i.toNat →
      (nodeAt (builtTree s).node j).child b ≠ z) :
    NoChildBelow (treeLeaves s).length (treeNodes s) (i.toNat + 1) z.toNat := by
  intro j e hj hji he
  have hlt := (allocated_builtTree_iff h).mp hi
  have hidx : (BitVec.ofNat 9 j : Index).toNat = j := toNat_ofNat_index (by have := i.isLt; omega)
  have hall : Allocated (builtTree s) (BitVec.ofNat 9 j) := (allocated_builtTree_iff h).mpr (by omega)
  have hnode : nodeAt (builtTree s).node (BitVec.ofNat 9 j) = e := by
    rw [nodeAt_builtTree h ((allocated_builtTree_iff h).mp hall)]
    simp only [hidx]
    exact (List.getElem?_eq_some_iff.mp he).2
  have hinner : (nodeAt (builtTree s).node (BitVec.ofNat 9 j)).leaf = false := by
    refine Bool.eq_false_iff.mpr fun hleaf => ?_
    have := (leaf_builtTree_iff hinv h hall).mp hleaf
    omega
  have hchild := fun b => hz (BitVec.ofNat 9 j) b hinner (by omega)
  rw [hnode] at hchild
  exact ⟨fun hl => hchild false (BitVec.eq_of_toNat_eq hl), fun hr => hchild true (BitVec.eq_of_toNat_eq hr)⟩

/-- R84, R85: the merges of a built tree are those of the list of nodes. -/
theorem builtTree_merges :
    (∀ i, Allocated (builtTree s) i → (nodeAt (builtTree s).node i).leaf = false →
      KeyBelow (builtTree s).node (nodeAt (builtTree s).node i).left (nodeAt (builtTree s).node i).right) ∧
    (∀ i z, Allocated (builtTree s) i → (nodeAt (builtTree s).node i).leaf = false → z.toNat < i.toNat →
      (∀ j b, (nodeAt (builtTree s).node j).leaf = false → j.toNat ≤ i.toNat →
        (nodeAt (builtTree s).node j).child b ≠ z) →
      KeyBelow (builtTree s).node (nodeAt (builtTree s).node i).left z ∧
        KeyBelow (builtTree s).node (nodeAt (builtTree s).node i).right z) ∧
    (∀ i j, Allocated (builtTree s) i → Allocated (builtTree s) j → (nodeAt (builtTree s).node i).leaf = false →
      (nodeAt (builtTree s).node j).leaf = false → i.toNat ≤ j.toNat →
      (nodeAt (builtTree s).node i).freq.toNat ≤ (nodeAt (builtTree s).node j).freq.toNat) := by
  obtain ⟨k, hmerged⟩ := huffmanNodes_merged hinv h
  refine ⟨fun i hi hinner => ?_, fun i z hi hinner hzi hz => ?_, fun i j hi hj hinner hinner' hij => ?_⟩
  · have hlt := (allocated_builtTree_iff h).mp hi
    obtain ⟨hge, he, hl, hr⟩ := internal_builtTree hinv h hi hinner
    rw [keyBelow_builtTree_iff h (by omega) (by omega)]
    exact hmerged.ordered _ _ hge he
  · have hlt := (allocated_builtTree_iff h).mp hi
    obtain ⟨hge, he, hl, hr⟩ := internal_builtTree hinv h hi hinner
    have hleast := hmerged.least _ _ hge he z.toNat hzi (noChildBelow_builtTree hinv h hi hz)
    have hordered := hmerged.ordered _ _ hge he
    rw [keyBelow_builtTree_iff h (by omega) (by omega), keyBelow_builtTree_iff h (by omega) (by omega)]
    exact ⟨Key.less_trans hordered hleast, hleast⟩
  · obtain ⟨hge, he, -⟩ := internal_builtTree hinv h hi hinner
    obtain ⟨-, he', -⟩ := internal_builtTree hinv h hj hinner'
    exact hmerged.sorted _ _ _ _ hge hij he he'

end Merges

/-- Settles O26: with an empty histogram there is no node, else the merges are `Merged`'s. -/
theorem leftChildIsExtractedFirst : Obligations.LeftChildIsExtractedFirst := by
  intro s hinv
  by_cases h : histogramLeaves s = []
  · obtain ⟨hexec, -⟩ := exec_buildTree_empty h
    have hnone (i : Index) : ¬ Allocated (commitOk (clearTree s) []) i := Nat.not_lt_zero _
    exact ⟨_, hexec, fun i hi => absurd hi (hnone i), fun i z hi => absurd hi (hnone i),
      fun i j hi => absurd hi (hnone i)⟩
  · exact ⟨_, (exec_buildTree h).1, builtTree_merges hinv h⟩

end Sys2Proof.Proofs
end

section
/-! The code table (R91, R92) and the code's words (R53): the paths of the real leaves as codes, what GEN_CODES makes
of them, then the statements. -/

namespace Sys2Proof.Proofs

open Sys2Proof.Machine Sys2Proof.Laws

/-! ## The words of a code (R53, R62) -/

theorem codeBit_eq (w : Vector Word 8) (k : Fin 8) {j : Nat} (hj : j < 32) :
    codeBit w (32 * k.val + j) = (w[k]).getLsbD (31 - j) := by
  have hdiv : (32 * k.val + j) / 32 = k.val := by omega
  have hmod : (32 * k.val + j) % 32 = j := by omega
  simp only [codeBit, hdiv, hmod, dif_pos k.isLt, Fin.getElem_fin]

theorem getElem?_codeOperand {len : Byte} {i : Nat} (s : State) (hi : i < len.toNat) :
    (codeOperand len s)[i]? = some (codeBit s.lArg i) := by
  simp [codeOperand, hi]

/-- Settles O35: a position is word 32 k and bit 31 - j of it, in the operand and in `codeWord` alike. -/
theorem codeWordsCarryTheCode : Obligations.CodeWordsCarryTheCode := by
  refine ⟨fun s len k j hlt => ?_, fun s q hq hwords => ?_, fun s u len hagree => ?_, by decide⟩
  · rw [getElem?_codeOperand s hlt, codeBit_eq s.lArg k j.isLt]
  · have hlen : (BitVec.ofNat 8 q.length : Byte).toNat = q.length :=
      (BitVec.toNat_ofNat ..).trans (Nat.mod_eq_of_lt (by omega))
    refine List.ext_getElem ((length_codeOperand _ _).trans hlen) fun i hi hi' => ?_
    have hk : i / 32 < 8 := by omega
    have hsplit : 32 * (i / 32) + i % 32 = i := Nat.div_add_mod i 32
    have hbit : codeBit s.lArg i = q.getD i false := by
      have hword := codeBit_eq s.lArg ⟨i / 32, hk⟩ (Nat.mod_lt i (by decide : 0 < 32))
      rw [hwords, codeWord_getLsbD _ _ _ (Nat.mod_lt i (by decide))] at hword
      simpa only [hsplit] using hword
    simp only [codeOperand, List.getElem_map, List.getElem_range, hbit, List.getD_eq_getElem _ _ hi']
  · exact List.map_congr_left fun j hj => hagree j (List.mem_range.mp hj)

/-! ## Paths as codes (R92) -/

section Paths

variable {s : State} {p q : List Bool} {a b : Byte}

theorem codePath_ne_nil (ht : TreeInv s) (h0 : s.nodeCount ≠ 0) (hp : CodePath s p b) : p ≠ [] := by
  rintro rfl
  obtain ⟨i, hi, ⟨hleaf, -⟩, -⟩ := hp
  obtain rfl := Option.some.inj hi
  exact Bool.eq_false_iff.mp (ht.root_internal h0) hleaf

/-- R92 (b): a leaf ends every path through it, so a path to a leaf that begins another is that path. -/
theorem sym_eq_of_prefix (ht : TreeInv s) (h0 : s.nodeCount ≠ 0) (hp : CodePath s p a) (hq : CodePath s q b)
    (hpre : p <+: q) : a = b := by
  obtain ⟨i, hi, ⟨hleaf, -⟩, rfl⟩ := hp
  obtain ⟨j, hj, -, rfl⟩ := hq
  obtain ⟨r, rfl⟩ := hpre
  rw [follow_append, hi, Option.bind_some] at hj
  have hall := ht.follow_allocated (ht.root_allocated h0) hi
  obtain ⟨-, rfl⟩ := follow_of_childless (ht.leaf_childless i hall hleaf) hj
  rfl

/-- R86 (f): a symbol has one path. -/
theorem codePath_unique (ht : TreeInv s) (hpath : PathInv s) (h0 : s.nodeCount ≠ 0) (hp : CodePath s p b)
    (hq : CodePath s q b) : p = q := by
  obtain ⟨i, hi, hri, hsi⟩ := hp
  obtain ⟨j, hj, hrj, hsj⟩ := hq
  have hroot := ht.root_allocated h0
  obtain rfl := ht.leaf_syms i j (ht.follow_allocated hroot hi) (ht.follow_allocated hroot hj) hri hrj
    (hsi.trans hsj.symm)
  exact hpath.unique h0 p q i hi hj

theorem exists_codePath_iff (ht : TreeInv s) (hpath : PathInv s) (h0 : s.nodeCount ≠ 0) :
    (∃ p, CodePath s p b) ↔ ∃ i, Allocated s i ∧ RealLeaf s i ∧ (nodeAt s.node i).sym = b := by
  constructor
  · rintro ⟨p, i, hi, hreal, hsym⟩
    exact ⟨i, ht.follow_allocated (ht.root_allocated h0) hi, hreal, hsym⟩
  · rintro ⟨i, hall, hreal, hsym⟩
    obtain ⟨p, hp⟩ := hpath.reached i hall
    exact ⟨p, i, hp, hreal, hsym⟩

/-- R91: every tree has a real leaf. The synthetic one stands alone, so the root's other side has another leaf. -/
theorem exists_realLeaf (ht : TreeInv s) (hpath : PathInv s) (h0 : s.nodeCount ≠ 0) : ∃ p b, CodePath s p b := by
  have hroot := ht.root_allocated h0
  have hinner := ht.root_internal h0
  obtain ⟨p, i, hp, hleaf⟩ := ht.exists_leaf hroot
  cases hsynth : (nodeAt s.node i).synth with
  | false => exact ⟨p, _, i, hp, ⟨hleaf, hsynth⟩, rfl⟩
  | true =>
    have hi := ht.follow_allocated hroot hp
    obtain ⟨-, -, hsrc, rfl⟩ := ht.synth_fields i hi hsynth
    obtain ⟨hl, hr, -⟩ := ht.built_internal hsrc s.root hroot hinner
    obtain ⟨c, hc⟩ : ∃ c, ¬ [c] <+: p := by
      cases p with
      | nil => exact ⟨true, by simp⟩
      | cons b p => exact ⟨!b, by simp⟩
    have hchild : (nodeAt s.node s.root).child c ≠ Config.nil := by
      cases c
      · exact hl
      · exact hr
    obtain ⟨q, j, hq, hleaf'⟩ := ht.exists_leaf (ht.child_allocated _ c hroot hchild)
    have hq' : follow s.node s.root (c :: q) = some j := by
      rw [follow_cons, if_neg hchild, hq]
    have hreal : (nodeAt s.node j).synth = false := by
      refine Bool.eq_false_iff.mpr fun hsynth' => hc ?_
      obtain ⟨-, -, -, rfl⟩ := ht.synth_fields j (ht.follow_allocated hroot hq') hsynth'
      rw [hpath.unique h0 p (c :: q) 1 hp hq']
      exact ⟨q, rfl⟩
    exact ⟨c :: q, _, j, hq', ⟨hleaf', hreal⟩, rfl⟩

end Paths

/-- Settles O33: valid codes are paths to real leaves. -/
theorem validCodesAreFreeOfConflicts : Obligations.ValidCodesAreFreeOfConflicts := by
  intro s hinv a b ha hb
  obtain ⟨h0, hpa⟩ := hinv.code.valid_path a ha
  obtain ⟨-, hpb⟩ := hinv.code.valid_path b hb
  refine ⟨codePath_ne_nil hinv.tree h0 hpa, fun hconf => ?_⟩
  rcases hconf with h | h
  · exact sym_eq_of_prefix hinv.tree h0 hpa hpb h
  · exact (sym_eq_of_prefix hinv.tree h0 hpb hpa h).symm

/-! ## GEN_CODES (R91) -/

theorem codeEntry_ext {x y : CodeEntry} (hvalid : x.valid = y.valid) (hbits : x.bits = y.bits) : x = y := by
  cases x
  cases y
  cases hvalid
  cases hbits
  rfl

/-- The numbers of the real leaves in node memory, in index order. -/
def realLeaves (s : State) : List Nat :=
  (List.range s.nodeCount.toNat).filter fun k =>
    (nodeAt s.node (BitVec.ofNat 9 k)).leaf = true ∧ (nodeAt s.node (BitVec.ofNat 9 k)).synth = false

theorem mem_realLeaves {s : State} {k : Nat} :
    k ∈ realLeaves s ↔ k < s.nodeCount.toNat ∧ RealLeaf s (BitVec.ofNat 9 k) := by
  rw [realLeaves, List.mem_filter, List.mem_range, decide_eq_true_iff, RealLeaf]

theorem nodup_realLeaves (s : State) : (realLeaves s).Nodup :=
  List.nodup_range.filter _

theorem toNat_of_mem_realLeaves {s : State} {k : Nat} (hk : k ∈ realLeaves s) :
    (BitVec.ofNat 9 k : Index).toNat = k := by
  have hlt := (mem_realLeaves.mp hk).1
  have hcount := s.nodeCount.isLt
  exact toNat_ofNat_index (by omega)

/-- A sum over the real leaves is one over the nodes with 0 for the others. -/
theorem sum_map_realLeaves (s : State) (f : Nat → Nat) : ((realLeaves s).map f).sum =
    ((List.range s.nodeCount.toNat).map fun k =>
      if (nodeAt s.node (BitVec.ofNat 9 k)).leaf = true ∧ (nodeAt s.node (BitVec.ofNat 9 k)).synth = false
      then f k else 0).sum := by
  rw [List.sum_map_ite]
  simp [realLeaves]

/-- A real leaf of the tree of `s`, by number, with the code that the table of `t` gives its symbol. -/
def leafWithCode (s t : State) (k : Nat) : NodeEntry × List Bool :=
  (nodeAt s.node (BitVec.ofNat 9 k), (codeOf t (nodeAt s.node (BitVec.ofNat 9 k)).sym).bits)

section Table

variable {s : State} {lv : List (NodeEntry × List Bool)} (ht : TreeInv s) (hpath : PathInv s)
  (h0 : s.nodeCount ≠ 0) (hw : leafPaths s.node (Config.nodeCap + 1) s.root [] = some lv)
include ht hpath h0 hw

theorem codeInv_withTable : CodeInv (withTable lv s) :=
  genCodes_code ht hpath (genCodes_eq_ok h0 hw)

/-- R92 (d): the table has a code for the symbols of the real leaves and no other. -/
theorem valid_withTable_iff {b : Byte} : (codeOf (withTable lv s) b).valid = true ↔ ∃ p, CodePath s p b := by
  constructor
  · intro hv
    exact ⟨_, ((codeInv_withTable ht hpath h0 hw).valid_path b hv).2⟩
  · rintro ⟨p, i, hi, hreal, hsym⟩
    rcases genCodes_table ht hpath h0 hw b with ⟨-, hnone⟩ | ⟨j, q, -, -, -, -, -, hcode⟩
    · exact absurd hsym (hnone i (ht.follow_allocated (ht.root_allocated h0) hi) hreal)
    · exact congrArg CodeEntry.valid hcode

theorem bits_withTable {p : List Bool} {b : Byte} (hp : CodePath s p b) : (codeOf (withTable lv s) b).bits = p := by
  have hv := (valid_withTable_iff ht hpath h0 hw).mpr ⟨p, hp⟩
  have hcode := ((codeInv_withTable ht hpath h0 hw).valid_path b hv).2
  exact codePath_unique ht hpath h0 hcode hp

/-- The leaves the walk collects are the real leaves of node memory, each with its code. -/
theorem leafPaths_perm : lv.Perm ((realLeaves s).map (leafWithCode s (withTable lv s))) := by
  have hroot := ht.root_allocated h0
  have hmem := mem_leafPaths (P := Allocated s) ht.child_allocated ht.leaf_childless hroot hw
  have hallocated {k : Nat} (hk : k ∈ realLeaves s) : Allocated s (BitVec.ofNat 9 k) := by
    rw [Allocated, toNat_of_mem_realLeaves hk]
    exact (mem_realLeaves.mp hk).1
  have hpath_of {k : Nat} (hk : k ∈ realLeaves s) :
      follow s.node s.root (leafWithCode s (withTable lv s) k).2 = some (BitVec.ofNat 9 k) := by
    obtain ⟨p, hp⟩ := hpath.reached _ (hallocated hk)
    have hbits : (leafWithCode s (withTable lv s) k).2 = p :=
      bits_withTable ht hpath h0 hw ⟨_, hp, (mem_realLeaves.mp hk).2, rfl⟩
    rw [hbits, hp]
  have hnodup : ((realLeaves s).map (leafWithCode s (withTable lv s))).Nodup := by
    refine List.Nodup.map_on (fun k hk k' hk' heq => ?_) (nodup_realLeaves s)
    have hk1 := hpath_of hk
    rw [heq, hpath_of hk', Option.some.injEq] at hk1
    rw [← toNat_of_mem_realLeaves hk, ← toNat_of_mem_realLeaves hk', hk1]
  refine (List.perm_ext_iff_of_nodup (leafPaths_nodup hw).of_map hnodup).mpr fun ⟨e, q⟩ => ?_
  rw [hmem, List.mem_map]
  constructor
  · rintro ⟨r, j, rfl, hj, hleaf, hreal, rfl⟩
    have hk : j.toNat ∈ realLeaves s := by
      rw [mem_realLeaves, ofNat_toNat_index]
      exact ⟨ht.follow_allocated hroot hj, hleaf, hreal⟩
    refine ⟨j.toNat, hk, ?_⟩
    rw [leafWithCode, ofNat_toNat_index,
      bits_withTable ht hpath h0 hw ⟨j, hj, ⟨hleaf, hreal⟩, rfl⟩]
  · rintro ⟨k, hk, hq⟩
    obtain ⟨rfl, rfl⟩ := Prod.mk.inj hq.symm
    obtain ⟨-, hleaf, hreal⟩ := mem_realLeaves.mp hk
    exact ⟨_, _, rfl, hpath_of hk, hleaf, hreal, rfl⟩

/-- R91: COST's 64 bits hold the exact sum, as no tree has more than 511 leaves at 255 bits and 2^32 - 1 counts. -/
theorem cost_withTable_toNat : (withTable lv s).cost.toNat = ((realLeaves s).map fun k =>
    (nodeAt s.node (BitVec.ofNat 9 k)).freq.toNat *
      (codeOf (withTable lv s) (nodeAt s.node (BitVec.ofNat 9 k)).sym).bits.length).sum := by
  have hsum : weightedCost lv = ((realLeaves s).map fun k =>
      (nodeAt s.node (BitVec.ofNat 9 k)).freq.toNat *
        (codeOf (withTable lv s) (nodeAt s.node (BitVec.ofNat 9 k)).sym).bits.length).sum := by
    rw [weightedCost_eq, ((leafPaths_perm ht hpath h0 hw).map _).sum_eq, List.map_map]
    rfl
  have hbound : weightedCost lv ≤ 511 * (2 ^ 32 * 255) := by
    have hlen : (realLeaves s).length ≤ 511 := by
      have hcount := s.nodeCount.isLt
      have hfilter := List.length_filter_le (fun k : Nat =>
        decide ((nodeAt s.node (BitVec.ofNat 9 k)).leaf = true ∧ (nodeAt s.node (BitVec.ofNat 9 k)).synth = false))
        (List.range s.nodeCount.toNat)
      rw [List.length_range] at hfilter
      exact hfilter.trans (by omega)
    rw [hsum]
    refine (List.sum_le_card_nsmul _ (2 ^ 32 * 255) ?_).trans ?_
    · intro x hx
      obtain ⟨k, -, rfl⟩ := List.mem_map.mp hx
      exact Nat.mul_le_mul (BitVec.isLt _).le (codeBits_length_le (codeInv_withTable ht hpath h0 hw) _)
    · rw [List.length_map, smul_eq_mul]
      exact Nat.mul_le_mul_right _ hlen
  rw [← hsum]
  exact (BitVec.toNat_ofNat ..).trans (Nat.mod_eq_of_lt (by omega))

omit ht hpath in
theorem exec_genCodes : exec .genCodes s = .next (commitOk (withTable lv s) []) ∧
    Completed s (commitOk (withTable lv s) []) :=
  exec_ok_nil (genCodes_eq_ok h0 hw)

/-- R32: some code attains CODE_MAXLEN, which is not 0 as a real leaf has a path. -/
theorem exists_longest_code : ∃ b, (codeOf (withTable lv s) b).valid = true ∧
    (codeOf (withTable lv s) b).bits.length = (withTable lv s).codeMaxLen.toNat := by
  have hinv := codeInv_withTable ht hpath h0 hw
  refine hinv.maxLen_attained fun hzero => ?_
  obtain ⟨p, b, hp⟩ := exists_realLeaf ht hpath h0
  have hbound := hinv.maxLen_bound b ((valid_withTable_iff ht hpath h0 hw).mpr ⟨p, hp⟩)
  rw [bits_withTable ht hpath h0 hw hp, hzero] at hbound
  exact codePath_ne_nil ht h0 hp (List.length_eq_zero_iff.mp (Nat.le_zero.mp hbound))

/-- R92 (c): a loaded tree's codes are already in the table, and its nodes have FREQ 0. -/
theorem withTable_of_loaded (hcode : CodeInv s) (hsrc : s.treeSrc = .loaded) :
    (withTable lv s).code = s.code ∧ (withTable lv s).cost = 0 := by
  have hentry (b : Byte) : codeOf (withTable lv s) b = codeOf s b := by
    have hinv := codeInv_withTable ht hpath h0 hw
    cases hv : (codeOf s b).valid with
    | true =>
      have hp := (hcode.valid_path b hv).2
      exact codeEntry_ext (((valid_withTable_iff ht hpath h0 hw).mpr ⟨_, hp⟩).trans hv.symm)
        (bits_withTable ht hpath h0 hw hp)
    | false =>
      have hv' : (codeOf (withTable lv s) b).valid = false := by
        refine Bool.eq_false_iff.mpr fun htrue => Bool.eq_false_iff.mp hv ?_
        obtain ⟨i, hall, hreal, rfl⟩ :=
          (exists_codePath_iff ht hpath h0).mp ((valid_withTable_iff ht hpath h0 hw).mp htrue)
        exact hcode.all_valid (.inl hsrc) i hall hreal
      exact codeEntry_ext (hv'.trans hv.symm) ((hinv.invalid_empty b hv').trans (hcode.invalid_empty b hv).symm)
  constructor
  · refine Vector.ext fun k hk => ?_
    have hbyte : (BitVec.ofNat 8 k : Byte).toNat = k := (BitVec.toNat_ofNat ..).trans (Nat.mod_eq_of_lt hk)
    have hk' := hentry (BitVec.ofNat 8 k)
    simpa only [codeOf, hbyte] using hk'
  · apply BitVec.eq_of_toNat_eq
    rw [cost_withTable_toNat ht hpath h0 hw]
    refine List.sum_eq_zero fun x hx => ?_
    obtain ⟨k, hk, rfl⟩ := List.mem_map.mp hx
    have hall : Allocated s (BitVec.ofNat 9 k) := by
      rw [Allocated, toNat_of_mem_realLeaves hk]
      exact (mem_realLeaves.mp hk).1
    rw [ht.loaded_freq hsrc _ hall]
    exact Nat.zero_mul _

end Table

/-- The frame of GEN_CODES: a commit that writes the code table alone. -/
theorem commitOk_withTable_frame (lv : List (NodeEntry × List Bool)) (s : State) :
    let t := commitOk (withTable lv s) []
    KeepsFault s t ∧ KeepsHistogram s t ∧ KeepsTree s t ∧ KeepsEncoder s t ∧ KeepsDecoder s t ∧ t.res = s.res ∧
      t.outq = s.outq :=
  ⟨⟨rfl, rfl, rfl⟩, ⟨rfl, rfl⟩, ⟨rfl, rfl, rfl, rfl, rfl⟩, ⟨rfl, rfl, rfl⟩, ⟨rfl, rfl, rfl, rfl, rfl⟩, rfl,
    List.append_nil _⟩

/-- Settles O31: the table, CODE_MAXLEN and COST of `withTable`, over the walk's leaves. -/
theorem genCodesTabulatesLeafPaths : Obligations.GenCodesTabulatesLeafPaths := by
  refine ⟨fun s h0 => ?_, fun s hinv h0 => ?_⟩
  · obtain ⟨hexec, hfault⟩ := exec_fault (i := .genCodes) (genCodes_eq_sequence h0)
    exact ⟨_, hexec, hfault, rfl⟩
  · obtain ⟨lv, hw⟩ := hinv.tree.walk_ends h0
    have ht := hinv.tree
    have hpath := hinv.path
    have hcodes := codeInv_withTable ht hpath h0 hw
    obtain ⟨hexec, hdone⟩ := exec_genCodes h0 hw
    have hvalid (b : Byte) (hv : (codeOf (withTable lv s) b).valid = true) :
        CodePath s (codeOf (withTable lv s) b).bits b ∧ (codeOf (withTable lv s) b).bits ≠ [] ∧
        (codeOf (withTable lv s) b).bits.length ≤ (withTable lv s).codeMaxLen.toNat := by
      have hp : CodePath s (codeOf (withTable lv s) b).bits b := (hcodes.valid_path b hv).2
      exact ⟨hp, codePath_ne_nil ht h0 hp, hcodes.maxLen_bound b hv⟩
    exact ⟨_, hexec, hdone, fun b => valid_withTable_iff ht hpath h0 hw, hvalid, hcodes.invalid_empty,
      exists_longest_code ht hpath h0 hw, (cost_withTable_toNat ht hpath h0 hw).trans (sum_map_realLeaves s _),
      withTable_of_loaded ht hpath h0 hw hinv.code, commitOk_withTable_frame lv s⟩

/-! ## COST over the histogram (R92 (c)) -/

/-- A sum over the leaves of a list of counts is the sum over its positions: a count of 0 adds nothing. -/
theorem sum_map_countLeaves (len : Byte → Nat) (l : List Word) (k : Nat) :
    ((countLeaves l k).map fun e => e.freq.toNat * len e.sym).sum =
      ((l.zipIdx k).map fun p => p.1.toNat * len (BitVec.ofNat 8 p.2)).sum := by
  induction l generalizing k with
  | nil => rfl
  | cons f l ih =>
    rw [countLeaves_cons, List.map_append, List.sum_append, ih, List.zipIdx_cons, List.map_cons, List.sum_cons]
    by_cases hf : f = 0
    · subst hf
      rw [if_pos rfl]
      simp
    · rw [if_neg hf, List.map_singleton, List.sum_singleton]
      rfl

theorem sum_map_histogramLeaves (s : State) (len : Byte → Nat) :
    ((histogramLeaves s).map fun e => e.freq.toNat * len e.sym).sum =
      ((List.range 256).map fun k => (freqAt s (BitVec.ofNat 8 k)).toNat * len (BitVec.ofNat 8 k)).sum := by
  rw [histogramLeaves_eq, sum_map_countLeaves]
  congr 1
  refine List.ext_getElem (by simp) fun k hk hk' => ?_
  have hk256 : k < 256 := by simpa using hk'
  simp [freqAt, Nat.mod_eq_of_lt hk256]

section Cost

variable {s : State} (hinv : HistInv s) (h : histogramLeaves s ≠ [])
include hinv h

/-- The real leaves of a built tree are its first nodes, one for each symbol present. -/
theorem realLeaves_builtTree : (realLeaves (builtTree s)).Perm (List.range (histogramLeaves s).length) := by
  refine (List.perm_ext_iff_of_nodup (nodup_realLeaves _) List.nodup_range).mpr fun k => ?_
  have hle := length_histogramLeaves_le_treeNodes h
  have hle' := length_treeNodes_le h
  rw [mem_realLeaves, List.mem_range]
  constructor
  · rintro ⟨hk, hreal⟩
    have hidx : (BitVec.ofNat 9 k : Index).toNat = k := toNat_of_mem_realLeaves (mem_realLeaves.mpr ⟨hk, hreal⟩)
    have hall : Allocated (builtTree s) (BitVec.ofNat 9 k) := by rwa [Allocated, hidx]
    exact hidx ▸ (realLeaf_builtTree_iff hinv h).mp ⟨hall, hreal⟩
  · intro hk
    have hidx : (BitVec.ofNat 9 k : Index).toNat = k := toNat_ofNat_index (by omega)
    obtain ⟨hall, hreal⟩ := (realLeaf_builtTree_iff hinv h (i := BitVec.ofNat 9 k)).mpr (hidx.symm ▸ hk)
    exact ⟨hidx ▸ hall, hreal⟩

/-- R92 (c): over a built tree a sum over the real leaves is one over the leaves of the histogram. -/
theorem sum_realLeaves_builtTree (len : Byte → Nat) :
    ((realLeaves (builtTree s)).map fun k => (nodeAt (builtTree s).node (BitVec.ofNat 9 k)).freq.toNat *
      len (nodeAt (builtTree s).node (BitVec.ofNat 9 k)).sym).sum =
    ((histogramLeaves s).map fun e => e.freq.toNat * len e.sym).sum := by
  rw [((realLeaves_builtTree hinv h).map _).sum_eq]
  congr 1
  refine List.ext_getElem (by simp) fun k hk hk' => ?_
  have hlt : k < (histogramLeaves s).length := by simpa using hk'
  have hle := length_histogramLeaves_le_treeNodes h
  have hle' := length_treeNodes_le h
  have hidx : (BitVec.ofNat 9 k : Index).toNat = k := toNat_ofNat_index (by omega)
  have hnode : nodeAt (builtTree s).node (BitVec.ofNat 9 k) = (histogramLeaves s)[k] := by
    rw [nodeAt_builtTree_real hinv h (hidx.symm ▸ hlt)]
    simp only [hidx]
  simp only [List.getElem_map, List.getElem_range, hnode]

end Cost

/-- Settles O32: the table and the exact COST over the built tree, whose real leaves are the symbols present. -/
theorem costIsTheWeightedCodeLength : Obligations.CostIsTheWeightedCodeLength := by
  intro s hinv hpresent
  have h := histogramLeaves_ne_nil hpresent
  have ht := treeInv_builtTree hinv h
  have hpath := pathInv_builtTree hinv h
  have h0 := builtTree_nodeCount_ne_zero h
  obtain ⟨lv, hw⟩ := ht.walk_ends h0
  obtain ⟨hfault, hhist, -⟩ := builtTree_frame s
  obtain ⟨hfault', hhist', -⟩ := commitOk_withTable_frame lv (builtTree s)
  refine ⟨commitOk (withTable lv (builtTree s)) [], ?_, hhist.trans hhist', hfault.trans hfault', fun b => ?_, ?_⟩
  · rw [execAll_cons (exec_buildTree h).1, execAll_cons (exec_genCodes h0 hw).1, execAll]
  · exact (valid_withTable_iff ht hpath h0 hw).trans
      ((exists_codePath_iff ht hpath h0).trans (freq_ne_zero_iff_realLeaf hinv h b).symm)
  · have hnodes := sum_realLeaves_builtTree hinv h fun b => (codeOf (withTable lv (builtTree s)) b).bits.length
    have hsyms := sum_map_histogramLeaves s fun b => (codeOf (withTable lv (builtTree s)) b).bits.length
    exact (cost_withTable_toNat ht hpath h0 hw).trans (hnodes.trans hsyms)

end Sys2Proof.Proofs
end

section
/-! Whole payloads (R97, R101): a host that drains OUTQ between commands (R68) encodes an input, decodes a payload, and
gets the input back; then the statements. -/

namespace Sys2Proof.Proofs

open Sys2Proof.Machine Sys2Proof.Laws

/-- A run of two lists of commands pushes what the first pushes, then what the second does from where it ends. -/
theorem runDrained_append {is js : List Instr} {s t u : State} {h h' : List Byte}
    (hfirst : runDrained is s = some (t, h)) (hsecond : runDrained js t = some (u, h')) :
    runDrained (is ++ js) s = some (u, h ++ h') := by
  induction is generalizing s h with
  | nil =>
    obtain ⟨rfl, rfl⟩ := Prod.mk.inj (Option.some.inj hfirst)
    exact hsecond
  | cons i is ih =>
    obtain ⟨r, hr⟩ := exec_next i { s with outq := [] }
    rw [runDrained_cons hr] at hfirst
    obtain ⟨⟨t', g⟩, hrun, heq⟩ := Option.map_eq_some_iff.mp hfirst
    obtain ⟨rfl, rfl⟩ := Prod.mk.inj heq
    rw [List.cons_append, runDrained_cons hr, ih hrun, Option.map_some, List.append_assoc]

/-- One command at the head of a run. -/
theorem runDrained_cons_some {i : Instr} {is : List Instr} {s t u : State} {h : List Byte}
    (hexec : exec i { s with outq := [] } = .next t) (hrun : runDrained is t = some (u, h)) :
    runDrained (i :: is) s = some (u, t.outq ++ h) := by
  rw [runDrained_cons hexec, hrun, Option.map_some]

/-! ## The encoder (R97) -/

/-- All engine state but the encoder's and OUTQ is as before. -/
structure KeepsButEncoder (s t : State) : Prop where
  fault : KeepsFault s t
  histogram : KeepsHistogram s t
  tree : KeepsTree s t
  codes : KeepsCodes s t
  decoder : KeepsDecoder s t
  res : t.res = s.res

theorem KeepsButEncoder.trans {s t u : State} (h : KeepsButEncoder s t) (h' : KeepsButEncoder t u) :
    KeepsButEncoder s u :=
  ⟨h.fault.trans h'.fault, h.histogram.trans h'.histogram, h.tree.trans h'.tree, h.codes.trans h'.codes,
    h.decoder.trans h'.decoder, h'.res.trans h.res⟩

/-- OUTQ is no part of it. -/
theorem keepsButEncoder_queue (s : State) (q : List Byte) : KeepsButEncoder s { s with outq := q } :=
  ⟨⟨rfl, rfl, rfl⟩, ⟨rfl, rfl⟩, ⟨rfl, rfl, rfl, rfl, rfl⟩, ⟨rfl, rfl, rfl⟩, ⟨rfl, rfl, rfl, rfl, rfl⟩, rfl⟩

/-- The code bits of an input (R97's E). -/
def codeBits (s : State) (x : List Byte) : List Bool := x.flatMap fun b => (codeOf s b).bits

section Congr

variable {s t : State}

theorem codeOf_congr (h : KeepsCodes s t) (b : Byte) : codeOf t b = codeOf s b := by
  rw [codeOf, codeOf, h.code]

theorem codeBits_congr (h : KeepsCodes s t) (x : List Byte) : codeBits t x = codeBits s x := by
  simp only [codeBits, codeOf_congr h]

theorem codeInv_of_keeps (hinv : CodeInv s) (ht : KeepsTree s t) (hc : KeepsCodes s t) : CodeInv t :=
  hinv.congr ht.node ht.nodeCount ht.root ht.treeSrc hc.code hc.codeMaxLen

theorem treeInv_of_keeps (hinv : TreeInv s) (ht : KeepsTree s t) : TreeInv t :=
  hinv.congr ht.node ht.nodeCount ht.leafCount ht.root ht.treeSrc

theorem codePath_of_keeps {p : List Bool} {b : Byte} (hp : CodePath s p b) (ht : KeepsTree s t) : CodePath t p b := by
  simpa only [CodePath, RealLeaf, ht.node, ht.root] using hp

end Congr

section Encode

variable {s : State}

/-- ENC_BYTE after a drain has room for a code of at most 255 bits: R95 of an empty queue. -/
theorem exec_encByte_drained (hcode : CodeInv s) {b : Byte} (hb : (codeOf s b).valid = true) :
    ∃ t, exec (.encByte b) { s with outq := [] } = .next t ∧
      t.outq.flatMap bitsOf ++ pendingBits t = pendingBits s ++ (codeOf s b).bits ∧
      t.encBitcnt = s.encBitcnt + BitVec.ofNat 64 (codeOf s b).bits.length ∧ KeepsButEncoder s t := by
  have hroom : (s.encNpend.toNat + (codeOf s b).bits.length) / 8 ≤ 64 - 0 := by
    have hpend := s.encNpend.isLt
    have hlen := codeBits_length_le hcode b
    omega
  obtain ⟨t, out, hexec, -, hout, -, hbits, -, hcnt, hf, hh, ht, hc, hd, hr⟩ :=
    encByteAppendsTheCode.2.2.2 b { s with outq := [] } hb hroom
  rw [List.nil_append] at hout
  subst hout
  exact ⟨t, hexec, hbits, hcnt, (keepsButEncoder_queue s []).trans ⟨hf, hh, ht, hc, hd, hr⟩⟩

/-- R97 without the flush: the bytes pushed and the pending bits are the pending bits and codes put in. -/
theorem runDrained_encByte (x : List Byte) (hcode : CodeInv s) (hx : ∀ b ∈ x, (codeOf s b).valid = true) :
    ∃ t h, runDrained (x.map .encByte) s = some (t, h) ∧
      h.flatMap bitsOf ++ pendingBits t = pendingBits s ++ codeBits s x ∧
      t.encBitcnt = s.encBitcnt + BitVec.ofNat 64 (codeBits s x).length ∧ KeepsButEncoder s t := by
  induction x generalizing s with
  | nil =>
    refine ⟨s, [], rfl, (List.append_nil _).symm, ?_, keepsButEncoder_queue s s.outq⟩
    exact (BitVec.add_zero _).symm
  | cons b x ih =>
    obtain ⟨t, hexec, hbits, hcnt, hkeep⟩ := exec_encByte_drained hcode (hx b List.mem_cons_self)
    have hx' : ∀ c ∈ x, (codeOf t c).valid = true := fun c hc => by
      rw [codeOf_congr hkeep.codes]
      exact hx c (List.mem_cons_of_mem b hc)
    obtain ⟨u, h, hrun, hbits', hcnt', hkeep'⟩ := ih (codeInv_of_keeps hcode hkeep.tree hkeep.codes) hx'
    rw [codeBits_congr hkeep.codes] at hbits' hcnt'
    have hcons : codeBits s (b :: x) = (codeOf s b).bits ++ codeBits s x := List.flatMap_cons ..
    refine ⟨u, t.outq ++ h, runDrained_cons_some hexec hrun, ?_, ?_, hkeep.trans hkeep'⟩
    · rw [List.flatMap_append, List.append_assoc, hbits', ← List.append_assoc, hbits, hcons, List.append_assoc]
    · rw [hcnt', hcnt, hcons, List.length_append, BitVec.ofNat_add, BitVec.add_assoc]

/-- R96 after a drain: the pending bits go out, padded with zeros to a byte, or nothing does. -/
theorem exec_encFlush_drained (s : State) : ∃ t, exec .encFlush { s with outq := [] } = .next t ∧ t.encNpend = 0 ∧
    t.encBitcnt = s.encBitcnt ∧ KeepsButEncoder s t ∧
    ∃ pad, pad < 8 ∧ t.outq.flatMap bitsOf = pendingBits s ++ List.replicate pad false := by
  obtain ⟨-, hnone, -, hsome⟩ := encFlushPadsToAByte
  by_cases hpend : s.encNpend = 0
  · obtain ⟨t, hexec, -, hf, hh, ht, hc, he, hd, hr, hq⟩ := hnone { s with outq := [] } hpend
    have hbits : pendingBits s = [] := by
      rw [← List.length_eq_zero_iff, length_pendingBits, hpend]
      rfl
    refine ⟨t, hexec, he.encNpend.trans hpend, he.encBitcnt, (keepsButEncoder_queue s []).trans ⟨hf, hh, ht, hc, hd, hr⟩,
      0, by decide, ?_⟩
    rw [hq, hbits]
    rfl
  · obtain ⟨t, b, hexec, -, hq, hbits, -, -, hn, hcnt, hf, hh, ht, hc, hd, hr⟩ :=
      hsome { s with outq := [] } hpend (by decide : 0 < 64)
    refine ⟨t, hexec, hn, hcnt, (keepsButEncoder_queue s []).trans ⟨hf, hh, ht, hc, hd, hr⟩,
      8 - s.encNpend.toNat, ?_, ?_⟩
    · have hpos : 0 < s.encNpend.toNat := Nat.pos_of_ne_zero fun h0 => hpend (BitVec.eq_of_toNat_eq h0)
      omega
    · rw [hq, List.nil_append, List.flatMap_singleton, hbits]
      rfl

end Encode

/-- R52: a byte is eight bits. -/
theorem length_flatMap_bitsOf (h : List Byte) : (h.flatMap bitsOf).length = 8 * h.length := by
  induction h with
  | nil => rfl
  | cons b h ih =>
    rw [List.flatMap_cons, List.length_append, ih, length_bitsOf, List.length_cons]
    omega

/-- Settles O39: after ENC_START nothing is pending; the codes and the pad are then whole bytes. -/
theorem payloadIsThePackedCodes : Obligations.PayloadIsThePackedCodes := by
  intro s x hcode hx e
  obtain ⟨-, hstart⟩ := encStartBeginsAPayload
  obtain ⟨t0, hexec0, -, -, hnpend, hcnt0, hf, hh, ht, hc, hd, hr, hq0⟩ := hstart { s with outq := [] }
  have hkeep0 : KeepsButEncoder s t0 := (keepsButEncoder_queue s []).trans ⟨hf, hh, ht, hc, hd, hr⟩
  have hx0 : ∀ b ∈ x, (codeOf t0 b).valid = true := fun b hb => by
    rw [codeOf_congr hkeep0.codes]
    exact hx b hb
  obtain ⟨t1, h, hrun, hbits, hcnt, hkeep1⟩ :=
    runDrained_encByte x (codeInv_of_keeps hcode hkeep0.tree hkeep0.codes) hx0
  obtain ⟨t, hexec, hn, hcnt', hkeep2, pad, hpad, hout⟩ := exec_encFlush_drained t1
  have hpend0 : pendingBits t0 = [] := by
    rw [← List.length_eq_zero_iff, length_pendingBits, hnpend]
    rfl
  rw [codeBits_congr hkeep0.codes, hpend0, List.nil_append] at hbits
  have hall : (h ++ t.outq).flatMap bitsOf = e ++ List.replicate pad false := by
    rw [List.flatMap_append, hout, ← List.append_assoc, hbits]
    rfl
  have hlen : 8 * (h ++ t.outq).length = e.length + pad := by
    rw [← length_flatMap_bitsOf, hall, List.length_append, List.length_replicate]
  have hflush : runDrained [.encFlush] t1 = some (t, t.outq) :=
    (runDrained_cons_some hexec rfl).trans (by rw [List.append_nil])
  have hrun0 : runDrained (.encStart :: x.map .encByte ++ [.encFlush]) s = some (t, h ++ t.outq) := by
    rw [List.cons_append, runDrained_cons_some hexec0 (runDrained_append hrun hflush), hq0, List.nil_append]
  have hkeep := (hkeep0.trans hkeep1).trans hkeep2
  refine ⟨t, h ++ t.outq, hrun0, by omega, ?_, ?_, hn, hkeep.fault, hkeep.histogram, hkeep.tree, hkeep.codes,
    hkeep.decoder, hkeep.res⟩
  · rw [hall, hlen, Nat.add_sub_cancel_left]
  · rw [hcnt', hcnt, hcnt0, codeBits_congr hkeep0.codes, zero_add, BitVec.toNat_ofNat]
    rfl

/-! ## The decoder (R101) -/

/-- All engine state but the decoder's and OUTQ is as before. -/
structure KeepsButDecoder (s t : State) : Prop where
  fault : KeepsFault s t
  histogram : KeepsHistogram s t
  tree : KeepsTree s t
  codes : KeepsCodes s t
  encoder : KeepsEncoder s t
  res : t.res = s.res

theorem KeepsButDecoder.trans {s t u : State} (h : KeepsButDecoder s t) (h' : KeepsButDecoder t u) :
    KeepsButDecoder s u :=
  ⟨h.fault.trans h'.fault, h.histogram.trans h'.histogram, h.tree.trans h'.tree, h.codes.trans h'.codes,
    h.encoder.trans h'.encoder, h'.res.trans h.res⟩

/-- OUTQ is no part of it. -/
theorem keepsButDecoder_queue (s : State) (q : List Byte) : KeepsButDecoder s { s with outq := q } :=
  ⟨⟨rfl, rfl, rfl⟩, ⟨rfl, rfl⟩, ⟨rfl, rfl, rfl, rfl, rfl⟩, ⟨rfl, rfl, rfl⟩, ⟨rfl, rfl, rfl⟩, rfl⟩

/-- A decode is active, and DEC_DONE says whether all its bits have come. -/
structure Decoding (s : State) : Prop where
  active : s.decActive = true
  done_iff : s.decDone = true ↔ s.decRemain = 0

/-- The decode of s went on in t: `sent` bits further at most, the walker at `cur`, the symbols `out` pushed. -/
structure Decoded (cur : Index) (sent : Nat) (out : List Byte) (s t : State) : Prop where
  decoding : Decoding t
  decNode : t.decNode = cur
  decRemain : t.decRemain.toNat = s.decRemain.toNat - sent
  decSymcnt : t.decSymcnt = s.decSymcnt + BitVec.ofNat 64 out.length
  keeps : KeepsButDecoder s t

/-- Two stretches of one decode. -/
theorem Decoded.trans {s t u : State} {cur cur' : Index} {m n : Nat} {out out' : List Byte}
    (h : Decoded cur m out s t) (h' : Decoded cur' n out' t u) : Decoded cur' (m + n) (out ++ out') s u where
  decoding := h'.decoding
  decNode := h'.decNode
  decRemain := by rw [h'.decRemain, h.decRemain, Nat.sub_sub]
  decSymcnt := by rw [h'.decSymcnt, h.decSymcnt, List.length_append, BitVec.ofNat_add, BitVec.add_assoc]
  keeps := h.keeps.trans h'.keeps

/-- A walk over two stretches of bits is a walk over the first and one over the second from where it ends. -/
theorem walk_append {n : NodeMem} {root cur last : Index} {a b : List Bool} {out : List Byte}
    (h : walkBits n root (a ++ b) cur [] = some (last, out)) :
    ∃ mid out₁ out₂, Walk n root cur a mid out₁ ∧ walkBits n root b mid [] = some (last, out₂) ∧ out = out₁ ++ out₂ := by
  rw [walkBits_append] at h
  obtain ⟨⟨mid, out₁⟩, hfirst, hrest⟩ := Option.bind_eq_some_iff.mp h
  rw [walkBits_out] at hrest
  obtain ⟨⟨last', out₂⟩, hsecond, heq⟩ := Option.map_eq_some_iff.mp hrest
  obtain ⟨rfl, rfl⟩ := Prod.mk.inj heq
  exact ⟨mid, out₁, out₂, walkBits_iff.mp hfirst, hsecond, rfl⟩

/-- R52 and R99: the payload bits of a first byte, then those of the bytes after it. -/
theorem take_payload_cons (b : Byte) (y : List Byte) (s : State) :
    ((b :: y).flatMap bitsOf).take s.decRemain.toNat =
      payloadBits b s ++ (y.flatMap bitsOf).take (s.decRemain.toNat - 8) := by
  rw [List.flatMap_cons, List.take_append, length_bitsOf, payloadBits, List.take_eq_take_min, length_bitsOf, min_comm]

section Decode

variable {s : State}

/-- DEC_BYTE after a drain has room for the symbols of a byte: R99 of an empty queue. -/
theorem exec_decByte_drained (hs : Decoding s) {b : Byte} {cur : Index} {out : List Byte} (hremain : s.decRemain ≠ 0)
    (hwalk : Walk s.node s.root s.decNode (payloadBits b s) cur out)
    (hend : s.decRemain.toNat ≤ 8 → cur = s.root) :
    ∃ t, exec (.decByte b) { s with outq := [] } = .next t ∧ t.outq = out ∧ Decoded cur 8 out s t := by
  have hend' : remainAfter s = 0 → cur = s.root := fun h0 => hend <| by
    have hrem : s.decRemain.toNat - min 8 s.decRemain.toNat = 0 :=
      remainAfter_toNat.symm.trans (congrArg BitVec.toNat h0)
    omega
  have hroom : out.length ≤ 64 - 0 := (walk_length_le hwalk).trans (by decide)
  obtain ⟨-, -, -, -, -, -, hok⟩ := decByteWalksThePayloadBits
  obtain ⟨t, hexec, -, hout, -, hnode, hrem, hcnt, hactive, hdone, hf, hh, ht, hc, he, hr⟩ :=
    hok b { s with outq := [] } cur out hs.active hremain hwalk hend' hroom
  refine ⟨t, hexec, hout, ⟨hactive, hdone⟩, hnode, hrem.trans ?_, hcnt,
    (keepsButDecoder_queue s []).trans ⟨hf, hh, ht, hc, he, hr⟩⟩
  show s.decRemain.toNat - min 8 s.decRemain.toNat = s.decRemain.toNat - 8
  omega

/-- R101 without DEC_START and DEC_END: bytes of which each has a payload bit, and whose payload bits are a walk
that is at ROOT if they are the last ones, push the symbols of that walk. -/
theorem runDrained_decByte (y : List Byte) {cur : Index} {out : List Byte} (hs : Decoding s)
    (hwalk : walkBits s.node s.root ((y.flatMap bitsOf).take s.decRemain.toNat) s.decNode [] = some (cur, out))
    (hlen : 8 * y.length < s.decRemain.toNat + 8) (hend : s.decRemain.toNat ≤ 8 * y.length → cur = s.root) :
    ∃ t, runDrained (y.map .decByte) s = some (t, out) ∧ Decoded cur (8 * y.length) out s t := by
  induction y generalizing s out with
  | nil =>
    rw [List.flatMap_nil, List.take_nil] at hwalk
    obtain ⟨rfl, rfl⟩ := Prod.mk.inj (Option.some.inj hwalk)
    exact ⟨s, rfl, hs, rfl, rfl, (BitVec.add_zero _).symm, keepsButDecoder_queue s s.outq⟩
  | cons b y ih =>
    rw [List.length_cons] at hlen hend
    rw [take_payload_cons] at hwalk
    obtain ⟨mid, out₁, out₂, hfirst, hrest, rfl⟩ := walk_append hwalk
    have hremain : s.decRemain ≠ 0 := fun h0 => by
      have hzero : s.decRemain.toNat = 0 := congrArg BitVec.toNat h0
      omega
    have hmid : s.decRemain.toNat ≤ 8 → mid = s.root := fun hle => by
      obtain rfl : y = [] := List.length_eq_zero_iff.mp (by omega)
      rw [List.flatMap_nil, List.take_nil] at hrest
      obtain ⟨rfl, -⟩ := Prod.mk.inj (Option.some.inj hrest)
      exact hend (by omega)
    obtain ⟨t, hexec, hout, hdec⟩ := exec_decByte_drained hs hremain hfirst hmid
    rw [← hdec.keeps.tree.node, ← hdec.keeps.tree.root, ← hdec.decRemain, ← hdec.decNode] at hrest
    have hrem := hdec.decRemain
    obtain ⟨u, hrun, hdec'⟩ := ih hdec.decoding hrest (by omega) fun hle => by
      rw [hdec.keeps.tree.root]
      exact hend (by omega)
    refine ⟨u, hout ▸ runDrained_cons_some hexec hrun, ?_⟩
    rw [List.length_cons, Nat.mul_succ, Nat.add_comm]
    exact hdec.trans hdec'

/-- DEC_START after a drain, with a tree or without bits to decode (R98). -/
theorem exec_decStart_drained (len : Nat) (hlen : s.lArg[1].toNat * 2 ^ 32 + s.lArg[0].toNat = len)
    (htree : len = 0 ∨ s.nodeCount ≠ 0) :
    ∃ t, exec .decStart { s with outq := [] } = .next t ∧ t.outq = [] ∧ Decoding t ∧ t.decRemain.toNat = len ∧
      t.decNode = t.root ∧ t.decSymcnt = 0 ∧ KeepsButDecoder s t := by
  subst hlen
  obtain ⟨-, -, hok⟩ := decStartPutsTheWalkerAtTheRoot
  obtain ⟨t, hexec, -, hrem, hnode, hcnt, hactive, hdone, hf, hh, ht, hc, he, hr, hq⟩ :=
    hok { s with outq := [] } htree
  refine ⟨t, hexec, hq, ⟨hactive, hdone.trans ?_⟩, hrem, hnode.trans ht.root.symm, hcnt,
    (keepsButDecoder_queue s []).trans ⟨hf, hh, ht, hc, he, hr⟩⟩
  rw [BitVec.toNat_eq, hrem]
  rfl

/-- R101 without DEC_END: no more bytes than the declared length takes, whose payload bits are a walk from ROOT
that is back there if no bits remain, push the symbols of that walk. -/
theorem runDrained_payload {len : Nat} {y out : List Byte} {cur : Index} (htree : len = 0 ∨ s.nodeCount ≠ 0)
    (hlen : s.lArg[1].toNat * 2 ^ 32 + s.lArg[0].toNat = len) (hy : y.length ≤ (len + 7) / 8)
    (hwalk : walkBits s.node s.root ((y.flatMap bitsOf).take len) s.root [] = some (cur, out))
    (hend : len ≤ 8 * y.length → cur = s.root) :
    ∃ t, runDrained (.decStart :: y.map .decByte) s = some (t, out) ∧ Decoding t ∧
      t.decRemain.toNat = len - 8 * y.length ∧ t.decSymcnt.toNat = out.length % 2 ^ 64 ∧ KeepsButDecoder s t := by
  obtain ⟨t, hexec, hout, hdec, hrem, hnode, hcnt, hkeep⟩ := exec_decStart_drained len hlen htree
  rw [← hrem, ← hkeep.tree.node, ← hkeep.tree.root] at hwalk
  obtain ⟨u, hrun, hdec'⟩ := runDrained_decByte y hdec (by rw [hnode]; exact hwalk) (by omega) fun hle => by
    rw [hkeep.tree.root]
    exact hend (by omega)
  refine ⟨u, ?_, hdec'.decoding, hrem ▸ hdec'.decRemain, ?_, hkeep.trans hdec'.keeps⟩
  · rw [runDrained_cons_some hexec hrun, hout, List.nil_append]
  · rw [hdec'.decSymcnt, hcnt, zero_add, BitVec.toNat_ofNat]

/-- With no tree only the empty input has codes. -/
theorem length_eq_zero_or_tree {x : List Byte} {code : Byte → List Bool}
    (hcode : ∀ b ∈ x, s.nodeCount ≠ 0 ∧ CodePath s (code b) b) : (x.flatMap code).length = 0 ∨ s.nodeCount ≠ 0 := by
  cases x with
  | nil => exact .inl rfl
  | cons b x => exact .inr (hcode b List.mem_cons_self).1

end Decode

/-- Settles O43: the payload bits are the root paths of x, a walk that pushes x and ends at ROOT. -/
theorem decoderRecoversTheSymbols : Obligations.DecoderRecoversTheSymbols := by
  intro s x code y htree hcode e hfit hlen hy hprefix
  have hwalk : walkBits s.node s.root ((y.flatMap bitsOf).take e.length) s.root [] = some (s.root, x) := by
    rw [← List.prefix_iff_eq_take.mp hprefix]
    exact walkBits_codes htree x code hcode
  obtain ⟨t, hrun, hdec, hrem, hcnt, hkeep⟩ :=
    runDrained_payload (length_eq_zero_or_tree hcode) hlen hy.le hwalk fun _ => rfl
  have hrem0 : t.decRemain = 0 := BitVec.eq_of_toNat_eq (hrem.trans (by show e.length - 8 * y.length = 0; omega))
  obtain ⟨-, -, -, hend⟩ := decEndChecksTheLength
  obtain ⟨u, hexec, -, hactive, hdone, hrem', -, hcnt', hf, hh, ht, hc, he, hr, hq, -⟩ :=
    hend { t with outq := [] } hdec.active hrem0
  have hflush : runDrained [.decEnd] t = some (u, []) := by
    rw [runDrained_cons_some hexec rfl, hq, List.append_nil]
  have hall : KeepsButDecoder s u := (hkeep.trans (keepsButDecoder_queue t [])).trans ⟨hf, hh, ht, hc, he, hr⟩
  refine ⟨u, ?_, ?_, hactive, hdone.trans (hdec.done_iff.mpr hrem0), hrem'.trans hrem0, hall.fault, hall.histogram,
    hall.tree, hall.codes, hall.encoder, hall.res⟩
  · rw [runDrained_append hrun hflush, List.append_nil]
  · rw [hcnt']
    exact hcnt

/-- Settles O44: the first bits of the root paths of x are a walk that pushes a first part of x; DEC_END then finds
bits missing. -/
theorem shortPayloadIsTruncated : Obligations.ShortPayloadIsTruncated := by
  intro s x code y htree hnonempty hcode e hfit hlen hy hprefix
  obtain ⟨rest, hrest⟩ := hprefix
  have hshort : e.length = 8 * y.length + rest.length := by
    rw [← hrest, List.length_append, length_flatMap_bitsOf]
  have hwhole : walkBits s.node s.root (y.flatMap bitsOf ++ rest) s.root [] = some (s.root, x) := by
    rw [hrest]
    exact walkBits_codes htree x code fun b hb => ⟨hnonempty, hcode b hb⟩
  obtain ⟨mid, out, out', hfirst, -, rfl⟩ := walk_append hwhole
  have hwalk : walkBits s.node s.root ((y.flatMap bitsOf).take e.length) s.root [] = some (mid, out) := by
    rw [List.take_of_length_le (by rw [length_flatMap_bitsOf, hshort]; exact Nat.le_add_right ..)]
    exact walkBits_iff.mpr hfirst
  obtain ⟨t, hrun, hdec, hrem, -, -⟩ :=
    runDrained_payload (.inr hnonempty) hlen hy.le hwalk fun hle => by omega
  have hrem0 : t.decRemain ≠ 0 := fun h0 => by
    have hzero : t.decRemain.toNat = 0 := congrArg BitVec.toNat h0
    omega
  obtain ⟨-, -, hend, -⟩ := decEndChecksTheLength
  obtain ⟨u, hexec, hfault, -⟩ := hend { t with outq := [] } hdec.active hrem0
  have hflush : runDrained [.decEnd] t = some (u, []) := by
    rw [runDrained_cons_some hexec rfl, hfault.engine.outq, List.append_nil]
  refine ⟨u, out, ?_, List.prefix_append .., hfault.fault, hfault.errCode, ?_⟩
  · rw [runDrained_append hrun hflush, List.append_nil]
  · rw [hfault.engine.decoder.decRemain]
    exact hrem

/-- The latched arguments that declare a count as the length of a payload (R98): its low word, then its high one. -/
def latchCount (args : Vector Word 8) (n : Long) : Vector Word 8 :=
  (args.set 0 (n.extractLsb' 0 32)).set 1 (n.extractLsb' 32 32)

theorem latchCount_length (args : Vector Word 8) (n : Long) :
    (latchCount args n)[1].toNat * 2 ^ 32 + (latchCount args n)[0].toNat = n.toNat := by
  rw [latchCount, Vector.getElem_set_self, Vector.getElem_set_ne (by decide) (by decide) (by decide),
    Vector.getElem_set_self, highWord_toNat, lowWord_toNat, mul_comm, Nat.div_add_mod]

/-- Settles O45: what the encoder pushed begins with the codes, which are the root paths of the same tree. -/
theorem decodingUndoesEncoding : Obligations.DecodingUndoesEncoding := by
  intro s x hinv hx hfit
  obtain ⟨t, h, hrun, hlen, hbits, hcnt, -, hf, hh, ht, hc, hd, hr⟩ := payloadIsThePackedCodes s x hinv.code hx
  rw [Nat.mod_eq_of_lt hfit] at hcnt
  have hpath : ∀ b ∈ x, t.nodeCount ≠ 0 ∧ CodePath t (codeOf s b).bits b := fun b hb => by
    obtain ⟨hne, hcode⟩ := hinv.code.valid_path b (hx b hb)
    exact ⟨ht.nodeCount.symm ▸ hne, codePath_of_keeps hcode ht⟩
  have hsame := sameEngine_hostUpdate t t.flags t.lCmd (latchCount t.lArg t.encBitcnt) t.busy t.resp
  obtain ⟨u, hrun', -, -, hdone, -, hf', -⟩ :=
    decoderRecoversTheSymbols { t with lArg := latchCount t.lArg t.encBitcnt } x (fun b => (codeOf s b).bits) h
      (treeInv_of_keeps hinv.tree (ht.trans hsame.engine.tree)) hpath hfit
      ((latchCount_length t.lArg t.encBitcnt).trans hcnt) hlen ⟨_, hbits.symm⟩
  exact ⟨t, h, hrun, u, hrun', (hf.trans hsame.fault).trans hf', hdone⟩

end Sys2Proof.Proofs
end

section
/-! INSERT_CODE (R89): where its descent ends, its checks, what an accepted code leaves; then the statements. -/

namespace Sys2Proof.Proofs

open Sys2Proof.Machine Sys2Proof.Laws

/-! ## The descent -/

/-- A descent that stops leaves the bits that have no edge yet. -/
theorem length_of_descend_stop {n : NodeMem} {i cur : Index} {q rest : List Bool}
    (h : descend n i q = .stop cur rest) : rest.length = q.length - edgesAlong n i q := by
  induction i, q using descend.induct n with
  | case1 i =>
    cases h
    rfl
  | case2 i b hnil =>
    rw [descend, if_pos hnil] at h
    cases h
    rw [edgesAlong, if_pos hnil, Nat.sub_zero]
  | case3 i b hchild =>
    rw [descend, if_neg hchild] at h
    cases h
  | case4 i b b' q c hnil =>
    rw [descend, if_pos hnil] at h
    cases h
    rw [edgesAlong, if_pos hnil, Nat.sub_zero]
  | case5 i b b' q c hchild hleaf =>
    rw [descend, if_neg hchild, if_pos hleaf] at h
    cases h
  | case6 i b b' q c hchild hinner ih =>
    rw [descend, if_neg hchild, if_neg hinner] at h
    rw [edgesAlong, if_neg hchild, List.length_cons, Nat.add_sub_add_right]
    exact ih h

/-- No path goes on where the edge is NIL. -/
theorem follow_stuck {n : NodeMem} {i cur : Index} {pre q : List Bool} {b : Bool} (hpre : follow n i pre = some cur)
    (hnil : (nodeAt n cur).child b = Config.nil) (hq : pre ++ [b] <+: q) : follow n i q = none := by
  obtain ⟨rest, rfl⟩ := hq
  rw [List.append_assoc, follow_append, hpre]
  exact if_pos hnil

section Loaded

variable {s : State} (hinv : Machine.Inv s) (h0 : s.nodeCount ≠ 0) (hsrc : s.treeSrc = .loaded)
include hinv h0 hsrc

/-- I5: in a loaded tree a path to a leaf is a valid code. -/
theorem valid_of_loaded_leaf {p : List Bool} {i : Index} (hp : follow s.node s.root p = some i)
    (hleaf : (nodeAt s.node i).leaf = true) : ∃ b, (codeOf s b).valid = true ∧ (codeOf s b).bits = p := by
  have hall := hinv.tree.follow_allocated (hinv.tree.root_allocated h0) hp
  have hreal : RealLeaf s i := ⟨hleaf, Bool.eq_false_iff.mpr fun hsynth => by
    obtain ⟨-, -, hbuilt, -⟩ := hinv.tree.synth_fields i hall hsynth
    rw [hsrc] at hbuilt
    cases hbuilt⟩
  have hvalid := hinv.code.all_valid (.inl hsrc) i hall hreal
  obtain ⟨-, hpath⟩ := hinv.code.valid_path _ hvalid
  exact ⟨_, hvalid, codePath_unique hinv.tree hinv.path h0 hpath ⟨i, hp, hreal, rfl⟩⟩

/-- R89's conflict is the one of R92: a loaded code begins the new one or is begun by it. -/
theorem descend_eq_conflict_iff {q : List Bool} (hq : q ≠ []) :
    descend s.node s.root q = .conflict ↔ ∃ b, (codeOf s b).valid = true ∧ Conflict (codeOf s b).bits q := by
  have hroot := hinv.tree.root_allocated h0
  constructor
  · intro h
    rcases (descend_conflict hq).mp h with ⟨p, j, -, hpre, -, hp, hleaf, -⟩ | ⟨j, hp, -⟩
    · obtain ⟨b, hvalid, rfl⟩ := valid_of_loaded_leaf hinv h0 hsrc hp hleaf
      exact ⟨b, hvalid, .inl hpre⟩
    · obtain ⟨r, i, hr, hleaf⟩ := hinv.tree.exists_leaf (hinv.tree.follow_allocated hroot hp)
      have hqr : follow s.node s.root (q ++ r) = some i := by
        rw [follow_append, hp]
        exact hr
      obtain ⟨b, hvalid, hbits⟩ := valid_of_loaded_leaf hinv h0 hsrc hqr hleaf
      exact ⟨b, hvalid, .inr ⟨r, hbits.symm⟩⟩
  · rintro ⟨b, hvalid, hconf⟩
    cases hd : descend s.node s.root q with
    | conflict => rfl
    | stop cur rest =>
      obtain ⟨hcur, pre, c, hsplit, hpre, hhead, hnil⟩ := descend_stop (hinv.tree.root_internal h0) hq hd
      obtain ⟨d, rfl⟩ := List.head?_eq_some_iff.mp hhead
      have hstop : pre ++ [c] <+: q := ⟨d, by rw [List.append_assoc]; exact hsplit⟩
      obtain ⟨-, i, hi, ⟨hleaf, -⟩, -⟩ := hinv.code.valid_path b hvalid
      have hstuck : ¬ pre ++ [c] <+: (codeOf s b).bits := fun h => by
        rw [follow_stuck hpre hnil h] at hi
        cases hi
      have hbegin : (codeOf s b).bits <+: pre := by
        rcases hconf with h | h
        · rcases List.prefix_or_prefix_of_prefix h hstop with h' | h'
          · exact (List.prefix_concat_iff.mp h').resolve_left fun heq => hstuck (heq ▸ List.prefix_rfl)
          · exact absurd h' hstuck
        · exact absurd (hstop.trans h) hstuck
      obtain ⟨r, hr⟩ := hbegin
      rw [← hr, follow_append, hi] at hpre
      have hall := hinv.tree.follow_allocated hroot hi
      obtain ⟨-, rfl⟩ := follow_of_childless (hinv.tree.leaf_childless i hall hleaf) hpre
      exact absurd hleaf (Bool.eq_false_iff.mp hcur)

end Loaded

/-! ## The checks -/

/-- R89: INSERT_CODE over a built tree. -/
def OverBuiltTree (s : State) : Prop := s.nodeCount ≠ 0 ∧ s.treeSrc = .built

/-- R89: a code that may not be inserted: an empty one, one of a symbol that has one, or one in conflict. -/
def BadCode (sym len : Byte) (s : State) : Prop :=
  len = 0 ∨ (codeOf s sym).valid = true ∨
    ∃ b, (codeOf s b).valid = true ∧ Conflict (codeOf s b).bits (codeOperand len s)

theorem not_badCode_iff {sym len : Byte} {s : State} : ¬ BadCode sym len s ↔ len ≠ 0 ∧ (codeOf s sym).valid = false ∧
    ∀ b, (codeOf s b).valid = true → ¬ Conflict (codeOf s b).bits (codeOperand len s) := by
  simp only [BadCode, not_or, not_exists, not_and, Bool.not_eq_true, ne_eq]

theorem codeOperand_ne_nil {len : Byte} {s : State} (hlen : len ≠ 0) : codeOperand len s ≠ [] := fun h =>
  hlen (BitVec.eq_of_toNat_eq ((length_codeOperand len s).symm.trans (congrArg List.length h)))

theorem nodeCount_ne_zero_iff {s : State} : s.nodeCount ≠ 0 ↔ s.nodeCount.toNat ≠ 0 :=
  not_congr BitVec.toNat_eq

section Checks

variable {s : State} {sym len : Byte}

theorem insertCode_eq_sequence (hseq : OverBuiltTree s) : insertCode sym len s = .fault .sequence := by
  obtain ⟨h0, hsrc⟩ := hseq
  exact if_pos ⟨nodeCount_ne_zero_iff.mp h0, hsrc⟩

theorem treeSrc_eq_loaded (hseq : ¬ OverBuiltTree s) (h0 : s.nodeCount ≠ 0) : s.treeSrc = .loaded := by
  cases hsrc : s.treeSrc with
  | built => exact absurd ⟨h0, hsrc⟩ hseq
  | loaded => rfl

section Passed

variable (hlen : len ≠ 0) (hnew : (codeOf s sym).valid = false)
include hlen hnew

/-- R89 on an empty tree: at most 256 nodes, so the code is accepted below a new root. -/
theorem insertCode_first (h0 : s.nodeCount = 0) : insertCode sym len s =
    let r := graft sym (setNode s.node 0 (internalNode 0 Config.nil Config.nil)) 1 0 (codeOperand len s)
    .ok (withLoadedCode sym (codeOperand len s) r.1 r.2 s) [] := by
  have hcnt : s.nodeCount.toNat = 0 := congrArg BitVec.toNat h0
  have hroom : ¬ 0 + (len.toNat + 1) > Config.nodeCap := by
    have hlt := len.isLt
    simp only [Config.nodeCap]
    omega
  have hvalid : ¬ s.code[sym.toNat].valid = true := Bool.eq_false_iff.mp hnew
  simp only [insertCode, hcnt, if_neg hlen, if_neg hvalid, if_neg hroom]
  rfl

variable (h0 : s.nodeCount ≠ 0) (hsrc : s.treeSrc = .loaded)
include h0 hsrc

/-- R89 on a loaded tree, where the descent ends in a conflict. -/
theorem insertCode_conflict (hd : descend s.node s.root (codeOperand len s) = .conflict) :
    insertCode sym len s = .fault .badCode := by
  have hvalid : ¬ s.code[sym.toNat].valid = true := Bool.eq_false_iff.mp hnew
  have hpass : ¬ (s.nodeCount.toNat ≠ 0 ∧ s.treeSrc = .built) := fun ⟨_, h⟩ => by cases hsrc.symm.trans h
  simp only [insertCode, if_neg hpass, if_neg hlen, if_neg hvalid, if_neg (nodeCount_ne_zero_iff.mp h0), hd]

/-- R89 on a loaded tree, where the descent stops: the room for the missing nodes. -/
theorem insertCode_stop {cur : Index} {rest : List Bool}
    (hd : descend s.node s.root (codeOperand len s) = .stop cur rest) : insertCode sym len s =
      if s.nodeCount.toNat + rest.length > 511 then .fault .nodeCapacity
      else
        let r := graft sym s.node s.nodeCount.toNat cur rest
        .ok (withLoadedCode sym (codeOperand len s) r.1 r.2 s) [] := by
  have hvalid : ¬ s.code[sym.toNat].valid = true := Bool.eq_false_iff.mp hnew
  have hpass : ¬ (s.nodeCount.toNat ≠ 0 ∧ s.treeSrc = .built) := fun ⟨_, h⟩ => by cases hsrc.symm.trans h
  simp only [insertCode, if_neg hpass, if_neg hlen, if_neg hvalid, if_neg (nodeCount_ne_zero_iff.mp h0), hd]
  rfl

end Passed

/-- R89's BAD_CODE, whichever of its checks finds it: a valid code is a path of a loaded tree. -/
theorem insertCode_eq_badCode (hinv : Machine.Inv s) (hseq : ¬ OverBuiltTree s) (hbad : BadCode sym len s) :
    insertCode sym len s = .fault .badCode := by
  have hpass : ¬ (s.nodeCount.toNat ≠ 0 ∧ s.treeSrc = .built) := fun ⟨h0, hsrc⟩ =>
    hseq ⟨nodeCount_ne_zero_iff.mpr h0, hsrc⟩
  by_cases hlen : len = 0
  · exact (if_neg hpass).trans (if_pos hlen)
  by_cases hvalid : (codeOf s sym).valid = true
  · exact (if_neg hpass).trans ((if_neg hlen).trans (if_pos hvalid))
  obtain ⟨b, hb, hconf⟩ := (hbad.resolve_left hlen).resolve_left hvalid
  obtain ⟨h0, -⟩ := hinv.code.valid_path b hb
  have hsrc := treeSrc_eq_loaded hseq h0
  exact insertCode_conflict hlen (Bool.eq_false_iff.mpr hvalid) h0 hsrc
    ((descend_eq_conflict_iff hinv h0 hsrc (codeOperand_ne_nil hlen)).mpr ⟨b, hb, hconf⟩)

/-- R89: a code of at most 255 bits fits an empty tree, and a loaded one takes as many nodes as bits lack edges. -/
theorem exists_descend_stop (hinv : Machine.Inv s) (hseq : ¬ OverBuiltTree s) (hbad : ¬ BadCode sym len s)
    (h0 : s.nodeCount ≠ 0) : ∃ cur rest, descend s.node s.root (codeOperand len s) = .stop cur rest ∧
      rest.length = nodesNeeded s (codeOperand len s) := by
  cases hd : descend s.node s.root (codeOperand len s) with
  | conflict =>
    have hlen : len ≠ 0 := fun h => hbad (.inl h)
    exact absurd (.inr (.inr ((descend_eq_conflict_iff hinv h0 (treeSrc_eq_loaded hseq h0)
      (codeOperand_ne_nil hlen)).mp hd))) hbad
  | stop cur rest => exact ⟨cur, rest, rfl, by rw [nodesNeeded, if_neg h0, length_of_descend_stop hd]⟩

theorem insertCode_eq_nodeCapacity (hinv : Machine.Inv s) (hseq : ¬ OverBuiltTree s) (hbad : ¬ BadCode sym len s)
    (hfull : s.nodeCount.toNat + nodesNeeded s (codeOperand len s) > 511) :
    insertCode sym len s = .fault .nodeCapacity := by
  obtain ⟨hlen, hvalid, -⟩ := not_badCode_iff.mp hbad
  by_cases h0 : s.nodeCount = 0
  · have hlt := len.isLt
    rw [h0, nodesNeeded, if_pos h0, length_codeOperand] at hfull
    exact absurd hfull (by simp; omega)
  · obtain ⟨cur, rest, hd, hrest⟩ := exists_descend_stop hinv hseq hbad h0
    rw [insertCode_stop hlen hvalid h0 (treeSrc_eq_loaded hseq h0) hd, hrest]
    exact if_pos hfull

end Checks

/-! ## The accepted code -/

/-- What R89's allocation leaves for the code q of sym: q leads from 0 to a real leaf of sym, old paths and nodes
stay, and nodes were added as needed. -/
structure Inserted (s : State) (sym : Byte) (q : List Bool) (r : NodeMem × Nat) : Prop where
  count : r.2 = s.nodeCount.toNat + nodesNeeded s q
  grows : s.nodeCount.toNat < r.2
  bound : r.2 ≤ 511
  path : ∃ i, follow r.1 0 q = some i ∧ ((nodeAt r.1 i).leaf = true ∧ (nodeAt r.1 i).synth = false) ∧
    (nodeAt r.1 i).sym = sym
  keeps_paths : ∀ p i, s.nodeCount ≠ 0 → follow s.node s.root p = some i → follow r.1 0 p = some i
  keeps_nodes : ∀ i, Allocated s i → (nodeAt r.1 i).leaf = (nodeAt s.node i).leaf ∧
    (nodeAt r.1 i).sym = (nodeAt s.node i).sym
  fields : ∀ i : Index, i.toNat < r.2 → (nodeAt r.1 i).freq = 0 ∧ (nodeAt r.1 i).synth = false

section Accept

variable {s : State} {sym len : Byte} {r : NodeMem × Nat}

/-- A graft onto a base that has the old tree in it inserts its code. -/
theorem inserted_of_grafted {n : NodeMem} {cnt : Nat} {cur : Index} {pre rest : List Bool}
    (hbase : LoadedBase s n cnt cur) (hgraft : Grafted sym n cnt cur pre rest r) (hrest : rest ≠ [])
    (hcount : cnt + rest.length = s.nodeCount.toNat + nodesNeeded s (pre ++ rest))
    (hpaths : ∀ p i, s.nodeCount ≠ 0 → follow s.node s.root p = some i → follow n 0 p = some i)
    (hold : s.nodeCount.toNat ≤ cnt) (hnodes : ∀ i, Allocated s i → nodeAt n i = nodeAt s.node i) :
    Inserted s sym (pre ++ rest) r where
  count := hgraft.count.trans hcount
  grows := by
    have hnew := hgraft.count
    have hpos : 0 < rest.length := List.length_pos_iff.mpr hrest
    omega
  bound := hgraft.grow.bound
  path := by
    have hbound := hgraft.grow.bound
    have hnew := hgraft.count
    have hpos : 0 < rest.length := List.length_pos_iff.mpr hrest
    have hlast : (BitVec.ofNat 9 (r.2 - 1)).toNat = r.2 - 1 := toNat_ofNat_index (by omega)
    obtain ⟨hsynth, -, ⟨hleaf, -, hsym⟩ | ⟨-, hinner, -⟩⟩ :=
      hgraft.new_fields (BitVec.ofNat 9 (r.2 - 1)) (by omega) (by omega)
    · exact ⟨_, hgraft.reaches, ⟨hleaf, hsynth⟩, hsym⟩
    · exact absurd (by omega) hinner
  keeps_paths p i h0 hp := hgraft.keeps p i (hpaths p i h0 hp)
  keeps_nodes i hi := by
    obtain ⟨hleaf, -, hsym, -⟩ := hgraft.same_fields i (Nat.lt_of_lt_of_le hi hold)
    rw [hleaf, hsym, hnodes i hi]
    exact ⟨rfl, rfl⟩
  fields i hi := by
    by_cases hlt : i.toNat < cnt
    · obtain ⟨-, hsynth, -, hfreq⟩ := hgraft.same_fields i hlt
      obtain ⟨hsynth', hfreq', -⟩ := hbase.fields i hlt
      exact ⟨hfreq.trans hfreq', hsynth.trans hsynth'⟩
    · obtain ⟨hsynth, hfreq, -⟩ := hgraft.new_fields i (Nat.le_of_not_lt hlt) hi
      exact ⟨hfreq, hsynth⟩

/-- R89 on an empty tree. -/
theorem inserted_first (hinv : Machine.Inv s) (h0 : s.nodeCount = 0) (hlen : len ≠ 0) :
    Inserted s sym (codeOperand len s)
      (graft sym (setNode s.node 0 (internalNode 0 Config.nil Config.nil)) 1 0 (codeOperand len s)) := by
  have hbase := loadedBase_first hinv.tree hinv.code h0
  have hne := codeOperand_ne_nil (s := s) hlen
  have hlt := len.isLt
  have hroom : 1 + (codeOperand len s).length ≤ 511 := by
    rw [length_codeOperand]
    omega
  have hnil : ∀ b, (nodeAt (setNode s.node 0 (internalNode 0 Config.nil Config.nil)) 0).child b = Config.nil := by
    intro b
    rw [nodeAt_setNode _ (by decide), if_pos (by rfl)]
    cases b <;> rfl
  have hgraft := graft_spec sym (pre := []) hbase.grow hroom (by decide) hbase.root_internal
    (List.head?_eq_some_head hne) (hnil _) rfl
  have hcnt : s.nodeCount.toNat = 0 := congrArg BitVec.toNat h0
  refine inserted_of_grafted hbase hgraft hne ?_ (fun p i h => absurd h0 h) (hcnt ▸ Nat.zero_le 1) fun i hi => ?_
  · rw [List.nil_append, nodesNeeded, if_pos h0, hcnt, Nat.add_comm 1, Nat.zero_add]
  · rw [Allocated, hcnt] at hi
    exact absurd hi (Nat.not_lt_zero _)

/-- R89 on a loaded tree, below where the descent stops. -/
theorem inserted_next (hinv : Machine.Inv s) (h0 : s.nodeCount ≠ 0) (hsrc : s.treeSrc = .loaded) (hlen : len ≠ 0)
    {cur : Index} {rest : List Bool} (hd : descend s.node s.root (codeOperand len s) = .stop cur rest)
    (hroom : s.nodeCount.toNat + rest.length ≤ 511) :
    Inserted s sym (codeOperand len s) (graft sym s.node s.nodeCount.toNat cur rest) := by
  have hbase := loadedBase_next hinv.tree hinv.path hinv.code h0 hsrc cur
  have hroot := hinv.tree.loaded_root hsrc
  obtain ⟨hcur, pre, b, hsplit, hpre, hhead, hnil⟩ :=
    descend_stop (hinv.tree.root_internal h0) (codeOperand_ne_nil hlen) hd
  have hall := hinv.tree.follow_allocated (hinv.tree.root_allocated h0) hpre
  have hgraft := graft_spec sym hbase.grow hroom hall hcur hhead hnil (hroot ▸ hpre)
  have hne : rest ≠ [] := fun h => by
    rw [h] at hhead
    cases hhead
  rw [← hsplit]
  refine inserted_of_grafted hbase hgraft hne ?_ (fun p i _ hp => hroot ▸ hp) le_rfl fun _ _ => rfl
  rw [hsplit, nodesNeeded, if_neg h0, length_of_descend_stop hd]

/-- R89: what INSERT_CODE keeps. -/
theorem commitOk_withLoadedCode_frame (sym : Byte) (q : List Bool) (n : NodeMem) (cnt : Nat) (s : State) :
    let t := commitOk (withLoadedCode sym q n cnt s) []
    KeepsFault s t ∧ KeepsHistogram s t ∧ KeepsEncoder s t ∧ t.res = s.res ∧ t.outq = s.outq :=
  ⟨⟨rfl, rfl, rfl⟩, ⟨rfl, rfl⟩, ⟨rfl, rfl, rfl⟩, rfl, List.append_nil _⟩

/-- R89: past its checks INSERT_CODE commits the code. -/
theorem insertCode_accepts (hinv : Machine.Inv s) (hseq : ¬ OverBuiltTree s) (hbad : ¬ BadCode sym len s)
    (hroom : s.nodeCount.toNat + nodesNeeded s (codeOperand len s) ≤ 511) :
    ∃ r, insertCode sym len s = .ok (withLoadedCode sym (codeOperand len s) r.1 r.2 s) [] ∧
      Inserted s sym (codeOperand len s) r := by
  obtain ⟨hlen, hvalid, -⟩ := not_badCode_iff.mp hbad
  by_cases h0 : s.nodeCount = 0
  · exact ⟨_, insertCode_first hlen hvalid h0, inserted_first hinv h0 hlen⟩
  · have hsrc := treeSrc_eq_loaded hseq h0
    obtain ⟨cur, rest, hd, hrest⟩ := exists_descend_stop hinv hseq hbad h0
    rw [← hrest] at hroom
    exact ⟨_, (insertCode_stop hlen hvalid h0 hsrc hd).trans (if_neg (Nat.not_lt.mpr hroom)),
      inserted_next hinv h0 hsrc hlen hd hroom⟩

end Accept

/-- Settles O28: the checks one after the other. -/
theorem insertCodeChecksInOrder : Obligations.InsertCodeChecksInOrder := by
  intro s sym len hinv q sequence bad full
  by_cases hseq : sequence
  · obtain ⟨hexec, hfault⟩ := exec_fault (i := .insertCode sym len) (insertCode_eq_sequence hseq)
    exact ⟨_, hexec, fun _ => ⟨hfault, rfl⟩, fun h => absurd hseq h, fun h => absurd hseq h, fun h => absurd hseq h⟩
  by_cases hbad : bad
  · obtain ⟨hexec, hfault⟩ := exec_fault (i := .insertCode sym len) (insertCode_eq_badCode hinv hseq hbad)
    exact ⟨_, hexec, fun h => absurd h hseq, fun _ _ => ⟨hfault, rfl⟩, fun _ h => absurd hbad h,
      fun _ h => absurd hbad h⟩
  by_cases hfull : full
  · obtain ⟨hexec, hfault⟩ := exec_fault (i := .insertCode sym len) (insertCode_eq_nodeCapacity hinv hseq hbad hfull)
    exact ⟨_, hexec, fun h => absurd h hseq, fun _ h => absurd h hbad, fun _ _ _ => ⟨hfault, rfl⟩,
      fun _ _ h => absurd hfull h⟩
  · obtain ⟨r, hok, -⟩ := insertCode_accepts hinv hseq hbad (Nat.not_lt.mp hfull)
    obtain ⟨hexec, hdone⟩ := exec_ok_nil (i := .insertCode sym len) hok
    obtain ⟨hkeeps, -⟩ := commitOk_withLoadedCode_frame sym q r.1 r.2 s
    exact ⟨_, hexec, fun h => absurd h hseq, fun _ h => absurd h hbad, fun _ _ h => absurd h hfull,
      fun _ _ _ => ⟨hkeeps, hdone⟩⟩

/-- R31: a leaf can be added without an overflow of LEAF_COUNT. -/
theorem leafCount_succ_toNat {s : State} (ht : TreeInv s) (hroom : s.nodeCount.toNat < 511) :
    (s.leafCount + 1).toNat = s.leafCount.toNat + 1 := by
  have hle : s.leafCount.toNat ≤ s.nodeCount.toNat := by
    rw [ht.leafCount_eq]
    exact List.countP_le_length.trans_eq List.length_range
  rw [BitVec.toNat_add]
  exact Nat.mod_eq_of_lt (by show s.leafCount.toNat + 1 < 512; omega)

/-- R89 writes one entry of the code table. -/
theorem codeOf_withLoadedCode (sym : Byte) (q : List Bool) (n : NodeMem) (cnt : Nat) (s : State) (b : Byte) :
    codeOf (withLoadedCode sym q n cnt s) b = if b = sym then ⟨true, q⟩ else codeOf s b := by
  simp only [codeOf, withLoadedCode_code, Vector.getElem_set, BitVec.toNat_inj, eq_comm]

/-- Settles O29: the graft inserts the code, and the commit writes the tree's registers and the code's entry. -/
theorem insertCodeAddsItsPath : Obligations.InsertCodeAddsItsPath := by
  intro s sym len hinv q hseq hlen hnew hconf hroom
  obtain ⟨r, hok, hins⟩ := insertCode_accepts hinv hseq (not_badCode_iff.mpr ⟨hlen, hnew, hconf⟩) hroom
  obtain ⟨hexec, hdone⟩ := exec_ok_nil (i := .insertCode sym len) hok
  obtain ⟨hfault, hhist, henc, hres, hq⟩ := commitOk_withLoadedCode_frame sym q r.1 r.2 s
  have hgrows := hins.grows
  have hbound := hins.bound
  have hcount : (BitVec.ofNat 9 r.2).toNat = r.2 := toNat_ofNat_index (by omega)
  have hcode := codeOf_withLoadedCode sym q r.1 r.2 s
  have hmax : (BitVec.ofNat 8 (max s.codeMaxLen.toNat q.length)).toNat = max s.codeMaxLen.toNat len.toNat := by
    have hlt := s.codeMaxLen.isLt
    have hlt' := len.isLt
    rw [length_codeOperand, BitVec.toNat_ofNat]
    exact Nat.mod_eq_of_lt (by omega)
  exact ⟨_, hexec, hdone, rfl, rfl, hins.path, hins.keeps_paths, hins.keeps_nodes,
    fun i hi => hins.fields i (hi.trans_eq hcount), hcount.trans hins.count,
    leafCount_succ_toNat hinv.tree (by omega), (hcode sym).trans (if_pos rfl), fun b hb => (hcode b).trans (if_neg hb),
    hmax, rfl, ⟨rfl, rfl, rfl, rfl, rfl⟩, hfault, hhist, henc, hres, hq⟩

end Sys2Proof.Proofs
end
